-- ==== Sys2Proof/Word.lean ====
section
/-! DEFINITION. Words of the engine: 32-bit registers and addresses, 16-bit coordinates and pixels, bytes, and the two frame widths (00_scope.md R8). -/

namespace Sys2Proof

/-- A 32-bit register, length, count or system-memory address (R8). -/
abbrev Word := BitVec 32

/-- A 16-bit coordinate, window bound or pixel (R8). -/
abbrev Half := BitVec 16

/-- A command code or data byte (R8). -/
abbrev Byte := BitVec 8

/-- The width of an SPI frame, of a memory read and of the DMA channel: 8 or 16 bits (R8, R40, R41). -/
inductive Width where
  | w8
  | w16
  deriving DecidableEq, Repr, Inhabited

/-- The width in bits. -/
def Width.bits : Width → Nat
  | .w8 => 8
  | .w16 => 16

/-- The width in bytes: the `b` of 42_bulk_transfer.md R180. -/
def Width.bytes : Width → Nat
  | .w8 => 1
  | .w16 => 2

end Sys2Proof
end

