-- ==== Sys2Proof/Syntax.lean ====
section
/-! DEFINITION. The operations of the engine: one constructor per row of spec/opcode_table.json (30_encoding.md R107), with the operand fields of its format (R103). A reserved field is kept, so that no bit of a request is lost: what it must hold is WellFormed's, and what a request with another value does is the operation's (R109). -/

namespace Sys2Proof

/-- A request: the operation and the operand fields of its format (R103, R106), reserved fields last. -/
inductive Instr where
  /-- SET_WORD_WIDTH, format WID: ARG0 = [0] W16, [31:1] reserved. -/
  | setWordWidth (w16 : Bool) (rsvd : BitVec 31)
  /-- SET_DMA_MODE, format DMOD: ARG0 = [0] W16, [1] INC, [31:2] reserved. -/
  | setDmaMode (w16 : Bool) (inc : Bool) (rsvd : BitVec 30)
  /-- WRITE_COMMAND, format BYTE: ARG0 = [7:0] B, [31:8] reserved. -/
  | writeCommand (b : Byte) (rsvd : BitVec 24)
  /-- WRITE_SMALL_DATA, format BYTE. -/
  | writeSmallData (b : Byte) (rsvd : BitVec 24)
  /-- WRITE_DATA, format BUF: ARG0 = ADDR, ARG1 = LEN. -/
  | writeData (addr : Word) (len : Word)
  /-- TRANSMIT, format BUF. -/
  | transmit (addr : Word) (len : Word)
  /-- SET_ADDRESS_WINDOW, format WIN: ARG0 = [15:0] X0, [31:16] Y0; ARG1 = [15:0] X1, [31:16] Y1. -/
  | setAddressWindow (x0 : Half) (y0 : Half) (x1 : Half) (y1 : Half)
  /-- SET_ROTATION, format ROT: ARG0 = [1:0] M, [31:2] reserved. -/
  | setRotation (m : BitVec 2) (rsvd : BitVec 30)
  /-- FILL_PIXELS, format CNT: ARG0 = COUNT; ARG2 = [15:0] COLOR, [31:16] reserved. -/
  | fillPixels (count : Word) (color : Half) (rsvd : Half)
  /-- FILL_RECT, format RECT: as WIN, and ARG2 = [15:0] COLOR, [31:16] reserved. -/
  | fillRect (x0 : Half) (y0 : Half) (x1 : Half) (y1 : Half) (color : Half) (rsvd : Half)
  /-- DRAW_LINE, format RECT. -/
  | drawLine (x0 : Half) (y0 : Half) (x1 : Half) (y1 : Half) (color : Half) (rsvd : Half)
  /-- DRAW_PIXEL, format PT: ARG0 = [15:0] X, [31:16] Y; ARG2 = [15:0] COLOR, [31:16] reserved. -/
  | drawPixel (x : Half) (y : Half) (color : Half) (rsvd : Half)
  /-- DRAW_IMAGE, format IMG: ARG0 = X, Y; ARG1 = [15:0] BW, [31:16] BH; ARG2 = [7:0] BPP, [31:8] reserved; ARG3 = ADDR. -/
  | drawImage (x : Half) (y : Half) (bw : Half) (bh : Half) (bpp : Byte) (addr : Word) (rsvd : BitVec 24)
  /-- INIT, format N: no operands. -/
  | init
  deriving DecidableEq, Repr

end Sys2Proof
end

