-- ==== Sys2Proof/WellFormed.lean ====
section
/-! DEFINITION. Which requests are well formed: the reserved operand fields are 0 (30_encoding.md R103, R109). -/

namespace Sys2Proof

/-- A field marked reserved must be 0 (R103). -/
def Instr.wellFormed : Instr → Bool
  | .setWordWidth _ rsvd => rsvd == 0
  | .setDmaMode _ _ rsvd => rsvd == 0
  | .writeCommand _ rsvd => rsvd == 0
  | .writeSmallData _ rsvd => rsvd == 0
  | .writeData _ _ => true
  | .transmit _ _ => true
  | .setAddressWindow _ _ _ _ => true
  | .setRotation _ rsvd => rsvd == 0
  | .fillPixels _ _ rsvd => rsvd == 0
  | .fillRect _ _ _ _ _ rsvd => rsvd == 0
  | .drawLine _ _ _ _ _ rsvd => rsvd == 0
  | .drawPixel _ _ _ rsvd => rsvd == 0
  | .drawImage _ _ _ _ _ _ rsvd => rsvd == 0
  | .init => true

end Sys2Proof
end

