-- ==== Sys2Proof/Decode.lean ====
section
/-! DEFINITION. Decoding a request (the word written to OP and the four operand registers) into an operation, total, rejecting by name; and the encoder, written from the same tables (30_encoding.md R102, R103, R107). -/

namespace Sys2Proof

/-- The five words of a request: the request word and ARG0 to ARG3 (R102, R103). -/
structure Request where
  op : Word
  a0 : Word
  a1 : Word
  a2 : Word
  a3 : Word
  deriving DecidableEq, Repr

/-- Why a request word is illegal (R108). Both are the fault ILLEGAL_OP. -/
inductive DecodeReject where
  /-- Bits [31:8] are not 0 (R102). -/
  | highBitsSet
  /-- Bits [7:0] are no opcode of R107. -/
  | unknownOpcode
  deriving DecidableEq, Repr

/-- The opcode field [7:0] of a request word (R102). -/
def opcodeOf (op : Word) : Byte := op.extractLsb' 0 8

/-- Bits [31:8] of a request word, which must be 0 (R102). -/
def highBitsOf (op : Word) : BitVec 24 := op.extractLsb' 8 24

/-- The field [15:0] of an operand register. -/
def lowHalf (a : Word) : Half := a.extractLsb' 0 16

/-- The field [31:16] of an operand register. -/
def highHalf (a : Word) : Half := a.extractLsb' 16 16

/-- Bit `i` of an operand register. -/
def bitOf (a : Word) (i : Nat) : Bool := a.getLsbD i

/-- The operation of an opcode with the operands of its format (R107, R103). -/
def decodeOpcode (r : Request) : Option Instr :=
  match (opcodeOf r.op).toNat with
  | 0x01 => some (.setWordWidth (bitOf r.a0 0) (r.a0.extractLsb' 1 31))
  | 0x02 => some (.setDmaMode (bitOf r.a0 0) (bitOf r.a0 1) (r.a0.extractLsb' 2 30))
  | 0x10 => some (.writeCommand (r.a0.extractLsb' 0 8) (r.a0.extractLsb' 8 24))
  | 0x11 => some (.writeSmallData (r.a0.extractLsb' 0 8) (r.a0.extractLsb' 8 24))
  | 0x12 => some (.writeData r.a0 r.a1)
  | 0x13 => some (.transmit r.a0 r.a1)
  | 0x20 => some (.setAddressWindow (lowHalf r.a0) (highHalf r.a0) (lowHalf r.a1) (highHalf r.a1))
  | 0x21 => some (.setRotation (r.a0.extractLsb' 0 2) (r.a0.extractLsb' 2 30))
  | 0x30 => some (.fillPixels r.a0 (lowHalf r.a2) (highHalf r.a2))
  | 0x31 => some (.fillRect (lowHalf r.a0) (highHalf r.a0) (lowHalf r.a1) (highHalf r.a1)
      (lowHalf r.a2) (highHalf r.a2))
  | 0x32 => some (.drawLine (lowHalf r.a0) (highHalf r.a0) (lowHalf r.a1) (highHalf r.a1)
      (lowHalf r.a2) (highHalf r.a2))
  | 0x33 => some (.drawPixel (lowHalf r.a0) (highHalf r.a0) (lowHalf r.a2) (highHalf r.a2))
  | 0x34 => some (.drawImage (lowHalf r.a0) (highHalf r.a0) (lowHalf r.a1) (highHalf r.a1)
      (r.a2.extractLsb' 0 8) r.a3 (r.a2.extractLsb' 8 24))
  | 0x40 => some .init
  | _ => none

/-- Decode a request: total, rejecting by name (R102, R108). An operand register the format does not name has no effect (R103). -/
def decode (r : Request) : Except DecodeReject Instr :=
  if highBitsOf r.op ≠ 0 then .error .highBitsSet
  else match decodeOpcode r with
    | some i => .ok i
    | none => .error .unknownOpcode

/-- The opcode of an operation (R107). -/
def Instr.opcode : Instr → Byte
  | .setWordWidth _ _ => 0x01
  | .setDmaMode _ _ _ => 0x02
  | .writeCommand _ _ => 0x10
  | .writeSmallData _ _ => 0x11
  | .writeData _ _ => 0x12
  | .transmit _ _ => 0x13
  | .setAddressWindow _ _ _ _ => 0x20
  | .setRotation _ _ => 0x21
  | .fillPixels _ _ _ => 0x30
  | .fillRect _ _ _ _ _ _ => 0x31
  | .drawLine _ _ _ _ _ _ => 0x32
  | .drawPixel _ _ _ _ => 0x33
  | .drawImage _ _ _ _ _ _ _ => 0x34
  | .init => 0x40

/-- A word whose low bits are an opcode and whose bits [31:8] are 0 (R102). -/
def requestWord (b : Byte) : Word := 0#24 ++ b

/-- Two 16-bit fields in one operand register: `lo` in [15:0], `hi` in [31:16] (R103). -/
def packHalves (lo hi : Half) : Word := hi ++ lo

/-- The words of a request, from the operand formats of R103; a register the format does not name is 0. -/
def encode (i : Instr) : Request :=
  let op := requestWord i.opcode
  match i with
  | .setWordWidth w16 rsvd => ⟨op, rsvd ++ BitVec.ofBool w16, 0, 0, 0⟩
  | .setDmaMode w16 inc rsvd => ⟨op, rsvd ++ (BitVec.ofBool inc ++ BitVec.ofBool w16), 0, 0, 0⟩
  | .writeCommand b rsvd => ⟨op, rsvd ++ b, 0, 0, 0⟩
  | .writeSmallData b rsvd => ⟨op, rsvd ++ b, 0, 0, 0⟩
  | .writeData addr len => ⟨op, addr, len, 0, 0⟩
  | .transmit addr len => ⟨op, addr, len, 0, 0⟩
  | .setAddressWindow x0 y0 x1 y1 => ⟨op, packHalves x0 y0, packHalves x1 y1, 0, 0⟩
  | .setRotation m rsvd => ⟨op, rsvd ++ m, 0, 0, 0⟩
  | .fillPixels count color rsvd => ⟨op, count, 0, packHalves color rsvd, 0⟩
  | .fillRect x0 y0 x1 y1 color rsvd => ⟨op, packHalves x0 y0, packHalves x1 y1, packHalves color rsvd, 0⟩
  | .drawLine x0 y0 x1 y1 color rsvd => ⟨op, packHalves x0 y0, packHalves x1 y1, packHalves color rsvd, 0⟩
  | .drawPixel x y color rsvd => ⟨op, packHalves x y, 0, packHalves color rsvd, 0⟩
  | .drawImage x y bw bh bpp addr rsvd => ⟨op, packHalves x y, packHalves bw bh, rsvd ++ bpp, addr⟩
  | .init => ⟨op, 0, 0, 0, 0⟩

/-- Which of ARG0 to ARG3 a format names (R103); the assembler writes these (R112). -/
def Instr.namesArg : Instr → Nat → Bool
  | .setWordWidth _ _, n => n == 0
  | .setDmaMode _ _ _, n => n == 0
  | .writeCommand _ _, n => n == 0
  | .writeSmallData _ _, n => n == 0
  | .writeData _ _, n => n == 0 || n == 1
  | .transmit _ _, n => n == 0 || n == 1
  | .setAddressWindow _ _ _ _, n => n == 0 || n == 1
  | .setRotation _ _, n => n == 0
  | .fillPixels _ _ _, n => n == 0 || n == 2
  | .fillRect _ _ _ _ _ _, n => n == 0 || n == 1 || n == 2
  | .drawLine _ _ _ _ _ _, n => n == 0 || n == 1 || n == 2
  | .drawPixel _ _ _ _, n => n == 0 || n == 2
  | .drawImage _ _ _ _ _ _ _, n => n == 0 || n == 1 || n == 2 || n == 3
  | .init, _ => false

/-- A request as one number, bit 0 the least significant bit of the request word, the operand registers after it in order. -/
def Request.ofNat (w : Nat) : Request where
  op := BitVec.ofNat 32 w
  a0 := BitVec.ofNat 32 (w / 2 ^ 32)
  a1 := BitVec.ofNat 32 (w / 2 ^ 64)
  a2 := BitVec.ofNat 32 (w / 2 ^ 96)
  a3 := BitVec.ofNat 32 (w / 2 ^ 128)

/-- The operation the decoder reads from a request whose bits are `w`, every bit above `nbits` 0. -/
def decodeTableWord (nbits w : Nat) : Option Instr :=
  match decode (Request.ofNat (w % 2 ^ nbits)) with
  | .ok i => some i
  | .error _ => none

end Sys2Proof
end

