-- ==== Sys2Proof/Config.lean ====
section
/-! DEFINITION. The build-time parameters of 00_scope.md R6 with their constraints (R7), the fixed numbers of the source, and the free values: opaque constants with no body. -/

namespace Sys2Proof

/-- `MAX_CHUNK` (R6): the most frames one peripheral transfer counts (42_bulk_transfer.md R183). -/
def Config.maxChunk : Nat := 65535

/-- `FILL_BUF_LEN` (R6): entries of the fill buffer (44_pixel_stream.md R242). -/
def Config.fillBufLen : Nat := 64

/-- The panel variants `PANEL_VARIANT` ranges over (R6): the one the source names, the one of the candidate rows of 43_addressing.md R212, and any other, by a number. -/
inductive PanelVariant where
  | p135x240
  | p240x240
  | other (n : Nat)
  deriving DecidableEq, Repr, Inhabited

/-- One row (W, H, SX, SY) of the geometry table, 16 bits each (R6). -/
structure Geometry where
  w : Half
  h : Half
  sx : Half
  sy : Half
  deriving DecidableEq, Repr, Inhabited

/-- The four rows of one panel variant, by rotation (43_addressing.md R212). -/
structure VariantRows where
  variant : PanelVariant
  r0 : Geometry
  r1 : Geometry
  r2 : Geometry
  r3 : Geometry
  deriving DecidableEq, Repr, Inhabited

/-- The row of a rotation. -/
def VariantRows.row (v : VariantRows) (m : BitVec 2) : Geometry :=
  if m = 0#2 then v.r0 else if m = 1#2 then v.r1 else if m = 2#2 then v.r2 else v.r3

/-- Width and height swap between rotations 0/2 and 1/3 (R7, 43_addressing.md R213). -/
def VariantRows.swaps (v : VariantRows) : Bool :=
  v.r1.w == v.r0.h && v.r1.h == v.r0.w &&
  v.r2.w == v.r0.w && v.r2.h == v.r0.h &&
  v.r3.w == v.r1.w && v.r3.h == v.r1.h

/-- `MEM_BYTE_ORDER` (R6, 20_memory.md R72). -/
inductive ByteOrder where
  | little
  | big
  deriving DecidableEq, Repr, Inhabited

/-- One entry of `MEM_ADMIT` (R6): the reads that lie inside `base .. base + size - 1`, at each width separately. DESIGN CHOICE (log 10). -/
structure AdmitRegion where
  base : Nat
  size : Nat
  w8 : Bool
  w16 : Bool
  deriving DecidableEq, Repr, Inhabited

/-- The parameters of R6 as plain data. -/
structure Params where
  dmaEnabled : Bool
  dmaMinSize : Nat
  panelVariant : PanelVariant
  rotationCfg : BitVec 2
  geometry : List VariantRows
  rotPattern0 : Byte
  rotPattern1 : Byte
  rotPattern2 : Byte
  rotPattern3 : Byte
  cmdCaset : Byte
  cmdRaset : Byte
  cmdRamwr : Byte
  cmdMadctl : Byte
  cmdInvon : Byte
  cmdSlpout : Byte
  cmdNoron : Byte
  cmdDispon : Byte
  initTableA : List (Byte × List Byte)
  initTableB : List (Byte × List Byte)
  bgColor : Half
  memByteOrder : ByteOrder
  memAdmit : List AdmitRegion
  deriving DecidableEq, Repr, Inhabited

/-- `GEOMETRY(PANEL_VARIANT, ROTATION_CFG)` where the table has the variant (R6). -/
def Params.geometryRow (p : Params) : Option Geometry :=
  (p.geometry.find? (fun v => v.variant == p.panelVariant)).map (fun v => v.row p.rotationCfg)

/-- (W, H, SX, SY) (R6). The default stands for a table without the variant, which R7's check refuses. -/
def Params.geo (p : Params) : Geometry := p.geometryRow.getD ⟨0, 0, 0, 0⟩

/-- `ROT_PATTERN[m]` (R6, 43_addressing.md R215). -/
def Params.rotPattern (p : Params) (m : BitVec 2) : Byte :=
  if m = 0#2 then p.rotPattern0 else if m = 1#2 then p.rotPattern1
  else if m = 2#2 then p.rotPattern2 else p.rotPattern3

/-- The eight command codes in the order of 30_encoding.md R115. -/
def Params.commandCodes (p : Params) : List Byte :=
  [p.cmdCaset, p.cmdRaset, p.cmdRamwr, p.cmdMadctl, p.cmdInvon, p.cmdSlpout, p.cmdNoron, p.cmdDispon]

/-- R7, first sentence: the sizes of the selected geometry and of the threshold. -/
def Params.sizesOk (p : Params) : Bool :=
  p.geometryRow.isSome &&
  decide (1 ≤ p.geo.w.toNat) && decide (1 ≤ p.geo.h.toNat) &&
  decide (p.geo.w.toNat + p.geo.sx.toNat ≤ 65535) &&
  decide (p.geo.h.toNat + p.geo.sy.toNat ≤ 65535) &&
  decide (p.geo.w.toNat * p.geo.h.toNat ≤ 2 ^ 32 - 1) &&
  decide (1 ≤ p.dmaMinSize) && decide (p.dmaMinSize ≤ 65535)

/-- R7, last sentence, for every variant of the table, and the one row the source gives (43_addressing.md R212). -/
def Params.geometryOk (p : Params) : Bool :=
  p.geometry.all (fun v => v.swaps && (v.variant != .p135x240 || v.r3 == ⟨240, 135, 40, 53⟩))

/-- The codes are pairwise distinct (30_encoding.md R115), and the patterns (43_addressing.md R215). -/
def Params.codesOk (p : Params) : Bool :=
  decide p.commandCodes.Nodup &&
  decide [p.rotPattern0, p.rotPattern1, p.rotPattern2, p.rotPattern3].Nodup

/-- One entry of an initialization table: none of the codes of 45_init.md R293, and a length that `LEN` can hold (R8). -/
def Params.tableEntryOk (p : Params) (e : Byte × List Byte) : Bool :=
  !([p.cmdCaset, p.cmdRaset, p.cmdRamwr, p.cmdMadctl, p.cmdDispon].contains e.1) &&
  decide (e.2.length < 2 ^ 32)

/-- 45_init.md R293: the entries of both tables, and two gamma entries of 14 data bytes in table B (log 9). -/
def Params.tablesOk (p : Params) : Bool :=
  p.initTableA.all p.tableEntryOk && p.initTableB.all p.tableEntryOk &&
  decide (2 ≤ (p.initTableB.filter (fun e => e.2.length == 14)).length)

/-- The constraints on the parameters (R7, 30_encoding.md R115, 43_addressing.md R212 and R215, 45_init.md R293). -/
def Params.valid (p : Params) : Bool :=
  p.sizesOk && p.geometryOk && p.codesOk && p.tablesOk

/-- A configuration of the engine: parameters that meet their constraints. "A configuration that breaks one of these is outside the spec (a model refuses it)" (R7): it is refused where it would be built, by `Config.check` (log 8). -/
structure Config extends Params where
  ok : toParams.valid = true
  deriving DecidableEq, Repr

/-- Build a configuration, or refuse the parameters (R7, 93_implementation_defined.md U30). -/
def Config.check (p : Params) : Option Config :=
  if h : p.valid = true then some ⟨p, h⟩ else none

/-- The candidate values of the spec (00_scope.md R6, 30_encoding.md R115, 43_addressing.md R212 and R215, 45_init.md R293), most of them "[from general knowledge, not in source]". They are no statement about the hardware: the model uses them for its own tests, and in `Config.board` to have some valid configuration (log 8). -/
def Params.candidate : Params where
  dmaEnabled := true
  dmaMinSize := 16
  panelVariant := .p135x240
  rotationCfg := 3#2
  geometry :=
    [ ⟨.p135x240, ⟨135, 240, 53, 40⟩, ⟨240, 135, 40, 52⟩, ⟨135, 240, 52, 40⟩, ⟨240, 135, 40, 53⟩⟩,
      ⟨.p240x240, ⟨240, 240, 0, 80⟩, ⟨240, 240, 80, 0⟩, ⟨240, 240, 0, 0⟩, ⟨240, 240, 0, 0⟩⟩ ]
  rotPattern0 := 0xC0
  rotPattern1 := 0xA0
  rotPattern2 := 0x00
  rotPattern3 := 0x60
  cmdCaset := 0x2A
  cmdRaset := 0x2B
  cmdRamwr := 0x2C
  cmdMadctl := 0x36
  cmdInvon := 0x21
  cmdSlpout := 0x11
  cmdNoron := 0x13
  cmdDispon := 0x29
  initTableA := [(0x3A, [0x55]), (0xB2, [0x0C, 0x0C, 0x00, 0x33, 0x33])]
  initTableB :=
    [ (0xB7, [0x35]), (0xBB, [0x19]), (0xC0, [0x2C]), (0xC2, [0x01]), (0xC3, [0x12]), (0xC4, [0x20]),
      (0xC6, [0x0F]), (0xD0, [0xA4, 0xA1]),
      (0xE0, [0xD0, 0x04, 0x0D, 0x11, 0x13, 0x2B, 0x3F, 0x54, 0x4C, 0x18, 0x0D, 0x0B, 0x1F, 0x23]),
      (0xE1, [0xD0, 0x04, 0x0C, 0x11, 0x13, 0x2C, 0x3F, 0x44, 0x51, 0x2F, 0x1F, 0x1F, 0x20, 0x23]) ]
  bgColor := 0x0000
  memByteOrder := .little
  memAdmit := [⟨0x20000000, 0x20000, true, true⟩]

/-- The candidate configuration (log 8). -/
def Config.candidate : Config := ⟨Params.candidate, by decide⟩

/-- The parameters the one engine of `State.reset` was built with: open (R6), so a constant with no body (log 8). -/
opaque Config.boardParams : Params

/-- The configuration of `State.reset`: the open parameters, with `MEM_BYTE_ORDER` = little as decided (R72, log 11). R7 holds of every configuration, so where the open parameters break it the candidate stands in. Nothing can be proved of which it is (log 8). -/
def Config.board : Config :=
  if h : ({ Config.boardParams with memByteOrder := .little } : Params).valid = true
  then ⟨{ Config.boardParams with memByteOrder := .little }, h⟩
  else Config.candidate

/-- The outcome of a reconfiguration (40_bus_mode.md R141). -/
inductive ReconfigOutcome where
  | ok
  | fail
  deriving DecidableEq, Repr, Inhabited

/-- The outcome of one frame (41_protocol.md R166, 42_bulk_transfer.md R186). -/
inductive XferOutcome where
  | ok
  | fail
  | hang
  deriving DecidableEq, Repr, Inhabited

/-- Free value: the outcome of a reconfiguration that the state's list does not name ("a draw, under no law", 00_scope.md R10; log 4). -/
opaque Config.freeReconfig : Nat → ReconfigOutcome

/-- Free value: the outcome of a frame that the state's list does not name (R10; log 4). -/
opaque Config.freeXfer : Nat → XferOutcome

/-- Free value: whether a DMA channel that can step takes its step now (42_bulk_transfer.md R187: not assumed fair; log 3). -/
opaque Config.freeDmaTurn : Nat → Bool

end Sys2Proof
end

