-- ==== Sys2Proof/Machine/State.lean ====
section
/-! DEFINITION. The state of the engine (10_state.md R30), its reset value (70_reset_and_hazards.md R350), and the reasons a step can stop. -/

namespace Sys2Proof.Machine

/-- Result codes of `STATUS.RESULT` (60_exceptions.md R311). -/
inductive ResultCode where
  | ok
  | notHandled
  | rejectBounds
  | rejectFormat
  | fault
  deriving DecidableEq, Repr

/-- Fault codes of `ERR.ERR_CODE` (60_exceptions.md R314). They are architectural: raising one is a next state of the engine (R315), not a stop of the model. -/
inductive ErrCode where
  | none
  | illegalOp
  | reservedOperand
  | noDma
  | notReady
  | initTwice
  | invalidWindow
  | rotationMismatch
  | emptyBitmap
  | misaligned
  | busError
  | reconfigFault
  | transferFault
  | reentrant
  deriving DecidableEq, Repr

/-- The sequencer state (10_state.md R36). -/
inductive Fsm where
  | idle
  | run
  | waitDma
  | faulted
  deriving DecidableEq, Repr

/-- How a chunk is sent (00_scope.md R13). -/
inductive Transport where
  | blk
  | dma
  deriving DecidableEq, Repr

/-- The source of a transfer (42_bulk_transfer.md R180). -/
inductive Source where
  | mem (a : Word)
  | lit (l : List Half)
  | rep (v : Half)
  deriving DecidableEq, Repr

/-- An event of the wire trace (20_memory.md R80). A line level or latch value is a Bool: false = 0, true = 1. -/
inductive Event where
  | csN (v : Bool)
  | dc (v : Bool)
  | rstN (v : Bool)
  | delay (ms : Nat)
  | spiWidth (w : Width)
  | dmaCfg (inc : Bool) (w : Width)
  | chunk (t : Transport) (n : Nat)
  | frame (c : Bool) (d : Bool) (w : Width) (v : Half)
  | reset
  deriving DecidableEq, Repr

/-- A primitive action of a micro-sequence (10_state.md R36, 20_memory.md R81). Every action is one step of the sequencer and does one primitive of 00_scope.md R10 or one of the named actions on the lines and the channel (R12; log 6), but for a check or a comparison that finds nothing to do (logs 6, 29). A called operation, a blocking frame or a loop of the pseudocode whose course is known only when it is reached is one action that does its first primitive and puts the rest back in front (log 27). -/
inductive Action where
  /-- `drive_cs(v)` (20_memory.md R81). -/
  | driveCs (v : Bool)
  /-- `drive_dc(v)`. -/
  | driveDc (v : Bool)
  /-- `drive_rst(v)`. -/
  | driveRst (v : Bool)
  /-- `delay(ms)` (R81, 70_reset_and_hazards.md R370). -/
  | delay (ms : Nat)
  /-- `call SET_WORD_WIDTH(w)` (40_bus_mode.md R140): the comparison, and on a change `bus_width <- w`; its event and its draw follow. -/
  | setWidth (w : Width)
  /-- SET_WORD_WIDTH: emit `SpiWidth(w)`. -/
  | emitWidth (w : Width)
  /-- `call SET_DMA_MODE(inc, w)` (40_bus_mode.md R142): the comparison, and on a change `dma_inc <- inc`; the width, the event and the draw follow. -/
  | setDmaMode (inc : Bool) (w : Width)
  /-- SET_DMA_MODE: `dma_width <- w`. -/
  | setDmaWidth (w : Width)
  /-- SET_DMA_MODE: emit `DmaCfg(inc, w)`. -/
  | emitDmaCfg (inc : Bool) (w : Width)
  /-- The draw after a reconfiguration event; "`FAIL` raises `RECONFIG_FAULT` at once" (40_bus_mode.md R141). -/
  | drawReconfig
  /-- `send_blocking(b)` of one byte (41_protocol.md R166): the frame; its draw follows. -/
  | sendByte (b : Byte)
  /-- The draw after a blocking frame, and what it leads to (41_protocol.md R166). -/
  | drawXfer
  /-- TRANSMIT (42_bulk_transfer.md R183): `src`; `rem` and the loop follow. -/
  | loadTransfer (source : Source) (len : Word)
  /-- `call TRANSMIT(Rep(fill_color), len)`: the same from the colour register (44_pixel_stream.md R242). -/
  | loadFill (len : Word)
  /-- TRANSMIT: `rem <- LEN`, with `off <- 0`. -/
  | setRem (len : Word)
  /-- TRANSMIT: `chunk <- min(rem, MAX_CHUNK)` and the choice of transport (R184), at frame offset `off`. -/
  | startChunk (off : Nat)
  /-- TRANSMIT: emit `Chunk(t, n)`. -/
  | emitChunk (t : Transport) (n : Nat)
  /-- TRANSMIT: the `n` blocking frames of a chunk still to send, from frame `off`: the first of them; its draw and the others follow. -/
  | sendChunk (off : Nat) (n : Nat)
  /-- `issue_dma(src, off, n)` (R185). -/
  | issueDma (off : Nat) (n : Nat)
  /-- TRANSMIT: pointer advance and `rem <- rem - chunk` (R182). -/
  | endChunk (off : Nat)
  /-- `win_xs <- v` (43_addressing.md R210). -/
  | setWinXs (v : Half)
  | setWinXe (v : Half)
  | setWinYs (v : Half)
  | setWinYe (v : Half)
  /-- `rot <- m` (43_addressing.md R214). -/
  | setRot (m : BitVec 2)
  /-- `rot_set <- true`. -/
  | setRotSet
  /-- `init_done <- true` (45_init.md R290). -/
  | setInitDone
  /-- `fill_color <- c` (44_pixel_stream.md R242). -/
  | setFillColor (c : Half)
  /-- `fill_buf[i] <- c` (R242). -/
  | fillEntry (i : Fin 64) (c : Half)
  /-- The blocks of a non-DMA fill still to send, `left` pixels (R242). -/
  | fillBlocks (left : Nat)
  /-- The `NOT_READY` check of a called operation (60_exceptions.md R316); DESIGN CHOICE: a step of its own, without a primitive where it passes (log 29). -/
  | checkReady
  /-- `finish(r)` of the host-issued operation (60_exceptions.md R312). -/
  | finish (r : ResultCode)
  /-- `raise F` (60_exceptions.md R315). -/
  | raise (f : ErrCode)
  /-- A blocking transmit that never completes: no further step (41_protocol.md R166; log 7). -/
  | hung
  deriving DecidableEq, Repr

/-- `dma_state` (10_state.md R50): `active src k n` has frame `k` next and `n` frames to send. -/
inductive DmaState where
  | ready
  | active (source : Source) (k : Nat) (n : Nat)
  | hung
  deriving DecidableEq, Repr

/-- Four operand registers (10_state.md R32, R33). -/
structure Args where
  a0 : Word
  a1 : Word
  a2 : Word
  a3 : Word
  deriving DecidableEq, Repr

/-- The width of a host access (30_encoding.md R100). -/
inductive AccessSize where
  | byte
  | half
  | word
  | double
  deriving DecidableEq, Repr

/-- A host access to the register space, at a byte offset from the engine's base (30_encoding.md R100, R104). -/
inductive HostAccess where
  | write (off : Nat) (size : AccessSize) (v : Word)
  | read (off : Nat) (size : AccessSize)
  deriving DecidableEq, Repr

/-- What the host's bus last answered (30_encoding.md R100, R101; log 13). -/
inductive HostResp where
  | none
  | ack
  | data (v : Word)
  | busError
  deriving DecidableEq, Repr

/-- One item of what the world outside the engine does next (00_scope.md R12; log 2). -/
inductive Input where
  /-- One host access to a register. -/
  | host (a : HostAccess)
  /-- The host writes a byte of system memory (20_memory.md R71). -/
  | memWrite (addr : Word) (b : Byte)
  /-- WAIT: the host polls STATUS until BUSY = 0 (30_encoding.md R113; log 21). -/
  | wait
  /-- The agent that has a step takes it. -/
  | engine
  /-- No agent takes a step (42_bulk_transfer.md R187). -/
  | stall
  /-- The reset input (70_reset_and_hazards.md R351). -/
  | reset
  deriving DecidableEq, Repr

/-- System memory: address and byte, addresses strictly rising, no entry equal to what an unlisted address reads as (20_memory.md R70; log 12). -/
abbrev Memory := List Host.Cell

/-- The state of the machine. The fields from `op` to `trace` are the engine's (10_state.md R30, 70_reset_and_hazards.md R350); `cfg` is the configuration (R45) and `mem` the host's memory (20_memory.md R71); the last five are the model's own. -/
structure State where
  cfg : Config
  op : Word
  arg : Args
  lOp : Byte
  lArg : Args
  result : ResultCode
  errCode : ErrCode
  errOp : Byte
  fsm : Fsm
  mseq : List Action
  busWidth : Width
  dmaInc : Bool
  dmaWidth : Width
  rot : BitVec 2
  rotSet : Bool
  initDone : Bool
  csN : Bool
  dc : Bool
  rstN : Bool
  winXs : Half
  winXe : Half
  winYs : Half
  winYe : Half
  fillBuf : Vector Half 64
  fillColor : Half
  src : Source
  rem : Word
  chunk : Half
  dma : DmaState
  trace : List Event
  mem : Memory
  inputs : List Input
  reconfigDraws : List ReconfigOutcome
  xferDraws : List XferOutcome
  freeIx : Nat
  resp : HostResp
  deriving DecidableEq, Repr

/-- The machine right after reset, with a configuration (70_reset_and_hazards.md R350). The trace is not cleared by reset, which appends `Reset`: at the model's start it holds that event (R351; log 16). -/
def State.resetWith (c : Config) : State where
  cfg := c
  op := 0
  arg := ⟨0, 0, 0, 0⟩
  lOp := 0
  lArg := ⟨0, 0, 0, 0⟩
  result := .ok
  errCode := .none
  errOp := 0
  fsm := .idle
  mseq := []
  busWidth := .w8
  dmaInc := true
  dmaWidth := .w8
  rot := 0
  rotSet := false
  initDone := false
  csN := true
  dc := true
  rstN := true
  winXs := 0
  winXe := 0
  winYs := 0
  winYe := 0
  fillBuf := Vector.replicate 64 0
  fillColor := 0
  src := .lit []
  rem := 0
  chunk := 0
  dma := .ready
  trace := [.reset]
  mem := []
  inputs := []
  reconfigDraws := []
  xferDraws := []
  freeIx := 0
  resp := .none

/-- The machine right after reset, with the open parameters it was built with (70_reset_and_hazards.md R350; log 8). -/
def State.reset : State := State.resetWith Config.board

/-- Why the machine stops with a fault. The engine's own faults are no stops: see `ErrCode`. -/
inductive Fault where
  /-- Raised by a host access at an offset at or above 0x40, which is outside the engine and the platform's (30_encoding.md R101). Safe: the model says nothing where the hardware goes on (log 14). -/
  | outsideEngine
  deriving DecidableEq, Repr

/-- Why the model gives a step no meaning. -/
inductive Refusal where
  /-- Raised by `exec` for an operation that has no meaning yet. Safe. -/
  | notModelled (mnemonic : String)
  /-- Raised by a host write to system memory while an operation runs: "the model gives the host no step that writes memory while STATUS.BUSY = 1" (20_memory.md R74, 93_implementation_defined.md U13). Safe (log 15). -/
  | memoryWriteWhileBusy
  deriving DecidableEq, Repr

end Sys2Proof.Machine
end

