-- ==== Sys2Proof/Machine/Ops.lean ====
section
/-! DEFINITION. The named operations over memory, wire, draws and registers that every operation of the engine is made of, taking a fault (60_exceptions.md R315), and reset, the one way out of it (R317). -/

namespace Sys2Proof.Machine

/-! ## System memory (20_memory.md R70-R73) -/

/-- What an address that nothing has written reads as: DESIGN CHOICE (log 12). -/
def Memory.default : Byte := 0

/-- The byte at an address. -/
def Memory.read : Memory → Nat → Byte
  | [], _ => Memory.default
  | (a, b) :: m, x => if x = a then b else Memory.read m x

/-- Write a byte, keeping the canonical form. -/
def Memory.write : Memory → Nat → Byte → Memory
  | [], x, v => if v = Memory.default then [] else [(x, v)]
  | (a, b) :: m, x, v =>
    if x < a then (if v = Memory.default then (a, b) :: m else (x, v) :: (a, b) :: m)
    else if x = a then (if v = Memory.default then m else (x, v) :: m)
    else (a, b) :: Memory.write m x v

/-- The canonical form: addresses at or above `lo`, strictly rising and below 2^32, and no byte an unlisted address reads as. -/
def Memory.wfFrom : Nat → Memory → Bool
  | _, [] => true
  | lo, (a, b) :: m => decide (lo ≤ a) && decide (a < 2 ^ 32) && b != Memory.default && Memory.wfFrom (a + 1) m

/-- The canonical form of a memory. -/
def Memory.wf (m : Memory) : Bool := Memory.wfFrom 0 m

/-- `MemRead(addr, n)` without its admission: one byte, or two in the configured order (20_memory.md R72). Addresses are mod 2^32, and used as given (R87). A 16-bit buffer read at width 8 comes byte by byte in memory order (R78). -/
def memRead (c : Config) (m : Memory) (addr : Word) : Width → Half
  | .w8 => (m.read addr.toNat).setWidth 16
  | .w16 =>
    let b0 := m.read addr.toNat
    let b1 := m.read (addr + 1).toNat
    match c.memByteOrder with
    | .little => b1 ++ b0
    | .big => b0 ++ b1

/-- `MEM_ADMIT(addr, n)`: some region admits reads of this width and holds all their bytes (20_memory.md R73; log 10). -/
def memAdmits (c : Config) (addr : Word) (w : Width) : Bool :=
  c.memAdmit.any fun r =>
    (match w with | .w8 => r.w8 | .w16 => r.w16) &&
    decide (r.base ≤ addr.toNat) && decide (addr.toNat + w.bytes ≤ r.base + r.size)

/-! ## Transfer sources (42_bulk_transfer.md R180) -/

/-- `is_rep(src)` (R180). -/
def Source.isRep : Source → Bool
  | .rep _ => true
  | _ => false

/-- The byte address of frame `j` of a memory source: `(a + j * b) mod 2^32` (R180). -/
def frameAddr (a : Word) (w : Width) (j : Nat) : Word := a + BitVec.ofNat 32 (j * w.bytes)

/-- `word(src, j)` at the current width; none where the read is not admitted (R180, 20_memory.md R73). A literal source is never read past its end: the 0 there is not reached (log 20). -/
def State.word (s : State) (source : Source) (j : Nat) : Option Half :=
  match source with
  | .mem a =>
    if memAdmits s.cfg (frameAddr a s.busWidth j) s.busWidth
    then some (memRead s.cfg s.mem (frameAddr a s.busWidth j) s.busWidth)
    else none
  | .lit l => some (l.getD j 0)
  | .rep v => some v

/-! ## Wire and lines (20_memory.md R79-R81) -/

/-- `emit E` (00_scope.md R10): append to the trace. -/
def State.emit (e : Event) (s : State) : State := { s with trace := s.trace ++ [e] }

/-- `drive_cs(v)` (20_memory.md R81): the event is emitted even when the level is unchanged. -/
def State.driveCs (v : Bool) (s : State) : State := { s with csN := v, trace := s.trace ++ [.csN v] }

/-- `drive_dc(v)` (R81). -/
def State.driveDc (v : Bool) (s : State) : State := { s with dc := v, trace := s.trace ++ [.dc v] }

/-- `drive_rst(v)` (R81). -/
def State.driveRst (v : Bool) (s : State) : State := { s with rstN := v, trace := s.trace ++ [.rstN v] }

/-- `v[w-1:0]`, the value a frame of width `w` carries (R81). -/
def frameValue (w : Width) (v : Half) : Half :=
  match w with
  | .w8 => (v.extractLsb' 0 8).setWidth 16
  | .w16 => v

/-! ## Draws (00_scope.md R10; log 4) -/

/-- The outcome of a reconfiguration (40_bus_mode.md R141): the next of the environment's list, else the free value. -/
def State.drawReconfig (s : State) : ReconfigOutcome × State :=
  match s.reconfigDraws with
  | d :: ds => (d, { s with reconfigDraws := ds })
  | [] => (Config.freeReconfig s.freeIx, { s with freeIx := s.freeIx + 1 })

/-- The outcome of a frame (41_protocol.md R166, 42_bulk_transfer.md R186): the next of the environment's list, else the free value. -/
def State.drawXfer (s : State) : XferOutcome × State :=
  match s.xferDraws with
  | d :: ds => (d, { s with xferDraws := ds })
  | [] => (Config.freeXfer s.freeIx, { s with freeIx := s.freeIx + 1 })

/-! ## Faults, results and reset -/

/-- Fault entry with the operation it is recorded against (60_exceptions.md R315): nothing else changes. -/
def State.raiseAt (f : ErrCode) (o : Byte) (s : State) : State :=
  { s with errCode := f, errOp := o, result := .fault, mseq := [], fsm := .faulted, dma := .ready }

/-- `raise F` by the sequencer or the DMA channel: `ERR_OP` <- `L_OP` (R315). -/
def State.raise (f : ErrCode) (s : State) : State := s.raiseAt f s.lOp

/-- `finish(r)` of the host-issued operation (60_exceptions.md R312): `ERR` keeps its value. -/
def State.finish (r : ResultCode) (s : State) : State := { s with result := r, mseq := [], fsm := .idle }

/-- The reset input (70_reset_and_hazards.md R351): append `Reset`, every row of R350 to its reset value. What is not the engine's (configuration, memory, the outside world's plan and draws, the bus's last answer) stays (log 25). -/
def State.resetEngine (s : State) : State :=
  { State.resetWith s.cfg with
    trace := s.trace ++ [.reset]
    mem := s.mem
    inputs := s.inputs
    reconfigDraws := s.reconfigDraws
    xferDraws := s.xferDraws
    freeIx := s.freeIx
    resp := s.resp }

/-! ## Sending and reconfiguring: one primitive a step (00_scope.md R12) -/

/-- Put actions before the rest of the micro-sequence. -/
def State.pushActions (as : List Action) (s : State) : State := { s with mseq := as ++ s.mseq }

/-- `send_blocking(v)` (41_protocol.md R166): the frame now, its draw as the next action. -/
def State.send (v : Half) (s : State) : State :=
  (s.pushActions [.drawXfer]).emit (.frame s.csN s.dc s.busWidth (frameValue s.busWidth v))

/-- The draw of a blocking frame (41_protocol.md R166, 42_bulk_transfer.md R190): FAIL raises, HANG leaves the sequencer with no further step. -/
def State.frameOutcome (s : State) : State :=
  let (d, t) := s.drawXfer
  match d with
  | .ok => t
  | .fail => t.raise .transferFault
  | .hang => t.pushActions [.hung]

/-- SET_WORD_WIDTH (40_bus_mode.md R140): compare, and on a change set the register; the event and the draw are the next two actions. -/
def State.setWidth (w : Width) (s : State) : State :=
  if s.busWidth = w then s else { s with busWidth := w }.pushActions [.emitWidth w, .drawReconfig]

/-- SET_DMA_MODE (40_bus_mode.md R142): NO_DMA without DMA; compare both, and on a change set the first register; the second, the event and the draw are the next three actions. -/
def State.setDmaMode (inc : Bool) (w : Width) (s : State) : State :=
  if s.cfg.dmaEnabled = false then s.raise .noDma
  else if s.dmaInc = inc ∧ s.dmaWidth = w then s
  else { s with dmaInc := inc }.pushActions [.setDmaWidth w, .emitDmaCfg inc w, .drawReconfig]

/-- The draw of a reconfiguration: "`FAIL` raises `RECONFIG_FAULT` at once" (40_bus_mode.md R141). -/
def State.reconfigOutcome (s : State) : State :=
  let (d, t) := s.drawReconfig
  match d with
  | .ok => t
  | .fail => t.raise .reconfigFault

/-! ## Starting an operation (60_exceptions.md R310) -/

/-- The outcome of one step. -/
abbrev Outcome := Host.Outcome State Fault Refusal

/-- Copy the request into `L_OP` and `L_ARG` (10_state.md R33). -/
def State.latch (s : State) : State := { s with lOp := s.op.extractLsb' 0 8, lArg := s.arg }

/-- Start a micro-sequence: `mseq` <- it, `fsm` <- `RUN` (60_exceptions.md R310). -/
def State.begin (as : List Action) (s : State) : Outcome := .next { s with mseq := as, fsm := .run }

/-- What the checks of an operation lead to (60_exceptions.md R316): a fault, an end without wire events, or its actions. -/
inductive Plan where
  | faults (f : ErrCode)
  | ends (r : ResultCode)
  | runs (as : List Action)
  deriving DecidableEq, Repr

/-- The micro-sequence of a host-issued operation: its last action is `finish` or `raise` (10_state.md R37). -/
def Plan.asRequest : Plan → List Action
  | .faults f => [.raise f]
  | .ends r => [.finish r]
  | .runs as => as ++ [.finish .ok]

/-- The actions of a called operation: its fault is a fault of the caller, its rejection ends it alone (00_scope.md R10). -/
def Plan.asCall : Plan → List Action
  | .faults f => [.raise f]
  | .ends _ => []
  | .runs as => as

end Sys2Proof.Machine
end

