-- ==== Sys2Proof/Machine/Operands.lean ====
section
/-! DEFINITION. Operand assembly (30_encoding.md R106) and the conditions on operands that the checks of the operations use. Sums are exact natural numbers (10_state.md R39). -/

namespace Sys2Proof.Machine

/-- W16 selects a width: 0 means 8 bits, 1 means 16 bits (R106). -/
def widthOf (w16 : Bool) : Width := if w16 then .w16 else .w8

/-- `bounds(s, e)`: four bytes, start before end, each big-endian (43_addressing.md R211). -/
def bounds (s e : Half) : List Byte :=
  [s.extractLsb' 8 8, s.extractLsb' 0 8, e.extractLsb' 8 8, e.extractLsb' 0 8]

/-- The two bytes of a pixel, most significant first (20_memory.md R76, 44_pixel_stream.md R248). -/
def pixelBytes (c : Half) : List Byte := [c.extractLsb' 8 8, c.extractLsb' 0 8]

/-- A literal source of bytes: `Lit(list)` with 8-bit frame values (42_bulk_transfer.md R180). -/
def byteSource (l : List Byte) : Source := .lit (l.map (·.setWidth 16))

/-- A length as `LEN` holds it (00_scope.md R8). -/
def lengthOf (n : Nat) : Word := BitVec.ofNat 32 n

/-- An odd address (20_memory.md R75). -/
def isOdd (a : Word) : Bool := a.getLsbD 0

/-- The alignment check of WRITE_DATA and TRANSMIT: width 16, LEN at least 1, ADDR odd (42_bulk_transfer.md R181). -/
def bufferMisaligned (w : Width) (addr len : Word) : Bool :=
  w == .w16 && decide (1 ≤ len.toNat) && isOdd addr

/-- Start beyond end on an axis (44_pixel_stream.md R244). -/
def windowReversed (x0 y0 x1 y1 : Half) : Bool :=
  decide (x1.toNat < x0.toNat) || decide (y1.toNat < y0.toNat)

/-- A point inside `[0, W) × [0, H)` (43_addressing.md R213). -/
def pointInside (c : Config) (x y : Half) : Bool :=
  decide (x.toNat < c.geo.w.toNat) && decide (y.toNat < c.geo.h.toNat)

/-- `X0 ≤ X1 < W` and `Y0 ≤ Y1 < H` (43_addressing.md R210). -/
def windowValid (c : Config) (x0 y0 x1 y1 : Half) : Bool :=
  !windowReversed x0 y0 x1 y1 && pointInside c x1 y1

/-- `(X1 - X0 + 1) * (Y1 - Y0 + 1)` (44_pixel_stream.md R244). -/
def rectCount (x0 y0 x1 y1 : Half) : Nat :=
  (x1.toNat - x0.toNat + 1) * (y1.toNat - y0.toNat + 1)

/-- `X + BW - 1 < W` and `Y + BH - 1 < H`, computed without wrap-around (44_pixel_stream.md R250). -/
def imageInside (c : Config) (x y bw bh : Half) : Bool :=
  decide (x.toNat + bw.toNat - 1 < c.geo.w.toNat) && decide (y.toNat + bh.toNat - 1 < c.geo.h.toNat)

/-- `X + BW - 1` as a coordinate; it fits once the bounds check has passed (10_state.md R39). -/
def lastCoord (x bw : Half) : Half := BitVec.ofNat 16 (x.toNat + bw.toNat - 1)

/-- The smaller of two coordinates (44_pixel_stream.md R246). -/
def minHalf (a b : Half) : Half := if a.toNat ≤ b.toNat then a else b

/-- The larger of two coordinates (R246). -/
def maxHalf (a b : Half) : Half := if a.toNat ≤ b.toNat then b else a

end Sys2Proof.Machine
end

