-- ==== Sys2Proof/Machine/BusMode.lean ====
section
/-! DEFINITION. Bus Mode Controller: SET_WORD_WIDTH and SET_DMA_MODE (40_bus_mode.md). -/

namespace Sys2Proof.Machine

/-- The checks and actions of a host-issued SET_WORD_WIDTH (R140). -/
def planSetWordWidth (w16 : Bool) (rsvd : BitVec 31) : Plan :=
  if rsvd ≠ 0 then .faults .reservedOperand
  else .runs [.setWidth (widthOf w16)]

/-- The checks, in the order of 60_exceptions.md R316, and actions of a host-issued SET_DMA_MODE (R142). -/
def planSetDmaMode (c : Config) (w16 inc : Bool) (rsvd : BitVec 30) : Plan :=
  if c.dmaEnabled = false then .faults .noDma
  else if rsvd ≠ 0 then .faults .reservedOperand
  else .runs [.setDmaMode inc (widthOf w16)]

/-- SET_WORD_WIDTH (R140). -/
def execSetWordWidth (w16 : Bool) (rsvd : BitVec 31) (s : State) : Outcome :=
  s.begin (planSetWordWidth w16 rsvd).asRequest

/-- SET_DMA_MODE (R142). -/
def execSetDmaMode (w16 inc : Bool) (rsvd : BitVec 30) (s : State) : Outcome :=
  s.begin (planSetDmaMode s.cfg w16 inc rsvd).asRequest

end Sys2Proof.Machine
end

