-- ==== Sys2Proof/Machine/Protocol.lean ====
section
/-! DEFINITION. Command/Data Protocol Layer: WRITE_COMMAND, WRITE_SMALL_DATA and WRITE_DATA (41_protocol.md R160-R169). The pairing of commands and data is not enforced (R168). -/

namespace Sys2Proof.Machine

/-- `call WRITE_COMMAND(b)` (R160). -/
def callWriteCommand (b : Byte) : List Action :=
  [.setWidth .w8, .driveCs false, .driveDc false, .sendByte b, .driveCs true]

/-- `call WRITE_SMALL_DATA(b)` (R162). -/
def callWriteSmallData (b : Byte) : List Action :=
  [.setWidth .w8, .driveCs false, .driveDc true, .sendByte b, .driveCs true]

/-- `call WRITE_DATA(src, len)` (R164). -/
def callWriteData (source : Source) (len : Word) : List Action :=
  [.driveCs false, .driveDc true, .loadTransfer source len, .driveCs true]

/-- The checks and actions of a host-issued WRITE_COMMAND (R160). -/
def planWriteCommand (b : Byte) (rsvd : BitVec 24) : Plan :=
  if rsvd ≠ 0 then .faults .reservedOperand
  else .runs (callWriteCommand b)

/-- The checks and actions of a host-issued WRITE_SMALL_DATA (R162). -/
def planWriteSmallData (b : Byte) (rsvd : BitVec 24) : Plan :=
  if rsvd ≠ 0 then .faults .reservedOperand
  else .runs (callWriteSmallData b)

/-- The checks and actions of a host-issued WRITE_DATA at the current width (R164, 42_bulk_transfer.md R181). -/
def planWriteData (w : Width) (addr len : Word) : Plan :=
  if bufferMisaligned w addr len then .faults .misaligned
  else .runs (callWriteData (.mem addr) len)

/-- WRITE_COMMAND (R160). -/
def execWriteCommand (b : Byte) (rsvd : BitVec 24) (s : State) : Outcome :=
  s.begin (planWriteCommand b rsvd).asRequest

/-- WRITE_SMALL_DATA (R162). -/
def execWriteSmallData (b : Byte) (rsvd : BitVec 24) (s : State) : Outcome :=
  s.begin (planWriteSmallData b rsvd).asRequest

/-- WRITE_DATA (R164). -/
def execWriteData (addr len : Word) (s : State) : Outcome :=
  s.begin (planWriteData s.busWidth addr len).asRequest

end Sys2Proof.Machine
end

