-- ==== Sys2Proof/Machine/Addressing.lean ====
section
/-! DEFINITION. Addressing and geometry: SET_ADDRESS_WINDOW and SET_ROTATION (43_addressing.md). -/

namespace Sys2Proof.Machine

/-- A literal byte list as one WRITE_DATA (R210). -/
def callWriteBytes (l : List Byte) : List Action := callWriteData (byteSource l) (lengthOf l.length)

/-- The micro-sequence of SET_ADDRESS_WINDOW past its checks (R210). -/
def windowActions (c : Config) (x0 y0 x1 y1 : Half) : List Action :=
  let xs := x0 + c.geo.sx
  let xe := x1 + c.geo.sx
  let ys := y0 + c.geo.sy
  let ye := y1 + c.geo.sy
  [.setWinXs xs, .setWinXe xe, .setWinYs ys, .setWinYe ye] ++
    callWriteCommand c.cmdCaset ++ callWriteBytes (bounds xs xe) ++
    callWriteCommand c.cmdRaset ++ callWriteBytes (bounds ys ye) ++
    callWriteCommand c.cmdRamwr

/-- The operand check of SET_ADDRESS_WINDOW and its actions (R210). -/
def planWindow (c : Config) (x0 y0 x1 y1 : Half) : Plan :=
  if windowValid c x0 y0 x1 y1 then .runs (windowActions c x0 y0 x1 y1) else .faults .invalidWindow

/-- `call SET_ADDRESS_WINDOW`: its checks are done for a call too (R210). DESIGN CHOICE: NOT_READY is checked in a step of its own; the operand check takes a step only where it raises (log 29). -/
def callWindow (c : Config) (x0 y0 x1 y1 : Half) : List Action :=
  .checkReady :: (planWindow c x0 y0 x1 y1).asCall

/-- A host-issued SET_ADDRESS_WINDOW: NOT_READY, then the operand check (60_exceptions.md R316). -/
def planSetAddressWindow (c : Config) (rotSet : Bool) (x0 y0 x1 y1 : Half) : Plan :=
  if rotSet = false then .faults .notReady else planWindow c x0 y0 x1 y1

/-- The micro-sequence of SET_ROTATION past its checks (R214). -/
def rotationActions (c : Config) (m : BitVec 2) : List Action :=
  callWriteCommand c.cmdMadctl ++ callWriteSmallData (c.rotPattern m) ++ [.setRot m, .setRotSet]

/-- The mode check of SET_ROTATION and its actions (R214). -/
def planRotation (c : Config) (m : BitVec 2) : Plan :=
  if m ≠ c.rotationCfg then .faults .rotationMismatch else .runs (rotationActions c m)

/-- A host-issued SET_ROTATION (R214). -/
def planSetRotation (c : Config) (m : BitVec 2) (rsvd : BitVec 30) : Plan :=
  if rsvd ≠ 0 then .faults .reservedOperand else planRotation c m

/-- SET_ADDRESS_WINDOW (R210). -/
def execSetAddressWindow (x0 y0 x1 y1 : Half) (s : State) : Outcome :=
  s.begin (planSetAddressWindow s.cfg s.rotSet x0 y0 x1 y1).asRequest

/-- SET_ROTATION (R214). -/
def execSetRotation (m : BitVec 2) (rsvd : BitVec 30) (s : State) : Outcome :=
  s.begin (planSetRotation s.cfg m rsvd).asRequest

end Sys2Proof.Machine
end

