-- ==== Sys2Proof/Machine/Bulk.lean ====
section
/-! DEFINITION. Bulk Transfer Engine: TRANSMIT and its chunk controller (42_bulk_transfer.md R180-R187). -/

namespace Sys2Proof.Machine

/-- The checks and actions of a host-issued TRANSMIT at the current width (R183, R181). -/
def planTransmit (w : Width) (addr len : Word) : Plan :=
  if bufferMisaligned w addr len then .faults .misaligned
  else .runs [.loadTransfer (.mem addr) len]

/-- TRANSMIT (R183). -/
def execTransmit (addr len : Word) (s : State) : Outcome :=
  s.begin (planTransmit s.busWidth addr len).asRequest

/-- `chunk <- min(rem, MAX_CHUNK)` (R183). -/
def chunkSize (rem : Word) : Nat := min rem.toNat Config.maxChunk

/-- Whether a chunk of `n` frames goes by DMA (R184). -/
def goesByDma (c : Config) (n : Nat) : Bool := c.dmaEnabled && decide (c.dmaMinSize ≤ n)

/-- The frame offset after a chunk: a fixed source does not advance (R182). -/
def advance (source : Source) (off n : Nat) : Nat := if source.isRep then off else off + n

/-- The start of TRANSMIT (R183): `src`, then `rem <- LEN` as the next action. -/
def State.loadTransfer (source : Source) (len : Word) (s : State) : State :=
  { s with src := source }.pushActions [.setRem len]

/-- `rem <- LEN` (R183); the loop body runs if `rem > 0`. -/
def State.setRem (len : Word) (s : State) : State :=
  { s with rem := len }.pushActions (if len = 0 then [] else [.startChunk 0])

/-- The body of the loop, up to its end (R183, R184): before a DMA chunk the DMA mode is set to match the source and the width (40_bus_mode.md R144). -/
def State.startChunk (off : Nat) (s : State) : State :=
  let n := chunkSize s.rem
  { s with chunk := BitVec.ofNat 16 n }.pushActions <|
    if goesByDma s.cfg n then
      [.setDmaMode (!s.src.isRep) s.busWidth, .emitChunk .dma n, .issueDma off n, .endChunk off]
    else
      [.emitChunk .blk n, .sendChunk off n, .endChunk off]

/-- One blocking frame of a chunk: `send_blocking(word(src, off + i))` (R183); a read that is not admitted raises BUS_ERROR before the frame (20_memory.md R73). -/
def State.sendChunk (off : Nat) : Nat → State → State
  | 0, s => s
  | n + 1, s =>
    match s.word s.src off with
    | none => s.raise .busError
    | some v => (s.pushActions (if n = 0 then [] else [.sendChunk (off + 1) n])).send v

/-- `issue_dma(src, off, n)` (R185). -/
def State.issueDma (off n : Nat) (s : State) : State :=
  { s with dma := .active s.src off n, fsm := .waitDma }

/-- The end of the loop body (R182, R183): `rem <- rem - chunk`, and again if `rem > 0`. -/
def State.endChunk (off : Nat) (s : State) : State :=
  let left := s.rem - BitVec.ofNat 32 s.chunk.toNat
  { s with rem := left }.pushActions
    (if left = 0 then [] else [.startChunk (advance s.src off s.chunk.toNat)])

/-- One step of the DMA channel (R186): none in READY and HUNG. -/
def State.dmaStep (s : State) : Option State :=
  match s.dma with
  | .ready => none
  | .hung => none
  | .active _ _ 0 => some { s with dma := .ready }
  | .active source k (n + 1) =>
    match s.word source k with
    | none => some (s.raise .busError)
    | some v =>
      let (d, t) := (s.emit (.frame s.csN s.dc s.busWidth (frameValue s.busWidth v))).drawXfer
      match d with
      | .ok => some { t with dma := .active source (if source.isRep then k else k + 1) n }
      | .fail => some (t.raise .transferFault)
      | .hang => some { t with dma := .hung }

end Sys2Proof.Machine
end

