-- ==== Sys2Proof/Machine/PixelStream.lean ====
section
/-! DEFINITION. RGB565 pixel-stream formatter: FILL_PIXELS, FILL_RECT, DRAW_LINE, DRAW_PIXEL and DRAW_IMAGE (44_pixel_stream.md). -/

namespace Sys2Proof.Machine

/-- The DMA path of FILL_PIXELS (R242): one bulk transfer of the colour register. -/
def fillByDma (count : Nat) (color : Half) : List Action :=
  [.setWidth .w16, .setDmaMode false .w16, .setFillColor color, .driveCs false, .driveDc true,
   .loadFill (lengthOf count), .driveCs true]

/-- The buffer path of FILL_PIXELS (R242): 64 entries, then blocks of up to 64 pixels. -/
def fillByBuffer (count : Nat) (color : Half) : List Action :=
  (List.finRange 64).map (fun i => .fillEntry i color) ++ [.setWidth .w16] ++
    (if count = 0 then [] else [.fillBlocks count])

/-- `call FILL_PIXELS(count, color)` (R242). -/
def callFillPixels (c : Config) (count : Nat) (color : Half) : List Action :=
  if goesByDma c count then fillByDma count color else fillByBuffer count color

/-- One block of the buffer path (R242): `call WRITE_DATA(Lit(fill_buf[0 .. n-1]), n)`, whose first action is done, and the blocks after it. -/
def State.fillBlocks (left : Nat) (s : State) : State :=
  let n := min left Config.fillBufLen
  (s.pushActions
    ([.driveDc true, .loadTransfer (.lit (s.fillBuf.toList.take n)) (lengthOf n), .driveCs true] ++
      (if left - n = 0 then [] else [.fillBlocks (left - n)]))).driveCs false

/-- A host-issued FILL_PIXELS (R242): no NOT_READY and no window check. -/
def planFillPixels (c : Config) (count : Word) (color rsvd : Half) : Plan :=
  if rsvd ≠ 0 then .faults .reservedOperand else .runs (callFillPixels c count.toNat color)

/-- The operand checks of FILL_RECT, in order, and its actions (R244). -/
def planRect (c : Config) (x0 y0 x1 y1 color : Half) : Plan :=
  if windowReversed x0 y0 x1 y1 then .faults .invalidWindow
  else if pointInside c x1 y1 = false then .ends .rejectBounds
  else .runs (callWindow c x0 y0 x1 y1 ++ callFillPixels c (rectCount x0 y0 x1 y1) color)

/-- `call FILL_RECT` (R244): its checks are done for a call too. DESIGN CHOICE: NOT_READY is checked in a step of its own; the operand checks take a step only where they raise (log 29). -/
def callFillRect (c : Config) (x0 y0 x1 y1 color : Half) : List Action :=
  .checkReady :: (planRect c x0 y0 x1 y1 color).asCall

/-- A host-issued FILL_RECT (R244). -/
def planFillRect (c : Config) (rotSet : Bool) (x0 y0 x1 y1 color rsvd : Half) : Plan :=
  if rsvd ≠ 0 then .faults .reservedOperand
  else if rotSet = false then .faults .notReady
  else planRect c x0 y0 x1 y1 color

/-- The cases of DRAW_LINE (R246): horizontal, vertical, or not handled. Its result is FILL_RECT's. -/
def planLine (c : Config) (x0 y0 x1 y1 color : Half) : Plan :=
  if y0 = y1 then planRect c (minHalf x0 x1) y0 (maxHalf x0 x1) y1 color
  else if x0 = x1 then planRect c x0 (minHalf y0 y1) x1 (maxHalf y0 y1) color
  else .ends .notHandled

/-- A host-issued DRAW_LINE (R246). -/
def planDrawLine (c : Config) (rotSet : Bool) (x0 y0 x1 y1 color rsvd : Half) : Plan :=
  if rsvd ≠ 0 then .faults .reservedOperand
  else if rotSet = false then .faults .notReady
  else planLine c x0 y0 x1 y1 color

/-- A host-issued DRAW_PIXEL (R248). -/
def planDrawPixel (c : Config) (rotSet : Bool) (x y color rsvd : Half) : Plan :=
  if rsvd ≠ 0 then .faults .reservedOperand
  else if rotSet = false then .faults .notReady
  else if pointInside c x y = false then .ends .rejectBounds
  else .runs (callWindow c x y x y ++ callWriteBytes (pixelBytes color))

/-- The micro-sequence of DRAW_IMAGE past its checks (R250). -/
def imageActions (c : Config) (x y bw bh : Half) (addr : Word) : List Action :=
  callWindow c x y (lastCoord x bw) (lastCoord y bh) ++ [.setWidth .w16] ++
    (if c.dmaEnabled then [.setDmaMode true .w16] else []) ++
    callWriteData (.mem addr) (lengthOf (bw.toNat * bh.toNat))

/-- A host-issued DRAW_IMAGE: its checks, in order (R250, 60_exceptions.md R316). -/
def planDrawImage (c : Config) (rotSet : Bool) (x y bw bh : Half) (bpp : Byte) (addr : Word)
    (rsvd : BitVec 24) : Plan :=
  if rsvd ≠ 0 then .faults .reservedOperand
  else if rotSet = false then .faults .notReady
  else if bw = 0 ∨ bh = 0 then .faults .emptyBitmap
  else if imageInside c x y bw bh = false then .ends .rejectBounds
  else if bpp ≠ 16 then .ends .rejectFormat
  else if isOdd addr then .faults .misaligned
  else .runs (imageActions c x y bw bh addr)

/-- FILL_PIXELS (R242). -/
def execFillPixels (count : Word) (color rsvd : Half) (s : State) : Outcome :=
  s.begin (planFillPixels s.cfg count color rsvd).asRequest

/-- FILL_RECT (R244). -/
def execFillRect (x0 y0 x1 y1 color rsvd : Half) (s : State) : Outcome :=
  s.begin (planFillRect s.cfg s.rotSet x0 y0 x1 y1 color rsvd).asRequest

/-- DRAW_LINE (R246). -/
def execDrawLine (x0 y0 x1 y1 color rsvd : Half) (s : State) : Outcome :=
  s.begin (planDrawLine s.cfg s.rotSet x0 y0 x1 y1 color rsvd).asRequest

/-- DRAW_PIXEL (R248). -/
def execDrawPixel (x y color rsvd : Half) (s : State) : Outcome :=
  s.begin (planDrawPixel s.cfg s.rotSet x y color rsvd).asRequest

/-- DRAW_IMAGE (R250). -/
def execDrawImage (x y bw bh : Half) (bpp : Byte) (addr : Word) (rsvd : BitVec 24) (s : State) : Outcome :=
  s.begin (planDrawImage s.cfg s.rotSet x y bw bh bpp addr rsvd).asRequest

end Sys2Proof.Machine
end

