-- ==== Sys2Proof/Machine/InitSeq.lean ====
section
/-! DEFINITION. Initialization Sequencer: INIT (45_init.md R290). -/

namespace Sys2Proof.Machine

/-- Step 1 (R291): deselect, reset active for at least 1 ms, released, hold at least 120 ms. -/
def resetPulse : List Action :=
  [.driveCs true, .driveRst false, .delay 1, .driveRst true, .delay 120]

/-- One entry of an initialization table: one command and at most one data write (R293). -/
def tableEntryActions (e : Byte × List Byte) : List Action :=
  callWriteCommand e.1 ++ (if e.2.length = 0 then [] else callWriteBytes e.2)

/-- The entries of an initialization table in order (R290). -/
def tableActions (t : List (Byte × List Byte)) : List Action := t.flatMap tableEntryActions

/-- The micro-sequence of INIT past its check (R290); step 2 has no engine action (R292), and no wait follows sleep-out (R295). -/
def initActions (c : Config) : List Action :=
  resetPulse ++ tableActions c.initTableA ++ (planRotation c c.rotationCfg).asCall ++
    tableActions c.initTableB ++
    callWriteCommand c.cmdInvon ++ callWriteCommand c.cmdSlpout ++ callWriteCommand c.cmdNoron ++
    callFillRect c 0 0 (c.geo.w - 1) (c.geo.h - 1) c.bgColor ++
    callWriteCommand c.cmdDispon ++ [.setInitDone]

/-- A host-issued INIT (R290). -/
def planInit (c : Config) (initDone : Bool) : Plan :=
  if initDone then .faults .initTwice else .runs (initActions c)

/-- INIT (R290). -/
def execInit (s : State) : Outcome := s.begin (planInit s.cfg s.initDone).asRequest

end Sys2Proof.Machine
end

