-- ==== Sys2Proof/Machine/Sequencer.lean ====
section
/-! DEFINITION. The agents' steps: the sequencer, one primitive action a step (10_state.md R37), and the turn of the agent that has a step (60_exceptions.md R319). -/

namespace Sys2Proof.Machine

/-- Execute one action; it has been taken off `mseq` (R37). DESIGN CHOICE: `checkReady` is a step that does no primitive where the check passes (log 29). -/
def doAction (a : Action) (s : State) : State :=
  match a with
  | .driveCs v => s.driveCs v
  | .driveDc v => s.driveDc v
  | .driveRst v => s.driveRst v
  | .delay ms => s.emit (.delay ms)
  | .setWidth w => s.setWidth w
  | .emitWidth w => s.emit (.spiWidth w)
  | .setDmaMode inc w => s.setDmaMode inc w
  | .setDmaWidth w => { s with dmaWidth := w }
  | .emitDmaCfg inc w => s.emit (.dmaCfg inc w)
  | .drawReconfig => s.reconfigOutcome
  | .sendByte b => s.send (b.setWidth 16)
  | .drawXfer => s.frameOutcome
  | .loadTransfer source len => s.loadTransfer source len
  | .loadFill len => s.loadTransfer (.rep s.fillColor) len
  | .setRem len => s.setRem len
  | .startChunk off => s.startChunk off
  | .emitChunk t n => s.emit (.chunk t n)
  | .sendChunk off n => s.sendChunk off n
  | .issueDma off n => s.issueDma off n
  | .endChunk off => s.endChunk off
  | .setWinXs v => { s with winXs := v }
  | .setWinXe v => { s with winXe := v }
  | .setWinYs v => { s with winYs := v }
  | .setWinYe v => { s with winYe := v }
  | .setRot m => { s with rot := m }
  | .setRotSet => { s with rotSet := true }
  | .setInitDone => { s with initDone := true }
  | .setFillColor c => { s with fillColor := c }
  | .fillEntry i c => { s with fillBuf := s.fillBuf.set i c }
  | .fillBlocks left => s.fillBlocks left
  | .checkReady => if s.rotSet then s else s.raise .notReady
  | .finish r => s.finish r
  | .raise f => s.raise f
  | .hung => s.pushActions [.hung]

/-- One step of the sequencer (R37): none in IDLE and FAULTED, in WAIT_DMA until the channel is ready, and after a HANG (41_protocol.md R166). -/
def State.seqStep (s : State) : Option State :=
  match s.fsm with
  | .idle => none
  | .faulted => none
  | .waitDma => match s.dma with
    | .ready => some { s with fsm := .run }
    | .active _ _ _ => none
    | .hung => none
  | .run => match s.mseq with
    | [] => none
    | .hung :: _ => none
    | a :: rest => some (doAction a { s with mseq := rest })

/-- The agent that has a step takes it; with none the state stays (60_exceptions.md R319). -/
def State.engineStep (s : State) : State :=
  match s.seqStep with
  | some t => t
  | none => match s.dmaStep with
    | some t => t
    | none => s

/-- `n` turns of the agents, with no host access, reset or stall between them: the DMA channel is fair in such a run (70_reset_and_hazards.md R371). -/
def State.engineRun : Nat → State → State
  | 0, s => s
  | n + 1, s => State.engineRun n s.engineStep

/-- The turn of the agents while the plan names none: the sequencer takes its step, and a DMA channel that can step does so or not by the free value, for it is not assumed fair (42_bulk_transfer.md R187; log 3). -/
def State.idleTurn (s : State) : State :=
  match s.seqStep with
  | some t => t
  | none => match s.dmaStep with
    | none => s
    | some _ =>
      let t := { s with freeIx := s.freeIx + 1 }
      if Config.freeDmaTurn s.freeIx then t.engineStep else t

end Sys2Proof.Machine
end

