-- ==== Sys2Proof/Machine/Dispatch.lean ====
section
/-! DEFINITION. Dispatch: one arm per operation, one direct call of its meaning. -/

namespace Sys2Proof.Machine

def exec (i : Instr) (s : State) : Host.Outcome State Fault Refusal :=
  match i with
  | .setWordWidth w16 rsvd => Sys2Proof.Machine.execSetWordWidth w16 rsvd s
  | .setDmaMode w16 inc rsvd => Sys2Proof.Machine.execSetDmaMode w16 inc rsvd s
  | .writeCommand b rsvd => Sys2Proof.Machine.execWriteCommand b rsvd s
  | .writeSmallData b rsvd => Sys2Proof.Machine.execWriteSmallData b rsvd s
  | .writeData addr len => Sys2Proof.Machine.execWriteData addr len s
  | .transmit addr len => Sys2Proof.Machine.execTransmit addr len s
  | .setAddressWindow x0 y0 x1 y1 => Sys2Proof.Machine.execSetAddressWindow x0 y0 x1 y1 s
  | .setRotation m rsvd => Sys2Proof.Machine.execSetRotation m rsvd s
  | .fillPixels count color rsvd => Sys2Proof.Machine.execFillPixels count color rsvd s
  | .fillRect x0 y0 x1 y1 color rsvd => Sys2Proof.Machine.execFillRect x0 y0 x1 y1 color rsvd s
  | .drawLine x0 y0 x1 y1 color rsvd => Sys2Proof.Machine.execDrawLine x0 y0 x1 y1 color rsvd s
  | .drawPixel x y color rsvd => Sys2Proof.Machine.execDrawPixel x y color rsvd s
  | .drawImage x y bw bh bpp addr rsvd => Sys2Proof.Machine.execDrawImage x y bw bh bpp addr rsvd s
  | .init => Sys2Proof.Machine.execInit s

end Sys2Proof.Machine
end

