-- ==== Sys2Proof/Machine/Flags.lean ====
section
/-! DEFINITION. The status, error and mode words the host reads (10_state.md R34, R35; 30_encoding.md R104) and their codes (60_exceptions.md R311, R314). The engine has no condition flags (10_state.md R38). -/

namespace Sys2Proof.Machine

/-- The 4-bit result code (R311). -/
def ResultCode.code : ResultCode → BitVec 4
  | .ok => 0x0
  | .notHandled => 0x1
  | .rejectBounds => 0x2
  | .rejectFormat => 0x3
  | .fault => 0xF

/-- The 8-bit fault code (R314). -/
def ErrCode.code : ErrCode → Byte
  | .none => 0x00
  | .illegalOp => 0x01
  | .reservedOperand => 0x02
  | .noDma => 0x03
  | .notReady => 0x04
  | .initTwice => 0x05
  | .invalidWindow => 0x06
  | .rotationMismatch => 0x07
  | .emptyBitmap => 0x08
  | .misaligned => 0x09
  | .busError => 0x0A
  | .reconfigFault => 0x0B
  | .transferFault => 0x0C
  | .reentrant => 0x0D

/-- `STATUS.BUSY`: exactly while the sequencer is in RUN or WAIT_DMA (10_state.md R34). -/
def State.busy (s : State) : Bool :=
  match s.fsm with
  | .run => true
  | .waitDma => true
  | .idle => false
  | .faulted => false

/-- `STATUS.FAULTED`: exactly while the sequencer is in FAULTED (R34). -/
def State.isFaulted (s : State) : Bool := decide (s.fsm = .faulted)

/-- A width bit: 1 iff the width is 16 (30_encoding.md R104, `MODE`). -/
def widthBit (w : Width) : Bool := decide (w = .w16)

/-- `STATUS` (R104): [0] BUSY, [1] FAULTED, [2] ROT_SET, [3] INIT_DONE, [7:4] RESULT. -/
def State.statusWord (s : State) : Word :=
  0#24 ++ s.result.code ++ BitVec.ofBool s.initDone ++ BitVec.ofBool s.rotSet ++
    BitVec.ofBool s.isFaulted ++ BitVec.ofBool s.busy

/-- `ERR` (R104): [7:0] ERR_CODE, [15:8] ERR_OP. -/
def State.errWord (s : State) : Word := 0#16 ++ s.errOp ++ s.errCode.code

/-- `MODE` (R104): [0] BUS_W16, [1] DMA_INC, [2] DMA_W16, [3] DMA_PRESENT, [5:4] ROT; bits [2:1] read 0 without DMA (10_state.md R41). -/
def State.modeWord (s : State) : Word :=
  0#26 ++ s.rot ++ BitVec.ofBool s.cfg.dmaEnabled ++
    BitVec.ofBool (s.cfg.dmaEnabled && widthBit s.dmaWidth) ++
    BitVec.ofBool (s.cfg.dmaEnabled && s.dmaInc) ++ BitVec.ofBool (widthBit s.busWidth)

/-- `GEOM` (R104): [15:0] W, [31:16] H. -/
def State.geomWord (s : State) : Word := s.cfg.geo.h ++ s.cfg.geo.w

/-- `SHIFT` (R104): [15:0] SX, [31:16] SY. -/
def State.shiftWord (s : State) : Word := s.cfg.geo.sy ++ s.cfg.geo.sx

/-- `CONFIG` (R104): [0] DMA_ENABLED, [31:16] DMA_MIN_SIZE. -/
def State.configWord (s : State) : Word :=
  BitVec.ofNat 16 s.cfg.dmaMinSize ++ 0#15 ++ BitVec.ofBool s.cfg.dmaEnabled

/-- `WIN_X` (R104): [15:0] win_xs, [31:16] win_xe. -/
def State.winXWord (s : State) : Word := s.winXe ++ s.winXs

/-- `WIN_Y` (R104): [15:0] win_ys, [31:16] win_ye. -/
def State.winYWord (s : State) : Word := s.winYe ++ s.winYs

end Sys2Proof.Machine
end

