-- ==== Sys2Proof/Machine/HostIf.lean ====
section
/-! DEFINITION. The host interface: the register map (30_encoding.md R100-R104), the start of a request (60_exceptions.md R310), and the assembler's register writes (30_encoding.md R112, R113). -/

namespace Sys2Proof.Machine

/-- What a host read of an offset returns (R104); a reserved offset reads 0 (R101). -/
def State.readReg (s : State) (off : Nat) : Word :=
  match off with
  | 0x00 => s.op
  | 0x04 => s.arg.a0
  | 0x08 => s.arg.a1
  | 0x0C => s.arg.a2
  | 0x10 => s.arg.a3
  | 0x14 => s.statusWord
  | 0x18 => s.errWord
  | 0x1C => s.modeWord
  | 0x20 => s.geomWord
  | 0x24 => s.shiftWord
  | 0x28 => s.configWord
  | 0x2C => s.winXWord
  | 0x30 => s.winYWord
  | _ => 0

/-- The request in `OP` with the latched operands (R102, R103; 10_state.md R33: every operation reads its operands from `L_ARG`). -/
def State.latchedRequest (s : State) : Request := ⟨s.op, s.lArg.a0, s.lArg.a1, s.lArg.a2, s.lArg.a3⟩

/-- What a write to `OP` does once the value is stored (60_exceptions.md R310): ignored when faulted, REENTRANT while an operation runs, ILLEGAL_OP or the start of the operation when idle. -/
def State.startRequest (s : State) : Outcome :=
  match s.fsm with
  | .faulted => .next s
  | .run => .next (s.raiseAt .reentrant (opcodeOf s.op))
  | .waitDma => .next (s.raiseAt .reentrant (opcodeOf s.op))
  | .idle => match decode s.latch.latchedRequest with
    | .ok i => exec i s.latch
    | .error _ => .next (s.raiseAt .illegalOp (opcodeOf s.op))

/-- A 32-bit aligned host write (R101, R104). -/
def State.writeReg (s : State) (off : Nat) (v : Word) : Outcome :=
  match off with
  | 0x00 => { s with op := v }.startRequest
  | 0x04 => .next { s with arg := { s.arg with a0 := v } }
  | 0x08 => .next { s with arg := { s.arg with a1 := v } }
  | 0x0C => .next { s with arg := { s.arg with a2 := v } }
  | 0x10 => .next { s with arg := { s.arg with a3 := v } }
  | _ => .next s

/-- An access the engine answers with data or an acknowledge: 32 bits at a multiple of 4 (R100). -/
def aligned (off : Nat) (size : AccessSize) : Bool := decide (size = .word) && decide (off % 4 = 0)

/-- One host access (R100, R101). -/
def State.hostAccess (s : State) (a : HostAccess) : Outcome :=
  match a with
  | .read off size =>
    if 0x40 ≤ off then .fault .outsideEngine
    else if aligned off size then .next { s with resp := .data (s.readReg off) }
    else .next { s with resp := .busError }
  | .write off size v =>
    if 0x40 ≤ off then .fault .outsideEngine
    else if aligned off size then { s with resp := .ack }.writeReg off v
    else .next { s with resp := .busError }

/-- A host write to system memory: none while an operation runs (20_memory.md R74; log 15). -/
def State.hostMemWrite (s : State) (addr : Word) (b : Byte) : Outcome :=
  if s.busy then .refused .memoryWriteWhileBusy
  else .next { s with mem := s.mem.write addr.toNat b }

/-- One poll of WAIT (30_encoding.md R113; log 21): the agents take their turn while BUSY = 1; a read of STATUS with BUSY = 0 ends it. -/
def State.waitPoll (s : State) : State :=
  if s.busy then { s with inputs := .wait :: s.inputs }.idleTurn
  else { s with resp := .data s.statusWord }

/-- The register writes a line of assembler stands for (30_encoding.md R112): the ARG registers its format names, in increasing offset, then OP. -/
def assemble (i : Instr) : List HostAccess :=
  let r := encode i
  (if i.namesArg 0 then [.write 0x04 .word r.a0] else []) ++
  (if i.namesArg 1 then [.write 0x08 .word r.a1] else []) ++
  (if i.namesArg 2 then [.write 0x0C .word r.a2] else []) ++
  (if i.namesArg 3 then [.write 0x10 .word r.a3] else []) ++
  [.write 0x00 .word r.op]

/-- A host program as a plan: each operation's register writes, then WAIT (R113). -/
def hostProgram (is : List Instr) : List Input :=
  is.flatMap (fun i => (assemble i).map .host ++ [.wait])

/-- FILL_AREA x0, y0, x1, y1 (R113). -/
def pseudoFillArea (x0 y0 x1 y1 : Half) : Instr := .setAddressWindow x0 y0 x1 y1

/-- FILL_SCREEN c (R113). -/
def pseudoFillScreen (cfg : Config) (c : Half) : Instr :=
  .fillRect 0 0 (cfg.geo.w - 1) (cfg.geo.h - 1) c 0

/-- SET_PIXEL x, y, c (R113). -/
def pseudoSetPixel (x y c : Half) : Instr := .drawPixel x y c 0

end Sys2Proof.Machine
end

