-- ==== Sys2Proof/Machine/Step.lean ====
section
/-! DEFINITION. One step of the machine: the next item of the plan, or the agents' turn where the plan names none. -/

namespace Sys2Proof.Machine

/-- One item of the plan; it has been taken off `inputs` (00_scope.md R12). -/
def State.input (s : State) : Input → Outcome
  | .host a => s.hostAccess a
  | .memWrite addr b => s.hostMemWrite addr b
  | .wait => .next s.waitPoll
  | .engine => .next s.engineStep
  | .stall => .next s
  | .reset => .next s.resetEngine

/-- One step of the interleaving (00_scope.md R12, 60_exceptions.md R319). -/
def step (s : State) : Host.Outcome State Fault Refusal :=
  match s.inputs with
  | [] => .next s.idleTurn
  | i :: rest => State.input { s with inputs := rest } i

/-- The request whose bits are `w` placed where the next step takes a request from: its operands in ARG, its request word as the host's next write to OP, the engine idle (60_exceptions.md R310; log 18). -/
def State.withFetchWord (s : State) (nbits w : Nat) : State :=
  let r := Request.ofNat (w % 2 ^ nbits)
  { s with
    arg := ⟨r.a0, r.a1, r.a2, r.a3⟩
    fsm := .idle
    mseq := []
    dma := .ready
    inputs := .host (.write 0x00 .word r.op) :: s.inputs }

end Sys2Proof.Machine
end

