-- ==== Sys2Proof/Machine/Wire.lean ====
section
/-! DEFINITION. Views of the wire trace: its frames, the bytes the controller receives, the controller view and pixel streams (20_memory.md R76, R82-R84; 70_reset_and_hazards.md R352). -/

namespace Sys2Proof.Machine

/-- `bytes(Frame(_, _, w, v))` (R76). -/
def frameBytes (w : Width) (v : Half) : List Byte :=
  match w with
  | .w8 => [v.extractLsb' 0 8]
  | .w16 => [v.extractLsb' 8 8, v.extractLsb' 0 8]

/-- `frames(T)` (R82). -/
def framesOf (t : List Event) : List Event :=
  t.filter fun e => match e with
    | .frame _ _ _ _ => true
    | _ => false

/-- The (d, b) pairs one event contributes: a frame with the chip selected (R82). -/
def eventBytes : Event → List (Bool × Byte)
  | .frame false d w v => (frameBytes w v).map (fun b => (d, b))
  | _ => []

/-- `wire_bytes(T)` (R82). -/
def wireBytes (t : List Event) : List (Bool × Byte) := t.flatMap eventBytes

/-- A transaction of the controller view (R83). -/
inductive Txn where
  | cmd (b : Byte) (ds : List Byte)
  | orphan (ds : List Byte)
  deriving DecidableEq, Repr

/-- The controller view being built: closed transactions and the one in progress. -/
structure View where
  closed : List Txn
  current : Option Txn
  deriving DecidableEq, Repr

/-- One (d, b) pair (R83): a command byte starts a transaction, a data byte joins the last one, or an orphan list where no command has come. -/
def View.byte (v : View) (p : Bool × Byte) : View :=
  if p.1 then
    match v.current with
    | none => { v with current := some (.orphan [p.2]) }
    | some (.cmd b ds) => { v with current := some (.cmd b (ds ++ [p.2])) }
    | some (.orphan ds) => { v with current := some (.orphan (ds ++ [p.2])) }
  else ⟨v.closed ++ v.current.toList, some (.cmd p.2 [])⟩

/-- Close the transaction in progress (R83, R352). -/
def View.close (v : View) : View := ⟨v.closed ++ v.current.toList, none⟩

/-- One event: `Reset` and `RstN(0)` close the transaction in progress; line toggles do not (R83). -/
def View.event (v : View) (e : Event) : View :=
  match e with
  | .reset => v.close
  | .rstN false => v.close
  | _ => (eventBytes e).foldl View.byte v

/-- The view of a trace, with its open end. -/
def viewFrom (v : View) (t : List Event) : View := t.foldl View.event v

/-- The controller view `ctrl(T)` (R83). -/
def ctrl (t : List Event) : List Txn :=
  let v := viewFrom ⟨[], none⟩ t
  v.closed ++ v.current.toList

/-- The pixel stream of a data list, in pairs, big-endian (R84). A leftover byte of a list of odd length is in no pixel: DESIGN CHOICE, for R84 gives whole pairs alone (log 28). -/
def pixelStream : List Byte → List Half
  | hi :: lo :: ds => (hi ++ lo) :: pixelStream ds
  | _ => []

/-- The data bytes of pixels, most significant first (R76, R84). -/
def pixelData (ps : List Half) : List Byte := ps.flatMap (frameBytes .w16)

/-- The bits of a frame as they leave the serial data line, most significant bit first (R77, the spec's own decision from general knowledge; no rule depends on it). -/
def serialBits (w : Width) (v : Half) : List Bool :=
  (frameBytes w v).flatMap fun b => (List.range 8).map fun i => b.getLsbD (7 - i)

/-- The red, green and blue fields of a pixel: bits [15:11], [10:5], [4:0] (44_pixel_stream.md R241, the conventional layout; no rule depends on it, for the engine never interprets a pixel, R240). -/
def pixelFields (p : Half) : BitVec 5 × BitVec 6 × BitVec 5 :=
  (p.extractLsb' 11 5, p.extractLsb' 5 6, p.extractLsb' 0 5)

end Sys2Proof.Machine
end

