-- ==== Sys2Proof/Safety.lean ====
section
/-! DEFINITION. The terms claims are stated in: runs of the agents, draws that are OK, the invariant of the machine, and what each operation does as a whole when every draw is OK (written from the rules, beside the step by step machine). -/

namespace Sys2Proof.Machine

/-! ## Runs and draws -/

/-- `t` is reached from `s` by turns of the agents alone: no host access, reset or stall comes between, so the DMA channel is fair (70_reset_and_hazards.md R371). -/
def State.Reaches (s t : State) : Prop := ∃ n, State.engineRun n s = t

/-- The next `r` reconfigurations and the next `x` frames draw OK (70_reset_and_hazards.md R371: no failure and no HANG is drawn). -/
def State.OkDraws (r x : Nat) (s : State) : Prop :=
  r ≤ s.reconfigDraws.length ∧ x ≤ s.xferDraws.length ∧
  (∀ d ∈ s.reconfigDraws.take r, d = .ok) ∧ (∀ d ∈ s.xferDraws.take x, d = .ok)

/-- Every frame of a transfer of `n` frames at width `w` can be read (20_memory.md R73). -/
def State.Readable (w : Width) (source : Source) (n : Nat) (s : State) : Prop :=
  ∀ j, j < n → ({ s with busWidth := w }.word source j).isSome = true

/-- `exec` answers a next state, and from it the agents' turns alone lead to `t`: the operation `i` issued in `s` ends in `t`. -/
def Runs (i : Instr) (s t : State) : Prop := ∃ b, exec i s = .next b ∧ b.Reaches t

/-- `n` steps of the machine; a stop ends them. -/
def runSteps : Nat → State → Outcome
  | 0, s => .next s
  | n + 1, s => match step s with
    | .next t => runSteps n t
    | .fault f => .fault f
    | .refused r => .refused r

/-- The two bytes of a coordinate, most significant first (43_addressing.md R211). -/
def bigEndian (x : Nat) : List Byte := [BitVec.ofNat 8 (x / 256), BitVec.ofNat 8 (x % 256)]

/-- The sizes of the chunks in a trace (42_bulk_transfer.md R188). -/
def chunksOf (t : List Event) : List Nat :=
  t.filterMap fun e => match e with
    | .chunk _ n => some n
    | _ => none

/-! ## The checks of an operation, in their order (60_exceptions.md R316) -/

/-- What the checks of an operation come to. -/
inductive Verdict where
  | faults (f : ErrCode)
  | rejects (r : ResultCode)
  | passes
  deriving DecidableEq, Repr

/-- The checks of FILL_RECT past the common ones, on ordered or unordered corners (44_pixel_stream.md R244). -/
def rectVerdict (c : Config) (x0 y0 x1 y1 : Nat) : Verdict :=
  if x1 < x0 ∨ y1 < y0 then .faults .invalidWindow
  else if c.geo.w.toNat ≤ x1 ∨ c.geo.h.toNat ≤ y1 then .rejects .rejectBounds
  else .passes

/-- The first check that applies to an operation issued in a state, written from the list of 60_exceptions.md R316 and the checks of its own rule. -/
def verdict (s : State) : Instr → Verdict
  | .setWordWidth _ rsvd => if rsvd ≠ 0 then .faults .reservedOperand else .passes
  | .setDmaMode _ _ rsvd =>
    if s.cfg.dmaEnabled = false then .faults .noDma
    else if rsvd ≠ 0 then .faults .reservedOperand else .passes
  | .writeCommand _ rsvd => if rsvd ≠ 0 then .faults .reservedOperand else .passes
  | .writeSmallData _ rsvd => if rsvd ≠ 0 then .faults .reservedOperand else .passes
  | .writeData addr len =>
    if s.busWidth = .w16 ∧ 1 ≤ len.toNat ∧ addr.toNat % 2 = 1 then .faults .misaligned else .passes
  | .transmit addr len =>
    if s.busWidth = .w16 ∧ 1 ≤ len.toNat ∧ addr.toNat % 2 = 1 then .faults .misaligned else .passes
  | .setAddressWindow x0 y0 x1 y1 =>
    if s.rotSet = false then .faults .notReady
    else if x0.toNat ≤ x1.toNat ∧ x1.toNat < s.cfg.geo.w.toNat ∧
      y0.toNat ≤ y1.toNat ∧ y1.toNat < s.cfg.geo.h.toNat then .passes
    else .faults .invalidWindow
  | .setRotation m rsvd =>
    if rsvd ≠ 0 then .faults .reservedOperand
    else if m ≠ s.cfg.rotationCfg then .faults .rotationMismatch else .passes
  | .fillPixels _ _ rsvd => if rsvd ≠ 0 then .faults .reservedOperand else .passes
  | .fillRect x0 y0 x1 y1 _ rsvd =>
    if rsvd ≠ 0 then .faults .reservedOperand
    else if s.rotSet = false then .faults .notReady
    else rectVerdict s.cfg x0.toNat y0.toNat x1.toNat y1.toNat
  | .drawLine x0 y0 x1 y1 _ rsvd =>
    if rsvd ≠ 0 then .faults .reservedOperand
    else if s.rotSet = false then .faults .notReady
    else if y0 = y1 then
      rectVerdict s.cfg (min x0.toNat x1.toNat) y0.toNat (max x0.toNat x1.toNat) y0.toNat
    else if x0 = x1 then
      rectVerdict s.cfg x0.toNat (min y0.toNat y1.toNat) x0.toNat (max y0.toNat y1.toNat)
    else .rejects .notHandled
  | .drawPixel x y _ rsvd =>
    if rsvd ≠ 0 then .faults .reservedOperand
    else if s.rotSet = false then .faults .notReady
    else if s.cfg.geo.w.toNat ≤ x.toNat ∨ s.cfg.geo.h.toNat ≤ y.toNat then .rejects .rejectBounds
    else .passes
  | .drawImage x y bw bh bpp addr rsvd =>
    if rsvd ≠ 0 then .faults .reservedOperand
    else if s.rotSet = false then .faults .notReady
    else if bw = 0 ∨ bh = 0 then .faults .emptyBitmap
    else if s.cfg.geo.w.toNat ≤ x.toNat + bw.toNat - 1 ∨ s.cfg.geo.h.toNat ≤ y.toNat + bh.toNat - 1 then
      .rejects .rejectBounds
    else if bpp.toNat ≠ 16 then .rejects .rejectFormat
    else if addr.toNat % 2 = 1 then .faults .misaligned
    else .passes
  | .init => if s.initDone = true then .faults .initTwice else .passes

/-- The state a fault raised while an operation runs leads to (60_exceptions.md R315). -/
def State.faultedBy (f : ErrCode) (s : State) : State :=
  { s with errCode := f, errOp := s.lOp, result := .fault, mseq := [], fsm := .faulted, dma := .ready }

/-! ## What an operation does as a whole, every draw OK -/

/-- The end of a host-issued operation (60_exceptions.md R312). -/
def State.finished (r : ResultCode) (s : State) : State := { s with result := r, mseq := [], fsm := .idle }

/-- SET_WORD_WIDTH (40_bus_mode.md R140). -/
def State.widthSet (w : Width) (s : State) : State :=
  if s.busWidth = w then s
  else { s with busWidth := w, trace := s.trace ++ [.spiWidth w], reconfigDraws := s.reconfigDraws.drop 1 }

/-- SET_DMA_MODE (40_bus_mode.md R142). -/
def State.dmaModeSet (inc : Bool) (w : Width) (s : State) : State :=
  if s.dmaInc = inc ∧ s.dmaWidth = w then s
  else { s with
    dmaInc := inc
    dmaWidth := w
    trace := s.trace ++ [.dmaCfg inc w]
    reconfigDraws := s.reconfigDraws.drop 1 }

/-- One framed byte: a command with `d` = false, data with `d` = true (41_protocol.md R160, R162). -/
def State.byteSent (d : Bool) (b : Byte) (s : State) : State :=
  let t := s.widthSet .w8
  { t with
    csN := true
    dc := d
    trace := t.trace ++ [.csN false, .dc d, .frame false d .w8 (b.setWidth 16), .csN true]
    xferDraws := t.xferDraws.drop 1 }

/-- The sizes of the chunks of a transfer of `n` frames: full ones, then the rest (42_bulk_transfer.md R188). -/
def chunkSizes (n : Nat) : List Nat :=
  List.replicate (n / 65535) 65535 ++ (if n % 65535 = 0 then [] else [n % 65535])

/-- The value of frame `j` of a readable source (42_bulk_transfer.md R180). -/
def State.sourceValue (source : Source) (j : Nat) (s : State) : Half := (s.word source j).getD 0

/-- The `n` frames from frame `off` of a source, at the current width and line levels (R183). -/
def State.framesFrom (source : Source) (off n : Nat) (s : State) : List Event :=
  (List.range n).map fun i =>
    .frame s.csN s.dc s.busWidth (frameValue s.busWidth (s.sourceValue source (off + i)))

/-- One chunk (R183, R184): by DMA after the DMA mode is set, or blocking. -/
def State.chunkSent (source : Source) (off n : Nat) (s : State) : State :=
  let t := if goesByDma s.cfg n then s.dmaModeSet (!source.isRep) s.busWidth else s
  { t with
    chunk := BitVec.ofNat 16 n
    trace := t.trace ++ .chunk (if goesByDma s.cfg n then .dma else .blk) n :: s.framesFrom source off n
    xferDraws := t.xferDraws.drop n }

/-- Chunks of the given sizes, from frame `off` (R182). -/
def State.chunksSent (source : Source) : List Nat → Nat → State → State
  | [], _, s => s
  | n :: ns, off, s => State.chunksSent source ns (advance source off n) (s.chunkSent source off n)

/-- TRANSMIT (R183). -/
def State.transferred (source : Source) (len : Word) (s : State) : State :=
  State.chunksSent source (chunkSizes len.toNat) 0 { s with src := source, rem := 0 }

/-- WRITE_DATA (41_protocol.md R164). -/
def State.dataWritten (source : Source) (len : Word) (s : State) : State :=
  let t := State.transferred source len
    { s with csN := false, dc := true, trace := s.trace ++ [.csN false, .dc true] }
  { t with csN := true, trace := t.trace ++ [.csN true] }

/-- WRITE_DATA of a list of bytes. -/
def State.bytesWritten (l : List Byte) (s : State) : State :=
  s.dataWritten (byteSource l) (lengthOf l.length)

/-- SET_ADDRESS_WINDOW (43_addressing.md R210). -/
def State.windowSet (x0 y0 x1 y1 : Half) (s : State) : State :=
  let g := s.cfg.geo
  ((((({ s with winXs := x0 + g.sx, winXe := x1 + g.sx, winYs := y0 + g.sy, winYe := y1 + g.sy }
    ).byteSent false s.cfg.cmdCaset).bytesWritten (bounds (x0 + g.sx) (x1 + g.sx))
    ).byteSent false s.cfg.cmdRaset).bytesWritten (bounds (y0 + g.sy) (y1 + g.sy))
    ).byteSent false s.cfg.cmdRamwr

/-- SET_ROTATION (43_addressing.md R214). -/
def State.rotationSet (m : BitVec 2) (s : State) : State :=
  { (s.byteSent false s.cfg.cmdMadctl).byteSent true (s.cfg.rotPattern m) with rot := m, rotSet := true }

/-- The sizes of the blocks of a fill of `n` pixels without DMA (44_pixel_stream.md R242). -/
def blockSizes (n : Nat) : List Nat :=
  List.replicate (n / 64) 64 ++ (if n % 64 = 0 then [] else [n % 64])

/-- Blocks of one colour, each a WRITE_DATA of its own (R242). -/
def State.blocksSent (color : Half) (ns : List Nat) (s : State) : State :=
  ns.foldl (fun t n => t.dataWritten (.lit (List.replicate n color)) (lengthOf n)) s

/-- FILL_PIXELS (R242). -/
def State.pixelsFilled (count : Nat) (color : Half) (s : State) : State :=
  if goesByDma s.cfg count then
    State.dataWritten (.rep color) (lengthOf count)
      { (s.widthSet .w16).dmaModeSet false .w16 with fillColor := color }
  else
    State.blocksSent color (blockSizes count)
      ({ s with fillBuf := Vector.replicate 64 color }.widthSet .w16)

/-- FILL_RECT inside the panel (44_pixel_stream.md R244). -/
def State.rectFilled (x0 y0 x1 y1 color : Half) (s : State) : State :=
  (s.windowSet x0 y0 x1 y1).pixelsFilled (rectCount x0 y0 x1 y1) color

/-- DRAW_PIXEL inside the panel (R248). -/
def State.pixelDrawn (x y color : Half) (s : State) : State :=
  (s.windowSet x y x y).bytesWritten (pixelBytes color)

/-- DRAW_IMAGE past its checks (R250). -/
def State.imageDrawn (x y bw bh : Half) (addr : Word) (s : State) : State :=
  let t := (s.windowSet x y (lastCoord x bw) (lastCoord y bh)).widthSet .w16
  (if s.cfg.dmaEnabled then t.dmaModeSet true .w16 else t).dataWritten (.mem addr)
    (lengthOf (bw.toNat * bh.toNat))

/-- The entries of an initialization table (45_init.md R290, R293). -/
def State.tableSent (es : List (Byte × List Byte)) (s : State) : State :=
  es.foldl (fun t e =>
    if e.2.length = 0 then t.byteSent false e.1 else (t.byteSent false e.1).bytesWritten e.2) s

/-- Step 1 of INIT: deselected, the controller's reset driven for 1 ms, released, held for 120 ms (45_init.md R291). -/
def State.pulsed (s : State) : State :=
  { s with
    csN := true
    rstN := true
    trace := s.trace ++ [.csN true, .rstN false, .delay 1, .rstN true, .delay 120] }

/-- INIT (45_init.md R290). -/
def State.initialized (s : State) : State :=
  let c := s.cfg
  let programmed := ((s.pulsed.tableSent c.initTableA).rotationSet c.rotationCfg).tableSent c.initTableB
  let awake := ((programmed.byteSent false c.cmdInvon).byteSent false c.cmdSlpout).byteSent false c.cmdNoron
  let cleared := awake.rectFilled 0 0 (c.geo.w - 1) (c.geo.h - 1) c.bgColor
  { cleared.byteSent false c.cmdDispon with initDone := true }

/-! ## Which registers an operation may write (the 'Registers written' of its rule) -/

/-- `win_xs`, `win_xe`, `win_ys`, `win_ye` (10_state.md R46). -/
def writesWindow : Instr → Bool
  | .setWordWidth _ _ => false
  | .setDmaMode _ _ _ => false
  | .writeCommand _ _ => false
  | .writeSmallData _ _ => false
  | .writeData _ _ => false
  | .transmit _ _ => false
  | .setAddressWindow _ _ _ _ => true
  | .setRotation _ _ => false
  | .fillPixels _ _ _ => false
  | .fillRect _ _ _ _ _ _ => true
  | .drawLine _ _ _ _ _ _ => true
  | .drawPixel _ _ _ _ => true
  | .drawImage _ _ _ _ _ _ _ => true
  | .init => true

/-- `rot`, `rot_set` (10_state.md R42). -/
def writesRotation : Instr → Bool
  | .setWordWidth _ _ => false
  | .setDmaMode _ _ _ => false
  | .writeCommand _ _ => false
  | .writeSmallData _ _ => false
  | .writeData _ _ => false
  | .transmit _ _ => false
  | .setAddressWindow _ _ _ _ => false
  | .setRotation _ _ => true
  | .fillPixels _ _ _ => false
  | .fillRect _ _ _ _ _ _ => false
  | .drawLine _ _ _ _ _ _ => false
  | .drawPixel _ _ _ _ => false
  | .drawImage _ _ _ _ _ _ _ => false
  | .init => true

/-- `init_done` and the reset line `rst_n` (10_state.md R43, 45_init.md R290). -/
def writesInit : Instr → Bool
  | .setWordWidth _ _ => false
  | .setDmaMode _ _ _ => false
  | .writeCommand _ _ => false
  | .writeSmallData _ _ => false
  | .writeData _ _ => false
  | .transmit _ _ => false
  | .setAddressWindow _ _ _ _ => false
  | .setRotation _ _ => false
  | .fillPixels _ _ _ => false
  | .fillRect _ _ _ _ _ _ => false
  | .drawLine _ _ _ _ _ _ => false
  | .drawPixel _ _ _ _ => false
  | .drawImage _ _ _ _ _ _ _ => false
  | .init => true

/-- `fill_buf`, `fill_color` (10_state.md R47, R48). -/
def writesFill : Instr → Bool
  | .setWordWidth _ _ => false
  | .setDmaMode _ _ _ => false
  | .writeCommand _ _ => false
  | .writeSmallData _ _ => false
  | .writeData _ _ => false
  | .transmit _ _ => false
  | .setAddressWindow _ _ _ _ => false
  | .setRotation _ _ => false
  | .fillPixels _ _ _ => true
  | .fillRect _ _ _ _ _ _ => true
  | .drawLine _ _ _ _ _ _ => true
  | .drawPixel _ _ _ _ => false
  | .drawImage _ _ _ _ _ _ _ => false
  | .init => true

/-- The output latches `cs_n`, `dc` (10_state.md R44): TRANSMIT, SET_WORD_WIDTH and SET_DMA_MODE drive neither. -/
def drivesLines : Instr → Bool
  | .setWordWidth _ _ => false
  | .setDmaMode _ _ _ => false
  | .writeCommand _ _ => true
  | .writeSmallData _ _ => true
  | .writeData _ _ => true
  | .transmit _ _ => false
  | .setAddressWindow _ _ _ _ => true
  | .setRotation _ _ => true
  | .fillPixels _ _ _ => true
  | .fillRect _ _ _ _ _ _ => true
  | .drawLine _ _ _ _ _ _ => true
  | .drawPixel _ _ _ _ => true
  | .drawImage _ _ _ _ _ _ _ => true
  | .init => true

/-- `bus_width` (10_state.md R40): WRITE_DATA and TRANSMIT keep it, and SET_DMA_MODE is independent of it. -/
def writesWidth : Instr → Bool
  | .setWordWidth _ _ => true
  | .setDmaMode _ _ _ => false
  | .writeCommand _ _ => true
  | .writeSmallData _ _ => true
  | .writeData _ _ => false
  | .transmit _ _ => false
  | .setAddressWindow _ _ _ _ => true
  | .setRotation _ _ => true
  | .fillPixels _ _ _ => true
  | .fillRect _ _ _ _ _ _ => true
  | .drawLine _ _ _ _ _ _ => true
  | .drawPixel _ _ _ _ => true
  | .drawImage _ _ _ _ _ _ _ => true
  | .init => true

/-- `dma_inc`, `dma_width` (10_state.md R41). -/
def writesDmaMode : Instr → Bool
  | .setWordWidth _ _ => false
  | .setDmaMode _ _ _ => true
  | .writeCommand _ _ => false
  | .writeSmallData _ _ => false
  | .writeData _ _ => true
  | .transmit _ _ => true
  | .setAddressWindow _ _ _ _ => true
  | .setRotation _ _ => false
  | .fillPixels _ _ _ => true
  | .fillRect _ _ _ _ _ _ => true
  | .drawLine _ _ _ _ _ _ => true
  | .drawPixel _ _ _ _ => true
  | .drawImage _ _ _ _ _ _ _ => true
  | .init => true

/-- The chunk registers `src`, `rem`, `chunk` (10_state.md R49). -/
def writesTransfer : Instr → Bool
  | .setWordWidth _ _ => false
  | .setDmaMode _ _ _ => false
  | .writeCommand _ _ => false
  | .writeSmallData _ _ => false
  | .writeData _ _ => true
  | .transmit _ _ => true
  | .setAddressWindow _ _ _ _ => true
  | .setRotation _ _ => false
  | .fillPixels _ _ _ => true
  | .fillRect _ _ _ _ _ _ => true
  | .drawLine _ _ _ _ _ _ => true
  | .drawPixel _ _ _ _ => true
  | .drawImage _ _ _ _ _ _ _ => true
  | .init => true

/-! ## Reset -/

/-- Every row of the reset table (70_reset_and_hazards.md R350) but the wire trace. -/
structure State.AtReset (s : State) : Prop where
  request : s.op = 0 ∧ s.arg = ⟨0, 0, 0, 0⟩
  latched : s.lOp = 0 ∧ s.lArg = ⟨0, 0, 0, 0⟩
  status : s.readReg 0x14 = 0
  err : s.readReg 0x18 = 0
  sequencer : s.fsm = .idle ∧ s.mseq = []
  width : s.busWidth = .w8
  dmaMode : s.dmaInc = true ∧ s.dmaWidth = .w8
  orientation : s.rot = 0 ∧ s.rotSet = false
  initDone : s.initDone = false
  lines : s.csN = true ∧ s.dc = true ∧ s.rstN = true
  window : s.winXs = 0 ∧ s.winXe = 0 ∧ s.winYs = 0 ∧ s.winYe = 0
  fill : (∀ i : Fin 64, s.fillBuf[i] = 0) ∧ s.fillColor = 0
  transfer : s.src = .lit [] ∧ s.rem = 0 ∧ s.chunk = 0
  channel : s.dma = .ready
  mode : s.readReg 0x1C = if s.cfg.dmaEnabled then 0x0A else 0

/-! ## The invariant -/

/-- An action a micro-sequence may hold: a write of the DMA width and a DMA chunk only with DMA, a chunk of at most 65535 frames, no result or fault code that `finish` or `raise` never has, and no orientation but the configured one. -/
def actionOk (c : Config) : Action → Bool
  | .setDmaWidth _ => c.dmaEnabled
  | .issueDma _ n => c.dmaEnabled && decide (n ≤ 65535)
  | .finish r => decide (r ≠ .fault)
  | .raise f => decide (f ≠ .none)
  | .setRot m => m == c.rotationCfg
  | _ => true

/-- `finish` or `raise` (10_state.md R37). -/
def isEnd : Action → Bool
  | .finish _ => true
  | .raise _ => true
  | _ => false

/-- From chip-select level `c`, the controller is deselected when the remaining actions finish (41_protocol.md R169); a fault may leave it selected (60_exceptions.md R315). -/
def endsDeselected (c : Bool) : List Action → Bool
  | [] => c
  | .finish _ :: _ => c
  | .raise _ :: _ => true
  | .driveCs v :: as => endsDeselected v as
  | .fillBlocks _ :: as => endsDeselected true as
  | _ :: as => endsDeselected c as

/-- `rot_set` is set only once `rot` holds the configured orientation; `r` says it does now (43_addressing.md R214). -/
def rotOrdered (r : Bool) : List Action → Bool
  | [] => true
  | .setRot _ :: as => rotOrdered true as
  | .setRotSet :: as => r && rotOrdered r as
  | _ :: as => rotOrdered r as

/-- The invariant every step keeps. -/
structure State.Inv (s : State) : Prop where
  /-- Memory is in its canonical form. -/
  memory : s.mem.wf = true
  /-- Nothing remains of an operation in IDLE and FAULTED (60_exceptions.md R312, R315). -/
  quiet : s.busy = false → s.mseq = []
  /-- The last action of the running operation is `finish` or `raise` (10_state.md R37). -/
  ends : s.busy = true → s.mseq.getLast?.map isEnd = some true
  /-- Every remaining action is one the engine may take. -/
  actions : s.mseq.all (actionOk s.cfg) = true
  /-- The DMA channel is busy only while the sequencer waits for it (42_bulk_transfer.md R185). -/
  channel : s.fsm ≠ .waitDma → s.dma = .ready
  /-- A chunk has at most 65535 frames to send (10_state.md R50). -/
  count : ∀ source k n, s.dma = .active source k n → n ≤ 65535
  /-- Without DMA the DMA registers are never written (10_state.md R41, R50). -/
  noDma : s.cfg.dmaEnabled = false → s.dma = .ready ∧ s.dmaInc = true ∧ s.dmaWidth = .w8
  /-- `ERR` holds a fault exactly in FAULTED (60_exceptions.md R315, R317). -/
  error : s.errCode ≠ .none ↔ s.fsm = .faulted
  /-- `RESULT` is FAULT exactly in FAULTED: only reset leaves it (60_exceptions.md R311, R315, R317). -/
  result : s.result = .fault ↔ s.fsm = .faulted
  /-- The controller is deselected between operations (41_protocol.md R169). -/
  deselected : s.fsm = .idle → s.csN = true
  /-- The running operation leaves it deselected when it finishes. -/
  deselects : s.busy = true → endsDeselected s.csN s.mseq = true
  /-- The orientation sent is the configured one (43_addressing.md R214, 70_reset_and_hazards.md R365). -/
  rotation : s.rotSet = true → s.rot = s.cfg.rotationCfg
  /-- And stays so. -/
  rotations : rotOrdered (s.rot == s.cfg.rotationCfg) s.mseq = true

end Sys2Proof.Machine
end

