-- ==== Sys2Proof/Certificates/Slice0/Obligations.lean ====
section
/-! DEFINITION. The statements for the provers. A line level or latch is a Bool: false = 0, true = 1. `Runs i s t` says that `exec i s` answers a next state and that the agents' turns alone lead from it to `t` (log 1). The plan `inputs` of what the outside world does is the model's own (log 2), and so are the turn it takes when the plan names none (log 3) and the lists of draws (log 4). -/

section

open Sys2Proof Sys2Proof.Machine

/-! ## Encoding of requests (30_encoding.md) -/

/-- Decoding the words of any operation gives it back, with every field, the reserved ones too (R102, R103, R107). -/
def Obligations.DecodeOfEncode : Prop := ∀ i : Instr, decode (encode i) = .ok i

/-- A request that decodes to an operation is its encoding on the request word and on every operand register its format names, and an operand register the format does not name has no effect (R102, R103). -/
def Obligations.EncodeOfDecode : Prop :=
  ∀ (r : Request) (i : Instr), decode r = .ok i →
    r.op = (encode i).op ∧
    (i.namesArg 0 = true → r.a0 = (encode i).a0) ∧ (i.namesArg 1 = true → r.a1 = (encode i).a1) ∧
    (i.namesArg 2 = true → r.a2 = (encode i).a2) ∧ (i.namesArg 3 = true → r.a3 = (encode i).a3) ∧
    ∀ r' : Request, r'.op = r.op →
      (i.namesArg 0 = true → r'.a0 = r.a0) → (i.namesArg 1 = true → r'.a1 = r.a1) →
      (i.namesArg 2 = true → r'.a2 = r.a2) → (i.namesArg 3 = true → r'.a3 = r.a3) → decode r' = .ok i

/-- A request word that is not one of the fourteen opcodes raises ILLEGAL_OP when the request is made, and the trace stays as it is; each of the fourteen decodes, whatever the operands (R108). -/
def Obligations.IllegalRequestWords : Prop :=
  ∀ (s : State) (v : Word) (rest : List Input), s.fsm = .idle → s.inputs = .host (.write 0x00 .word v) :: rest →
    (v.toNat ∉ [0x01, 0x02, 0x10, 0x11, 0x12, 0x13, 0x20, 0x21, 0x30, 0x31, 0x32, 0x33, 0x34, 0x40] →
      step s = .next { s with
        inputs := rest
        resp := .ack
        op := v
        errCode := .illegalOp
        errOp := v.extractLsb' 0 8
        result := .fault
        mseq := []
        fsm := .faulted
        dma := .ready }) ∧
    (v.toNat ∈ [0x01, 0x02, 0x10, 0x11, 0x12, 0x13, 0x20, 0x21, 0x30, 0x31, 0x32, 0x33, 0x34, 0x40] →
      ∀ a : Args, ∃ i, decode ⟨v, a.a0, a.a1, a.a2, a.a3⟩ = .ok i)

/-- Words written out from the tables of R103 and R107, with the example of R112 among them. -/
def Obligations.SampleWordsDecode : Prop :=
  decode ⟨0x00000001, 0x00000001, 0, 0, 0⟩ = .ok (.setWordWidth true 0) ∧
  decode ⟨0x00000010, 0x00000029, 0, 0, 0⟩ = .ok (.writeCommand 0x29 0) ∧
  decode ⟨0x00000012, 0x20000000, 0x00000002, 0, 0⟩ = .ok (.writeData 0x20000000 2) ∧
  decode ⟨0x00000020, 0x00860000, 0x008600EF, 0, 0⟩ = .ok (.setAddressWindow 0 134 239 134) ∧
  decode ⟨0x00000031, 0x00000000, 0x00090009, 0x0000FFFF, 0⟩ = .ok (.fillRect 0 0 9 9 0xFFFF 0) ∧
  decode ⟨0x00000034, 0x000000E6, 0x00100010, 0x00000010, 0x20000000⟩ = .ok (.drawImage 230 0 16 16 16 0x20000000 0) ∧
  decode ⟨0x00000000, 0, 0, 0, 0⟩ = .error .unknownOpcode ∧
  decode ⟨0x00000101, 0, 0, 0, 0⟩ = .error .highBitsSet

/-! ## Requests and the host interface (30_encoding.md, 60_exceptions.md) -/

/-- When the host's next access writes a request word that decodes to `i` with the operand registers as they are, and the engine is idle, the step is `exec i` on the state with the request word stored, the request latched and the access acknowledged; and `withFetchWord` makes the next step run the operation its word decodes to (R310, 10_state.md R33; log 18). -/
def Obligations.StepRunsDecodedRequest : Prop :=
  (∀ (s : State) (v : Word) (rest : List Input) (i : Instr),
    s.fsm = .idle → s.inputs = .host (.write 0x00 .word v) :: rest →
    decode ⟨v, s.arg.a0, s.arg.a1, s.arg.a2, s.arg.a3⟩ = .ok i →
    step s = exec i { s with
      inputs := rest, resp := .ack, op := v, lOp := v.extractLsb' 0 8, lArg := s.arg }) ∧
  (∀ (s : State) (nbits w : Nat) (i : Instr), decodeTableWord nbits w = some i →
    let r := Request.ofNat (w % 2 ^ nbits)
    step (s.withFetchWord nbits w) = exec i { s with
      arg := ⟨r.a0, r.a1, r.a2, r.a3⟩
      fsm := .idle
      mseq := []
      dma := .ready
      resp := .ack
      op := r.op
      lOp := r.op.extractLsb' 0 8
      lArg := ⟨r.a0, r.a1, r.a2, r.a3⟩ })

/-- What a host write to OP does in each state of the sequencer: ignored when faulted, REENTRANT while an operation runs, ILLEGAL_OP for an illegal word when idle, and otherwise the request latched, a micro-sequence that ends with `finish` or `raise`, and BUSY from this step on (R310). -/
def Obligations.RequestStart : Prop :=
  ∀ (s : State) (v : Word) (rest : List Input), s.inputs = .host (.write 0x00 .word v) :: rest →
    let t : State := { s with inputs := rest, resp := .ack, op := v }
    let request : Request := ⟨v, s.arg.a0, s.arg.a1, s.arg.a2, s.arg.a3⟩
    (s.fsm = .faulted → step s = .next t) ∧
    (s.busy = true → step s = .next { t with
      errCode := .reentrant
      errOp := v.extractLsb' 0 8
      result := .fault
      mseq := []
      fsm := .faulted
      dma := .ready }) ∧
    (s.fsm = .idle → (∀ i, decode request ≠ .ok i) → step s = .next { t with
      errCode := .illegalOp
      errOp := v.extractLsb' 0 8
      result := .fault
      mseq := []
      fsm := .faulted
      dma := .ready }) ∧
    (s.fsm = .idle → ∀ i, decode request = .ok i → ∃ as : List Action,
      as.getLast?.map isEnd = some true ∧
      step s = .next { t with lOp := v.extractLsb' 0 8, lArg := s.arg, mseq := as, fsm := .run } ∧
      ({ t with lOp := v.extractLsb' 0 8, lArg := s.arg, mseq := as, fsm := .run } : State).statusWord.getLsbD 0 = true)

/-- A 32-bit read at each offset of the map answers that register's value and changes nothing else (R104, 20_memory.md R85). -/
def Obligations.RegisterReads : Prop :=
  ∀ (s : State) (off : Nat) (rest : List Input), s.inputs = .host (.read off .word) :: rest →
    (off < 0x40 → off % 4 = 0 → step s = .next { s with inputs := rest, resp := .data (s.readReg off) }) ∧
    s.readReg 0x00 = s.op ∧ s.readReg 0x04 = s.arg.a0 ∧ s.readReg 0x08 = s.arg.a1 ∧
    s.readReg 0x0C = s.arg.a2 ∧ s.readReg 0x10 = s.arg.a3 ∧ s.readReg 0x14 = s.statusWord ∧
    s.readReg 0x18 = s.errWord ∧ s.readReg 0x1C = s.modeWord ∧ s.readReg 0x20 = s.geomWord ∧
    s.readReg 0x24 = s.shiftWord ∧ s.readReg 0x28 = s.configWord ∧ s.readReg 0x2C = s.winXWord ∧
    s.readReg 0x30 = s.winYWord ∧ s.readReg 0x34 = 0 ∧ s.readReg 0x38 = 0 ∧ s.readReg 0x3C = 0

/-- The fields of the words the host reads, bit by bit, and the codes of results and faults (R104, 10_state.md R34, R35; 60_exceptions.md R311, R314). -/
def Obligations.ReadWordFields : Prop :=
  (∀ s : State,
    (s.statusWord.getLsbD 0 = true ↔ s.fsm = .run ∨ s.fsm = .waitDma) ∧
    (s.statusWord.getLsbD 1 = true ↔ s.fsm = .faulted) ∧
    s.statusWord.getLsbD 2 = s.rotSet ∧ s.statusWord.getLsbD 3 = s.initDone ∧
    s.statusWord.extractLsb' 4 4 = s.result.code ∧ s.statusWord.extractLsb' 8 24 = 0 ∧
    s.errWord.extractLsb' 0 8 = s.errCode.code ∧ s.errWord.extractLsb' 8 8 = s.errOp ∧
    s.errWord.extractLsb' 16 16 = 0 ∧
    (s.modeWord.getLsbD 0 = true ↔ s.busWidth = .w16) ∧
    (s.modeWord.getLsbD 1 = true ↔ s.cfg.dmaEnabled = true ∧ s.dmaInc = true) ∧
    (s.modeWord.getLsbD 2 = true ↔ s.cfg.dmaEnabled = true ∧ s.dmaWidth = .w16) ∧
    s.modeWord.getLsbD 3 = s.cfg.dmaEnabled ∧ s.modeWord.extractLsb' 4 2 = s.rot ∧
    s.modeWord.extractLsb' 6 26 = 0 ∧
    s.geomWord.extractLsb' 0 16 = s.cfg.geo.w ∧ s.geomWord.extractLsb' 16 16 = s.cfg.geo.h ∧
    s.shiftWord.extractLsb' 0 16 = s.cfg.geo.sx ∧ s.shiftWord.extractLsb' 16 16 = s.cfg.geo.sy ∧
    s.configWord.getLsbD 0 = s.cfg.dmaEnabled ∧ s.configWord.extractLsb' 1 15 = 0 ∧
    (s.configWord.extractLsb' 16 16).toNat = s.cfg.dmaMinSize ∧
    s.winXWord.extractLsb' 0 16 = s.winXs ∧ s.winXWord.extractLsb' 16 16 = s.winXe ∧
    s.winYWord.extractLsb' 0 16 = s.winYs ∧ s.winYWord.extractLsb' 16 16 = s.winYe) ∧
  [ResultCode.ok, .notHandled, .rejectBounds, .rejectFormat, .fault].map (fun r => r.code.toNat) = [0, 1, 2, 3, 15] ∧
  [ErrCode.none, .illegalOp, .reservedOperand, .noDma, .notReady, .initTwice, .invalidWindow, .rotationMismatch,
    .emptyBitmap, .misaligned, .busError, .reconfigFault, .transferFault, .reentrant].map (fun f => f.code.toNat) =
    [0, 1, 2, 3, 4, 5, 6, 7, 8, 9, 10, 11, 12, 13]

/-- An access of another width, or at an offset that is not a multiple of 4, gets a bus error and changes no engine state; a 32-bit access at a multiple of 4 does not get one (R100). -/
def Obligations.BusErrors : Prop :=
  ∀ (s : State) (off : Nat) (size : AccessSize) (v : Word) (rest : List Input), off < 0x40 →
    (¬(size = .word ∧ off % 4 = 0) →
      (s.inputs = .host (.read off size) :: rest → step s = .next { s with inputs := rest, resp := .busError }) ∧
      (s.inputs = .host (.write off size v) :: rest → step s = .next { s with inputs := rest, resp := .busError })) ∧
    (size = .word → off % 4 = 0 →
      (s.inputs = .host (.read off size) :: rest → ∃ t d, step s = .next t ∧ t.resp = .data d) ∧
      (s.inputs = .host (.write off size v) :: rest → ∃ t, step s = .next t ∧ t.resp = .ack))

/-- Writes to the read-only registers and the reserved offsets are ignored (R101). An access at or above 0x40 is the platform's: the model stops there, which is its own choice (log 14). -/
def Obligations.IgnoredWrites : Prop :=
  ∀ (s : State) (off : Nat) (v : Word) (rest : List Input),
    (off ∈ [0x14, 0x18, 0x1C, 0x20, 0x24, 0x28, 0x2C, 0x30, 0x34, 0x38, 0x3C] →
      s.inputs = .host (.write off .word v) :: rest → step s = .next { s with inputs := rest, resp := .ack }) ∧
    (∀ size, 0x40 ≤ off →
      (s.inputs = .host (.write off size v) :: rest → step s = .fault .outsideEngine) ∧
      (s.inputs = .host (.read off size) :: rest → step s = .fault .outsideEngine))

/-- A host write to an operand register stores the value in every state of the sequencer and has no other effect: the latched operands of a running operation stay (10_state.md R32, R33). -/
def Obligations.ArgWrites : Prop :=
  ∀ (s : State) (v : Word) (rest : List Input),
    (s.inputs = .host (.write 0x04 .word v) :: rest →
      step s = .next { s with inputs := rest, resp := .ack, arg := { s.arg with a0 := v } }) ∧
    (s.inputs = .host (.write 0x08 .word v) :: rest →
      step s = .next { s with inputs := rest, resp := .ack, arg := { s.arg with a1 := v } }) ∧
    (s.inputs = .host (.write 0x0C .word v) :: rest →
      step s = .next { s with inputs := rest, resp := .ack, arg := { s.arg with a2 := v } }) ∧
    (s.inputs = .host (.write 0x10 .word v) :: rest →
      step s = .next { s with inputs := rest, resp := .ack, arg := { s.arg with a3 := v } })

/-- The register writes of a line of assembler, made one after the other to an idle engine, start the operation of the line; the operand registers its format does not name keep their values (R112). -/
def Obligations.AssembledLine : Prop :=
  ∀ (i : Instr) (s : State) (rest : List Input), s.fsm = .idle →
    s.inputs = (assemble i).map Input.host ++ rest →
    let r := encode i
    let arg : Args := {
      a0 := if i.namesArg 0 then r.a0 else s.arg.a0
      a1 := if i.namesArg 1 then r.a1 else s.arg.a1
      a2 := if i.namesArg 2 then r.a2 else s.arg.a2
      a3 := if i.namesArg 3 then r.a3 else s.arg.a3 }
    runSteps (assemble i).length s = exec i { s with
      inputs := rest, resp := .ack, op := r.op, arg := arg, lOp := i.opcode, lArg := arg }

/-! ## Memory (20_memory.md) -/

/-- A host write to system memory while no operation runs writes that byte and no other, and keeps memory in its canonical form (R71). While an operation runs the model gives it no step (R74; log 15). -/
def Obligations.HostMemoryWrites : Prop :=
  ∀ (s : State) (addr : Word) (b : Byte) (rest : List Input), s.inputs = .memWrite addr b :: rest →
    (s.busy = true → step s = .refused .memoryWriteWhileBusy) ∧
    (s.busy = false → s.mem.wf = true → ∃ m : Memory,
      step s = .next { s with inputs := rest, mem := m } ∧ m.wf = true ∧
      ∀ x, m.read x = if x = addr.toNat then b else s.mem.read x)

/-- What `MemRead` returns at each width and byte order, addresses mod 2^32, with little order for the engine of `State.reset`, a decision the spec marks as its own (D18, log 11); element k of a 16-bit buffer is the read at base + 2k (R72). -/
def Obligations.MemoryReads : Prop :=
  (∀ (c : Config) (m : Memory) (addr : Word),
    (memRead c m addr .w8).toNat = (m.read addr.toNat).toNat ∧
    (c.memByteOrder = .little → (memRead c m addr .w16).toNat =
      (m.read ((addr.toNat + 1) % 2 ^ 32)).toNat * 256 + (m.read addr.toNat).toNat) ∧
    (c.memByteOrder = .big → (memRead c m addr .w16).toNat =
      (m.read addr.toNat).toNat * 256 + (m.read ((addr.toNat + 1) % 2 ^ 32)).toNat)) ∧
  (∀ (s : State) (base : Word) (k : Nat), s.busWidth = .w16 → (s.word (.mem base) k).isSome = true →
    s.word (.mem base) k = some (memRead s.cfg s.mem (BitVec.ofNat 32 (base.toNat + 2 * k)) .w16)) ∧
  State.reset.cfg.memByteOrder = .little

/-- No step of the engine writes system memory: a step that is no host write to memory leaves every byte as it was (R70, 00_scope.md R10). The configuration never changes (00_scope.md R6). -/
def Obligations.EngineNeverWritesMemory : Prop :=
  ∀ s t : State, step s = .next t →
    t.cfg = s.cfg ∧
    ((∀ a b, s.inputs.head? ≠ some (.memWrite a b)) → ∀ x, t.mem.read x = s.mem.read x)

/-- A memory read that is not admitted raises BUS_ERROR after every frame before it and before the frame that needed it, in a blocking chunk and in a DMA chunk alike (R73). -/
def Obligations.ReadNotAdmitted : Prop :=
  ∀ (s : State) (source : Source) (off n k : Nat) (as : List Action), k < n →
    (∀ j, j < k → (s.word source (off + j)).isSome = true) → s.word source (off + k) = none →
    s.OkDraws 0 k →
    let sent : State := { s with
      trace := s.trace ++ s.framesFrom source off k, xferDraws := s.xferDraws.drop k }
    (s.src = source → State.Reaches { s with mseq := .sendChunk off n :: as, fsm := .run } (sent.faultedBy .busError)) ∧
    State.Reaches { s with mseq := as, fsm := .waitDma, dma := .active source off n } (sent.faultedBy .busError)

/-- The wire trace only grows, and a reset appends exactly `Reset` (R79). -/
def Obligations.TraceAppendOnly : Prop :=
  ∀ s t : State, step s = .next t →
    ∃ es, t.trace = s.trace ++ es ∧ (s.inputs.head? = some .reset → es = [.reset])

/-- The controller view is computed from the frames of a selected chip and the resets alone: a `Reset` event, or `RstN(0)`, closes the transaction in progress with the data it had received, and data bytes after it and before the next command byte (or the next such event, or the end) form an orphan list placed after it; every other event, a rise of chip-select among them, closes nothing (70_reset_and_hazards.md R352, 20_memory.md R83). The last clause says the same on bytes. -/
def Obligations.ControllerViewAcrossReset : Prop :=
  (∀ a b : List Event, ctrl (a ++ .reset :: b) = ctrl a ++ ctrl b ∧
    ctrl (a ++ .rstN false :: b) = ctrl a ++ ctrl b) ∧
  (∀ (a b : List Event) (e : Event), e ≠ .reset → e ≠ .rstN false → (∀ d w v, e ≠ .frame false d w v) →
    ctrl (a ++ e :: b) = ctrl (a ++ b)) ∧
  (∀ (a data b : List Event) (closing : Event), closing = .reset ∨ closing = .rstN false →
    (∀ e ∈ data, e ≠ .reset ∧ e ≠ .rstN false ∧ ∀ w v, e ≠ .frame false false w v) →
    (∀ e, b.head? = some e → e = .reset ∨ e = .rstN false ∨ ∃ w v, e = .frame false false w v) →
    wireBytes data ≠ [] →
    ctrl (data ++ b) = .orphan ((wireBytes data).map Prod.snd) :: ctrl b ∧
    ctrl (a ++ closing :: (data ++ b)) = ctrl a ++ .orphan ((wireBytes data).map Prod.snd) :: ctrl b) ∧
  ∀ (a : List Event) (ds es : List Byte) (b : Byte), ds ≠ [] →
    let frames (l : List Byte) := l.map fun d => Event.frame false true .w8 (d.setWidth 16)
    ctrl (a ++ .reset :: frames ds) = ctrl a ++ [.orphan ds] ∧
    ctrl (a ++ .reset :: (frames ds ++ .frame false false .w8 (b.setWidth 16) :: frames es)) =
      ctrl a ++ [.orphan ds, .cmd b es]

/-! ## The sequencer, the DMA channel, faults and reset -/

/-- How the sequencer advances in each of its states, and what `finish`, `raise` and the issue of a DMA chunk do to it (10_state.md R37, 42_bulk_transfer.md R185). The model's own choices, which no rule states: the plan and its items `.engine` and `.stall` (log 2), the turn taken with an empty plan (log 3), and the action `hung` (log 7). -/
def Obligations.SequencerAdvances : Prop :=
  ∀ s : State,
    (s.fsm = .idle → s.seqStep = none) ∧ (s.fsm = .faulted → s.seqStep = none) ∧
    (s.fsm = .run → ∀ a rest, s.mseq = a :: rest → a ≠ .hung →
      s.seqStep = some (doAction a { s with mseq := rest })) ∧
    (s.fsm = .waitDma → s.dma ≠ .ready → s.seqStep = none) ∧
    (s.fsm = .waitDma → s.dma = .ready → s.seqStep = some { s with fsm := .run }) ∧
    (∀ r, doAction (.finish r) s = { s with result := r, mseq := [], fsm := .idle }) ∧
    (∀ f, doAction (.raise f) s = s.faultedBy f) ∧
    (∀ off n, (doAction (.issueDma off n) s).fsm = .waitDma) ∧
    (∀ rest, s.inputs = .engine :: rest → step s = .next (State.engineStep { s with inputs := rest })) ∧
    (∀ rest, s.inputs = .stall :: rest → step s = .next { s with inputs := rest }) ∧
    (∀ t, s.seqStep = some t → s.engineStep = t ∧ (s.inputs = [] → step s = .next t)) ∧
    (∀ i, ∃ t, exec i s = .next t ∧ t.fsm = .run ∧ t.mseq.getLast?.map isEnd = some true)

/-- `issue_dma`, the wait, and its end: while the channel is not ready the sequencer has no step, when it is one step takes it back to RUN, and with draws that are OK every frame of the chunk is in the trace before that (42_bulk_transfer.md R185, 20_memory.md R88). -/
def Obligations.DmaWait : Prop :=
  (∀ (s : State) (off n : Nat),
    doAction (.issueDma off n) s = { s with dma := .active s.src off n, fsm := .waitDma }) ∧
  (∀ s : State, s.fsm = .waitDma → (s.dma ≠ .ready → s.seqStep = none) ∧
    (s.dma = .ready → s.seqStep = some { s with fsm := .run })) ∧
  (∀ (s : State) (source : Source) (k n : Nat), s.OkDraws 0 n →
    (∀ j, j < n → (s.word source (k + j)).isSome = true) →
    State.Reaches { s with dma := .active source k n, fsm := .waitDma } { s with
      dma := .ready
      fsm := .run
      trace := s.trace ++ s.framesFrom source k n
      xferDraws := s.xferDraws.drop n })

/-- One step of the DMA channel: the last frame sent makes it ready; otherwise a frame after its read, or BUS_ERROR before it, and then the draw decides (42_bulk_transfer.md R186). -/
def Obligations.DmaChannelStep : Prop :=
  ∀ (s : State),
    (s.dma = .ready → s.dmaStep = none) ∧ (s.dma = .hung → s.dmaStep = none) ∧
    ∀ (source : Source) (k n : Nat),
      (s.dma = .active source k 0 → s.dmaStep = some { s with dma := .ready }) ∧
      (s.dma = .active source k (n + 1) →
        (s.word source k = none → s.dmaStep = some (s.faultedBy .busError)) ∧
        ∀ v d u, s.word source k = some v →
          ({ s with trace := s.trace ++ [.frame s.csN s.dc s.busWidth (frameValue s.busWidth v)] } : State).drawXfer
            = (d, u) →
          (d = .ok → s.dmaStep = some { u with
            dma := .active source (if source.isRep then k else k + 1) n }) ∧
          (d = .fail → s.dmaStep = some (u.faultedBy .transferFault)) ∧
          (d = .hang → s.dmaStep = some { u with dma := .hung }))

/-- A blocking frame, be it the byte of WRITE_COMMAND or WRITE_SMALL_DATA or a frame of a blocking chunk (of WRITE_DATA, TRANSMIT, a fill, an image): one step of the sequencer puts the frame in the trace, and the next step is its draw: OK goes on with what is left of the chunk and of the micro-sequence, FAIL raises TRANSFER_FAULT, HANG leaves an operation that never ends, with BUSY 1; a read that is not admitted is BUS_ERROR with no frame (41_protocol.md R166, 42_bulk_transfer.md R183, 20_memory.md R73). That frame and draw are two steps is the model's reading of 00_scope.md R12 (log 6); that the hang stands as an action `hung` and that a hung engine answers a request with REENTRANT is its reading too (log 7). -/
def Obligations.BlockingFrame : Prop :=
  ∀ (s : State) (a : Action) (as rest : List Action) (v : Half), s.fsm = .run → s.mseq = a :: as →
    (∀ off n, a = .sendChunk off (n + 1) → s.word s.src off = none → s.seqStep = some (s.faultedBy .busError)) ∧
    ((∃ b : Byte, a = .sendByte b ∧ v = b.setWidth 16 ∧ rest = as) ∨
      (∃ off n, a = .sendChunk off (n + 1) ∧ s.word s.src off = some v ∧
        rest = if n = 0 then as else .sendChunk (off + 1) n :: as) →
      let sent : State := { s with
        mseq := .drawXfer :: rest
        trace := s.trace ++ [.frame s.csN s.dc s.busWidth (frameValue s.busWidth v)] }
      s.seqStep = some sent ∧
      ∀ (d : XferOutcome) (u : State), ({ sent with mseq := rest } : State).drawXfer = (d, u) →
        (d = .ok → sent.seqStep = some u) ∧
        (d = .fail → sent.seqStep = some (u.faultedBy .transferFault)) ∧
        (d = .hang →
          let hung : State := { u with mseq := .hung :: rest }
          sent.seqStep = some hung ∧ hung.busy = true ∧
          (s.dma = .ready → ∀ n, State.engineRun n hung = hung)))

/-- A DMA channel that hangs: no turn of the agents changes anything, BUSY stays 1, and no step but a reset, or a request, leaves the hang (42_bulk_transfer.md R187; for the request: log 7). -/
def Obligations.DmaHang : Prop :=
  ∀ s : State, s.fsm = .waitDma → s.dma = .hung →
    (∀ n, s.engineRun n = s) ∧ s.busy = true ∧
    ∀ t, step s = .next t → s.inputs.head? ≠ some .reset →
      (∀ v, s.inputs.head? ≠ some (.host (.write 0x00 .word v))) →
      t.fsm = .waitDma ∧ t.dma = .hung ∧ t.busy = true ∧ t.trace = s.trace ∧ t.result = s.result

/-- Fault entry: the registers it writes, and nothing else (60_exceptions.md R315). -/
def Obligations.FaultEntry : Prop :=
  ∀ (s : State) (f : ErrCode) (o : Byte),
    s.raiseAt f o =
      { s with errCode := f, errOp := o, result := .fault, mseq := [], fsm := .faulted, dma := .ready } ∧
    s.raise f = s.raiseAt f s.lOp ∧
    (s.raiseAt f o).statusWord.getLsbD 0 = false ∧ (s.raiseAt f o).statusWord.getLsbD 1 = true

/-- The fault state is sticky: a step that is no reset changes at most the request registers the host writes, memory, the plan and the bus's answer, whatever is requested; reset returns the engine to IDLE and clears ERR (60_exceptions.md R317). -/
def Obligations.FaultIsSticky : Prop :=
  ∀ s t : State, s.fsm = .faulted → s.dma = .ready → step s = .next t →
    (s.inputs.head? ≠ some .reset → ∃ op arg mem inputs resp,
      t = { s with op := op, arg := arg, mem := mem, inputs := inputs, resp := resp }) ∧
    (s.inputs.head? = some .reset → t.fsm = .idle ∧ t.errCode = .none)

/-- Reset, in any state of the sequencer, gives every row of the reset table its value in one step, appends `Reset`, and leaves the configuration and memory; the state after reset of the model has the same values (70_reset_and_hazards.md R350). -/
def Obligations.ResetValues : Prop :=
  State.reset.AtReset ∧
  ∀ (s : State) (rest : List Input), s.inputs = .reset :: rest → ∃ t,
    step s = .next t ∧ t.AtReset ∧ t.trace = s.trace ++ [.reset] ∧ t.cfg = s.cfg ∧ t.mem = s.mem ∧
    t.inputs = rest ∧ t.readReg 0x20 = s.readReg 0x20 ∧ t.readReg 0x24 = s.readReg 0x24 ∧
    t.readReg 0x28 = s.readReg 0x28

/-- The state after reset meets the invariant. -/
def Obligations.InvariantAtReset : Prop := State.reset.Inv

/-- Every step keeps the invariant: memory canonical; nothing left of an operation in IDLE and FAULTED; the last action of a running one `finish` or `raise`; the DMA channel busy only while the sequencer waits for it, never without DMA, with at most 65535 frames to send; ERR and RESULT hold a fault exactly in FAULTED; the controller deselected between operations and when the running one finishes; `rot` the configured orientation once `rot_set` (41_protocol.md R169, 70_reset_and_hazards.md R365, 60_exceptions.md R317). -/
def Obligations.StepKeepsInvariant : Prop :=
  ∀ s t : State, s.Inv → step s = .next t → t.Inv

/-! ## Checks (60_exceptions.md R316) -/

/-- A reserved operand field that is not 0 raises RESERVED_OPERAND in the operation's first action, with no wire event and nothing else changed (30_encoding.md R109); SET_DMA_MODE without DMA is NO_DMA instead (R316). -/
def Obligations.ReservedOperands : Prop :=
  ∀ (i : Instr) (s : State), i.wellFormed = false →
    (s.cfg.dmaEnabled = true ∨ ∀ w16 inc rsvd, i ≠ .setDmaMode w16 inc rsvd) →
    ∃ b, exec i s = .next b ∧ b.engineStep = s.faultedBy .reservedOperand

/-- Every operation reports the first check of the list that applies to it, a fault or a rejection, in its first action, with no wire event and nothing else changed; one that passes them all ends with `finish(OK)` (R316). -/
def Obligations.CheckOrder : Prop :=
  ∀ (i : Instr) (s : State), ∃ b, exec i s = .next b ∧
    match verdict s i with
    | .faults f => b.engineStep = s.faultedBy f
    | .rejects r => b.engineStep = { s with result := r, mseq := [], fsm := .idle }
    | .passes => b.mseq.getLast? = some (.finish .ok) ∧ b.trace = s.trace

/-! ## What an operation leaves unchanged -/

/-- In every run of an operation, whatever is drawn and however it ends: the configuration, the request registers, the latched request, every byte of memory, the plan and the bus's answer stay; the trace only grows; each register the operation's rule does not list among those it writes stays; ERR changes only with a fault, and RESULT only when the operation ends. -/
def Obligations.OperationFrame : Prop :=
  ∀ (i : Instr) (s b : State) (n : Nat), exec i s = .next b →
    let u := b.engineRun n
    u.cfg = s.cfg ∧ u.op = s.op ∧ u.arg = s.arg ∧ u.lOp = s.lOp ∧ u.lArg = s.lArg ∧
    (∀ x, u.mem.read x = s.mem.read x) ∧ u.inputs = s.inputs ∧ u.resp = s.resp ∧
    (∃ es, u.trace = s.trace ++ es) ∧
    (writesWidth i = false → u.busWidth = s.busWidth) ∧
    (writesDmaMode i = false → u.dmaInc = s.dmaInc ∧ u.dmaWidth = s.dmaWidth) ∧
    (writesRotation i = false → u.rot = s.rot ∧ u.rotSet = s.rotSet) ∧
    (writesInit i = false → u.initDone = s.initDone ∧ u.rstN = s.rstN) ∧
    (drivesLines i = false → u.csN = s.csN ∧ u.dc = s.dc) ∧
    (writesWindow i = false → u.winXs = s.winXs ∧ u.winXe = s.winXe ∧ u.winYs = s.winYs ∧ u.winYe = s.winYe) ∧
    (writesFill i = false → u.fillBuf = s.fillBuf ∧ u.fillColor = s.fillColor) ∧
    (writesTransfer i = false → u.src = s.src ∧ u.rem = s.rem ∧ u.chunk = s.chunk ∧
      (s.dma = .ready → u.dma = .ready)) ∧
    (u.fsm ≠ .faulted → u.errCode = s.errCode ∧ u.errOp = s.errOp) ∧
    (u.busy = true → u.result = s.result)

/-! ## Bus mode (40_bus_mode.md) -/

/-- SET_WORD_WIDTH: nothing but the result at the width it is at; else the width, the event and a draw, OK or RECONFIG_FAULT; a reserved bit set is RESERVED_OPERAND. The state it ends in is given whole (R140). -/
def Obligations.SetWordWidth : Prop :=
  ∀ (s : State) (w16 : Bool),
    let w : Width := if w16 = true then .w16 else .w8
    (s.busWidth = w → Runs (.setWordWidth w16 0) s { s with result := .ok, mseq := [], fsm := .idle }) ∧
    (s.busWidth ≠ w → ∀ d u,
      ({ s with busWidth := w, trace := s.trace ++ [.spiWidth w] } : State).drawReconfig = (d, u) →
      (d = .ok → Runs (.setWordWidth w16 0) s { u with result := .ok, mseq := [], fsm := .idle }) ∧
      (d = .fail → Runs (.setWordWidth w16 0) s (u.faultedBy .reconfigFault))) ∧
    (∀ rsvd, rsvd ≠ 0 → Runs (.setWordWidth w16 rsvd) s (s.faultedBy .reservedOperand))

/-- SET_DMA_MODE: NO_DMA without DMA; nothing but the result at the mode it is at; else both fields, the event and a draw. The state it ends in is given whole (R142). -/
def Obligations.SetDmaMode : Prop :=
  ∀ (s : State) (w16 inc : Bool),
    let w : Width := if w16 = true then .w16 else .w8
    (s.cfg.dmaEnabled = false → ∀ rsvd, Runs (.setDmaMode w16 inc rsvd) s (s.faultedBy .noDma)) ∧
    (s.cfg.dmaEnabled = true →
      (s.dmaInc = inc ∧ s.dmaWidth = w →
        Runs (.setDmaMode w16 inc 0) s { s with result := .ok, mseq := [], fsm := .idle }) ∧
      (¬(s.dmaInc = inc ∧ s.dmaWidth = w) → ∀ d u,
        ({ s with dmaInc := inc, dmaWidth := w, trace := s.trace ++ [.dmaCfg inc w] } : State).drawReconfig = (d, u) →
        (d = .ok → Runs (.setDmaMode w16 inc 0) s { u with result := .ok, mseq := [], fsm := .idle }) ∧
        (d = .fail → Runs (.setDmaMode w16 inc 0) s (u.faultedBy .reconfigFault))) ∧
      (∀ rsvd, rsvd ≠ 0 → Runs (.setDmaMode w16 inc rsvd) s (s.faultedBy .reservedOperand)))

/-- A reconfiguration takes one primitive a step: each register, the event, and the draw with the fault it may raise are steps of their own, so that a host access, a request or a reset may fall between any two (00_scope.md R12, 40_bus_mode.md R140, R141, R142); a read of MODE after the first step of SET_DMA_MODE gives the new DMA_INC beside the old DMA_W16, with no event in the trace yet, and a request there is REENTRANT. That draw and fault are one step ("at once", R141) is the model's reading (log 6). -/
def Obligations.ReconfigurationSteps : Prop :=
  ∀ (s : State) (w : Width) (inc : Bool) (as : List Action), s.fsm = .run →
    (s.mseq = .setWidth w :: as → s.busWidth ≠ w →
      let written : State := { s with busWidth := w, mseq := .emitWidth w :: .drawReconfig :: as }
      let emitted : State := { written with trace := s.trace ++ [.spiWidth w], mseq := .drawReconfig :: as }
      s.seqStep = some written ∧ written.seqStep = some emitted ∧
      ∀ d u, ({ emitted with mseq := as } : State).drawReconfig = (d, u) →
        (d = .ok → emitted.seqStep = some u) ∧ (d = .fail → emitted.seqStep = some (u.faultedBy .reconfigFault))) ∧
    (s.mseq = .setDmaMode inc w :: as → s.cfg.dmaEnabled = true → ¬(s.dmaInc = inc ∧ s.dmaWidth = w) →
      let first : State := { s with
        dmaInc := inc, mseq := .setDmaWidth w :: .emitDmaCfg inc w :: .drawReconfig :: as }
      let written : State := { first with dmaWidth := w, mseq := .emitDmaCfg inc w :: .drawReconfig :: as }
      let emitted : State := { written with trace := s.trace ++ [.dmaCfg inc w], mseq := .drawReconfig :: as }
      s.seqStep = some first ∧ first.seqStep = some written ∧ written.seqStep = some emitted ∧
      (∀ d u, ({ emitted with mseq := as } : State).drawReconfig = (d, u) →
        (d = .ok → emitted.seqStep = some u) ∧ (d = .fail → emitted.seqStep = some (u.faultedBy .reconfigFault))) ∧
      ∀ (is : List Input) (v : Word),
        (s.inputs = .engine :: .host (.read 0x1C .word) :: is → ∃ t mode, runSteps 2 s = .next t ∧
          t.resp = .data mode ∧ mode.getLsbD 1 = inc ∧ (mode.getLsbD 2 = true ↔ s.dmaWidth = .w16) ∧
          t.trace = s.trace) ∧
        (s.inputs = .engine :: .host (.write 0x00 .word v) :: is → ∃ t, runSteps 2 s = .next t ∧
          t.errCode = .reentrant ∧ t.fsm = .faulted ∧ t.dmaInc = inc ∧ t.dmaWidth = s.dmaWidth ∧
          t.trace = s.trace) ∧
        (s.inputs = .engine :: .reset :: is → ∃ t, runSteps 2 s = .next t ∧ t.AtReset ∧
          t.trace = s.trace ++ [.reset]))

/-- Setting a width or a DMA mode twice in a row: at most one event from the first, none from the second, which changes nothing (R143). -/
def Obligations.ReconfigurationIsIdempotent : Prop :=
  ∀ (s : State) (w16 inc : Bool), s.OkDraws 1 0 →
    (∃ t, Runs (.setWordWidth w16 0) s t ∧ t.result = .ok ∧ t.fsm = .idle ∧
      (t.trace = s.trace ∨ ∃ e, t.trace = s.trace ++ [e]) ∧ Runs (.setWordWidth w16 0) t t) ∧
    (s.cfg.dmaEnabled = true → ∃ t, Runs (.setDmaMode w16 inc 0) s t ∧ t.result = .ok ∧ t.fsm = .idle ∧
      (t.trace = s.trace ∨ ∃ e, t.trace = s.trace ++ [e]) ∧ Runs (.setDmaMode w16 inc 0) t t)

/-! ## Protocol (41_protocol.md) -/

/-- WRITE_COMMAND: 8-bit width, selected, command, one frame, deselected; with draws that are OK the state it ends in is given whole (R160). -/
def Obligations.WriteCommand : Prop :=
  ∀ (s : State) (b : Byte), s.OkDraws (if s.busWidth = .w8 then 0 else 1) 1 →
    Runs (.writeCommand b 0) s { s with
      busWidth := .w8
      csN := true
      dc := false
      trace := s.trace ++ (if s.busWidth = .w8 then [] else [.spiWidth .w8]) ++
        [.csN false, .dc false, .frame false false .w8 (b.setWidth 16), .csN true]
      reconfigDraws := if s.busWidth = .w8 then s.reconfigDraws else s.reconfigDraws.drop 1
      xferDraws := s.xferDraws.drop 1
      result := .ok
      mseq := []
      fsm := .idle }

/-- WRITE_SMALL_DATA: the same with the mode line at data (R162). -/
def Obligations.WriteSmallData : Prop :=
  ∀ (s : State) (b : Byte), s.OkDraws (if s.busWidth = .w8 then 0 else 1) 1 →
    Runs (.writeSmallData b 0) s { s with
      busWidth := .w8
      csN := true
      dc := true
      trace := s.trace ++ (if s.busWidth = .w8 then [] else [.spiWidth .w8]) ++
        [.csN false, .dc true, .frame false true .w8 (b.setWidth 16), .csN true]
      reconfigDraws := if s.busWidth = .w8 then s.reconfigDraws else s.reconfigDraws.drop 1
      xferDraws := s.xferDraws.drop 1
      result := .ok
      mseq := []
      fsm := .idle }

/-- WRITE_DATA of a readable buffer that is not misaligned: the run of its micro-sequence ends in the state its rule gives as a whole, every register named; for LEN = 0 that is three line events (R164). -/
def Obligations.WriteData : Prop :=
  ∀ (s : State) (addr len : Word), s.dma = .ready →
    ¬(s.busWidth = .w16 ∧ 1 ≤ len.toNat ∧ addr.toNat % 2 = 1) →
    s.OkDraws 1 len.toNat → s.Readable s.busWidth (.mem addr) len.toNat →
    Runs (.writeData addr len) s ((s.dataWritten (.mem addr) len).finished .ok) ∧
    (len = 0 → s.dataWritten (.mem addr) len = { s with
      src := .mem addr
      rem := 0
      csN := true
      dc := true
      trace := s.trace ++ [.csN false, .dc true, .csN true] })

/-! ## Bulk transfer (42_bulk_transfer.md) -/

/-- TRANSMIT of a readable buffer that is not misaligned: the run of its micro-sequence ends in the state its rule gives as a whole; the lines keep their levels, and LEN = 0 sends nothing (R183). -/
def Obligations.Transmit : Prop :=
  ∀ (s : State) (addr len : Word), s.dma = .ready →
    ¬(s.busWidth = .w16 ∧ 1 ≤ len.toNat ∧ addr.toNat % 2 = 1) →
    s.OkDraws 1 len.toNat → s.Readable s.busWidth (.mem addr) len.toNat →
    Runs (.transmit addr len) s ((s.transferred (.mem addr) len).finished .ok) ∧
    (s.transferred (.mem addr) len).csN = s.csN ∧ (s.transferred (.mem addr) len).dc = s.dc ∧
    (len = 0 → s.transferred (.mem addr) len = { s with src := .mem addr, rem := 0 })

/-- The choice of transport for a chunk, the DMA mode set before a DMA chunk, and the advance after a chunk (R182, R183, R184). -/
def Obligations.TransportChoice : Prop :=
  ∀ (s : State) (off : Nat),
    let n := min s.rem.toNat 65535
    let left := s.rem - BitVec.ofNat 32 s.chunk.toNat
    (s.cfg.dmaEnabled = true → s.cfg.dmaMinSize ≤ n →
      doAction (.startChunk off) s = { s with
        chunk := BitVec.ofNat 16 n
        mseq := [.setDmaMode (!s.src.isRep) s.busWidth, .emitChunk .dma n, .issueDma off n, .endChunk off] ++ s.mseq }) ∧
    (¬(s.cfg.dmaEnabled = true ∧ s.cfg.dmaMinSize ≤ n) →
      doAction (.startChunk off) s = { s with
        chunk := BitVec.ofNat 16 n
        mseq := [.emitChunk .blk n, .sendChunk off n, .endChunk off] ++ s.mseq }) ∧
    (left = 0 → doAction (.endChunk off) s = { s with rem := 0 }) ∧
    (left ≠ 0 → doAction (.endChunk off) s = { s with
      rem := left
      mseq := .startChunk (if s.src.isRep = true then off else off + s.chunk.toNat) :: s.mseq })

/-- The chunk law: a transfer of L frames has ceil(L / 65535) chunks, all but the last of 65535 frames, sizes that sum to L, and exactly the source's frames in order, at the width and lines it started with (R188). -/
def Obligations.ChunkLaw : Prop :=
  ∀ (s : State) (source : Source) (len : Word) (as : List Action), s.dma = .ready → s.OkDraws 1 len.toNat →
    (∀ j, j < len.toNat → (s.word source j).isSome = true) →
    ∃ t es, State.Reaches { s with mseq := .loadTransfer source len :: as, fsm := .run } t ∧
      t.fsm = .run ∧ t.mseq = as ∧ t.rem = 0 ∧ t.trace = s.trace ++ es ∧
      (chunksOf es).length = (len.toNat + 65534) / 65535 ∧
      (∀ n ∈ (chunksOf es).dropLast, n = 65535) ∧
      (∀ n, (chunksOf es).getLast? = some n → n = len.toNat - 65535 * ((len.toNat + 65534) / 65535 - 1)) ∧
      (chunksOf es).sum = len.toNat ∧
      framesOf es = (List.range len.toNat).map fun j =>
        .frame s.csN s.dc s.busWidth (frameValue s.busWidth (s.sourceValue source j))

/-- The frames of a transfer do not depend on the transport: two engines with the same lines, width and source values, and any DMA parameters, send the same frames (R189). -/
def Obligations.TransportIndependence : Prop :=
  ∀ (s s' : State) (source : Source) (len : Word) (as as' : List Action),
    s.dma = .ready → s'.dma = .ready → s.OkDraws 1 len.toNat → s'.OkDraws 1 len.toNat →
    (∀ j, j < len.toNat → (s.word source j).isSome = true ∧ s'.word source j = s.word source j) →
    s'.busWidth = s.busWidth → s'.csN = s.csN → s'.dc = s.dc →
    ∃ t t' es es',
      State.Reaches { s with mseq := .loadTransfer source len :: as, fsm := .run } t ∧ t.mseq = as ∧ t.rem = 0 ∧
      State.Reaches { s' with mseq := .loadTransfer source len :: as', fsm := .run } t' ∧ t'.mseq = as' ∧ t'.rem = 0 ∧
      t.trace = s.trace ++ es ∧ t'.trace = s'.trace ++ es' ∧
      (framesOf es).length = len.toNat ∧ framesOf es' = framesOf es

/-! ## Addressing (43_addressing.md) -/

/-- SET_ADDRESS_WINDOW inside the panel: the run of its micro-sequence ends in the state its rule gives as a whole, with the 8-bit width (R210). -/
def Obligations.SetAddressWindow : Prop :=
  ∀ (s : State) (x0 y0 x1 y1 : Half), s.dma = .ready → s.rotSet = true →
    x0.toNat ≤ x1.toNat → x1.toNat < s.cfg.geo.w.toNat → y0.toNat ≤ y1.toNat → y1.toNat < s.cfg.geo.h.toNat →
    s.OkDraws 5 11 →
    Runs (.setAddressWindow x0 y0 x1 y1) s ((s.windowSet x0 y0 x1 y1).finished .ok) ∧
    (s.windowSet x0 y0 x1 y1).busWidth = .w8

/-- The shift law: the column bytes are X0 + SX and X1 + SX and the row bytes Y0 + SY and Y1 + SY, exact sums split big-endian, after the two commands, and the memory-write command follows; the window registers hold the same sums (R216). -/
def Obligations.ShiftLaw : Prop :=
  ∀ (s : State) (x0 y0 x1 y1 : Half), s.dma = .ready → s.rotSet = true →
    x0.toNat ≤ x1.toNat → x1.toNat < s.cfg.geo.w.toNat → y0.toNat ≤ y1.toNat → y1.toNat < s.cfg.geo.h.toNat →
    s.OkDraws 5 11 →
    let sx := s.cfg.geo.sx.toNat
    let sy := s.cfg.geo.sy.toNat
    ∃ t, Runs (.setAddressWindow x0 y0 x1 y1) s t ∧ t.result = .ok ∧ t.fsm = .idle ∧
      ctrl t.trace = ctrl s.trace ++
        [.cmd s.cfg.cmdCaset (bigEndian (x0.toNat + sx) ++ bigEndian (x1.toNat + sx)),
         .cmd s.cfg.cmdRaset (bigEndian (y0.toNat + sy) ++ bigEndian (y1.toNat + sy)),
         .cmd s.cfg.cmdRamwr []] ∧
      t.winXs.toNat = x0.toNat + sx ∧ t.winXe.toNat = x1.toNat + sx ∧
      t.winYs.toNat = y0.toNat + sy ∧ t.winYe.toNat = y1.toNat + sy

/-- SET_ROTATION with the configured orientation: the run ends in the state its rule gives as a whole, `rot` and `rot_set` written, and the controller receives the orientation command with the pattern (R214). -/
def Obligations.SetRotation : Prop :=
  ∀ s : State, s.OkDraws 2 2 →
    Runs (.setRotation s.cfg.rotationCfg 0) s ((s.rotationSet s.cfg.rotationCfg).finished .ok) ∧
    (s.rotationSet s.cfg.rotationCfg).rot = s.cfg.rotationCfg ∧ (s.rotationSet s.cfg.rotationCfg).rotSet = true ∧
    ctrl (s.rotationSet s.cfg.rotationCfg).trace =
      ctrl s.trace ++ [.cmd s.cfg.cmdMadctl [s.cfg.rotPattern s.cfg.rotationCfg]]

/-! ## Pixel streams (44_pixel_stream.md) -/

/-- FILL_PIXELS: on the DMA path and on the buffer path, for every count, the run ends in the state its rule gives as a whole (R242). -/
def Obligations.FillPixels : Prop :=
  ∀ (s : State) (count : Word) (color : Half), s.dma = .ready → s.OkDraws 3 count.toNat →
    Runs (.fillPixels count color 0) s ((s.pixelsFilled count.toNat color).finished .ok)

/-- The fill law: a fill adds exactly COUNT pixels of COLOR to the data of the open transaction, and no command byte (R243). -/
def Obligations.FillLaw : Prop :=
  ∀ (s : State) (count : Word) (color : Half) (closed : List Txn) (b : Byte) (ds : List Byte),
    s.dma = .ready → s.OkDraws 3 count.toNat →
    viewFrom ⟨[], none⟩ s.trace = ⟨closed, some (.cmd b ds)⟩ →
    ∃ t, Runs (.fillPixels count color 0) s t ∧ t.result = .ok ∧ t.fsm = .idle ∧
      viewFrom ⟨[], none⟩ t.trace = ⟨closed, some (.cmd b (ds ++ pixelData (List.replicate count.toNat color)))⟩ ∧
      pixelStream (pixelData (List.replicate count.toNat color)) = List.replicate count.toNat color

/-- FILL_RECT inside the panel: the run ends in the state its rule gives as a whole, the window and then the fill (R244). -/
def Obligations.FillRect : Prop :=
  ∀ (s : State) (x0 y0 x1 y1 color : Half), s.dma = .ready → s.rotSet = true →
    x0.toNat ≤ x1.toNat → x1.toNat < s.cfg.geo.w.toNat → y0.toNat ≤ y1.toNat → y1.toNat < s.cfg.geo.h.toNat →
    s.OkDraws 8 (11 + (x1.toNat - x0.toNat + 1) * (y1.toNat - y0.toNat + 1)) →
    Runs (.fillRect x0 y0 x1 y1 color 0) s ((s.rectFilled x0 y0 x1 y1 color).finished .ok)

/-- The fill-rectangle law: exactly one column and one row command with the shifted bounds, then one memory-write command with (X1 - X0 + 1)(Y1 - Y0 + 1) pixels, all equal to the colour (R245). -/
def Obligations.FillRectLaw : Prop :=
  ∀ (s : State) (x0 y0 x1 y1 color : Half), s.dma = .ready → s.rotSet = true →
    x0.toNat ≤ x1.toNat → x1.toNat < s.cfg.geo.w.toNat → y0.toNat ≤ y1.toNat → y1.toNat < s.cfg.geo.h.toNat →
    let n := (x1.toNat - x0.toNat + 1) * (y1.toNat - y0.toNat + 1)
    s.OkDraws 8 (11 + n) →
    ∃ t ds, Runs (.fillRect x0 y0 x1 y1 color 0) s t ∧ t.result = .ok ∧ t.fsm = .idle ∧
      ctrl t.trace = ctrl s.trace ++
        [.cmd s.cfg.cmdCaset (bounds (x0 + s.cfg.geo.sx) (x1 + s.cfg.geo.sx)),
         .cmd s.cfg.cmdRaset (bounds (y0 + s.cfg.geo.sy) (y1 + s.cfg.geo.sy)),
         .cmd s.cfg.cmdRamwr ds] ∧
      ds.length = 2 * n ∧ pixelStream ds = List.replicate n color

/-- DRAW_LINE: horizontal and vertical lines inside the panel are the rectangle between the ordered ends, whatever the order of the endpoints; a diagonal line ends NOT_HANDLED with nothing else changed (R246). -/
def Obligations.DrawLine : Prop :=
  ∀ (s : State) (x0 y0 x1 y1 color : Half), s.dma = .ready → s.rotSet = true →
    let x (a b : Half) : Half := if a.toNat ≤ b.toNat then a else b
    let xm (a b : Half) : Half := if a.toNat ≤ b.toNat then b else a
    (y0 = y1 → x0.toNat < s.cfg.geo.w.toNat → x1.toNat < s.cfg.geo.w.toNat → y0.toNat < s.cfg.geo.h.toNat →
      s.OkDraws 8 (11 + (max x0.toNat x1.toNat - min x0.toNat x1.toNat + 1)) →
      Runs (.drawLine x0 y0 x1 y1 color 0) s ((s.rectFilled (x x0 x1) y0 (xm x0 x1) y0 color).finished .ok)) ∧
    (x0 = x1 → y0 ≠ y1 → x0.toNat < s.cfg.geo.w.toNat → y0.toNat < s.cfg.geo.h.toNat → y1.toNat < s.cfg.geo.h.toNat →
      s.OkDraws 8 (11 + (max y0.toNat y1.toNat - min y0.toNat y1.toNat + 1)) →
      Runs (.drawLine x0 y0 x1 y1 color 0) s ((s.rectFilled x0 (x y0 y1) x0 (xm y0 y1) color).finished .ok)) ∧
    (x0 ≠ x1 → y0 ≠ y1 →
      Runs (.drawLine x0 y0 x1 y1 color 0) s { s with result := .notHandled, mseq := [], fsm := .idle })

/-- The line law: however a line is drawn and whatever is drawn by the environment, an operation that has ended is NOT_HANDLED exactly when both coordinates of its ends differ (R247). -/
def Obligations.LineLaw : Prop :=
  ∀ (s b : State) (x0 y0 x1 y1 color : Half) (n : Nat), s.rotSet = true →
    exec (.drawLine x0 y0 x1 y1 color 0) s = .next b → (b.engineRun n).fsm = .idle →
    ((b.engineRun n).result = .notHandled ↔ x0 ≠ x1 ∧ y0 ≠ y1)

/-- DRAW_PIXEL inside the panel: the run ends in the state its rule gives as a whole, and the controller receives a one-pixel window and the pixel's two bytes, high byte first (R248). -/
def Obligations.DrawPixel : Prop :=
  ∀ (s : State) (x y color : Half), s.dma = .ready → s.rotSet = true →
    x.toNat < s.cfg.geo.w.toNat → y.toNat < s.cfg.geo.h.toNat → s.OkDraws 6 13 →
    Runs (.drawPixel x y color 0) s ((s.pixelDrawn x y color).finished .ok) ∧
    ctrl (s.pixelDrawn x y color).trace = ctrl s.trace ++
      [.cmd s.cfg.cmdCaset (bounds (x + s.cfg.geo.sx) (x + s.cfg.geo.sx)),
       .cmd s.cfg.cmdRaset (bounds (y + s.cfg.geo.sy) (y + s.cfg.geo.sy)),
       .cmd s.cfg.cmdRamwr [color.extractLsb' 8 8, color.extractLsb' 0 8]]

/-- DRAW_IMAGE of a readable, aligned 16-bit bitmap inside the panel: the run ends in the state its rule gives as a whole (R250). -/
def Obligations.DrawImage : Prop :=
  ∀ (s : State) (x y bw bh : Half) (addr : Word), s.dma = .ready → s.rotSet = true →
    bw ≠ 0 → bh ≠ 0 → x.toNat + bw.toNat - 1 < s.cfg.geo.w.toNat → y.toNat + bh.toNat - 1 < s.cfg.geo.h.toNat →
    addr.toNat % 2 = 0 → s.Readable .w16 (.mem addr) (bw.toNat * bh.toNat) →
    s.OkDraws 8 (11 + bw.toNat * bh.toNat) →
    Runs (.drawImage x y bw bh 16 addr 0) s ((s.imageDrawn x y bw bh addr).finished .ok)

/-- The blit law: the window of the bitmap's footprint and one memory-write command whose data are exactly the BW·BH values of the buffer in memory order, two bytes each; a rejected bitmap adds nothing to the trace (R251). -/
def Obligations.BlitLaw : Prop :=
  ∀ (s : State) (x y bw bh : Half) (bpp : Byte) (addr : Word),
    (s.dma = .ready → s.rotSet = true → bw ≠ 0 → bh ≠ 0 → bpp = 16 →
      x.toNat + bw.toNat - 1 < s.cfg.geo.w.toNat → y.toNat + bh.toNat - 1 < s.cfg.geo.h.toNat →
      addr.toNat % 2 = 0 → s.Readable .w16 (.mem addr) (bw.toNat * bh.toNat) →
      s.OkDraws 8 (11 + bw.toNat * bh.toNat) →
      ∃ t ds, Runs (.drawImage x y bw bh bpp addr 0) s t ∧ t.result = .ok ∧ t.fsm = .idle ∧
        ctrl t.trace = ctrl s.trace ++
          [.cmd s.cfg.cmdCaset (bigEndian (x.toNat + s.cfg.geo.sx.toNat) ++
            bigEndian (x.toNat + bw.toNat - 1 + s.cfg.geo.sx.toNat)),
           .cmd s.cfg.cmdRaset (bigEndian (y.toNat + s.cfg.geo.sy.toNat) ++
            bigEndian (y.toNat + bh.toNat - 1 + s.cfg.geo.sy.toNat)),
           .cmd s.cfg.cmdRamwr ds] ∧
        ds.length = 2 * (bw.toNat * bh.toNat) ∧
        pixelStream ds = (List.range (bw.toNat * bh.toNat)).map fun j =>
          memRead s.cfg s.mem (BitVec.ofNat 32 (addr.toNat + 2 * j)) .w16) ∧
    (s.rotSet = true → bw ≠ 0 → bh ≠ 0 →
      (s.cfg.geo.w.toNat ≤ x.toNat + bw.toNat - 1 ∨ s.cfg.geo.h.toNat ≤ y.toNat + bh.toNat - 1 ∨ bpp ≠ 16) →
      ∃ t, Runs (.drawImage x y bw bh bpp addr 0) s t ∧ t.fsm = .idle ∧ t.trace = s.trace ∧
        (t.result = .rejectBounds ∨ t.result = .rejectFormat))

/-! ## Initialization (45_init.md) -/

/-- INIT on an engine whose `init_done` is false: the run of its micro-sequence ends in the state its rule gives as a whole, `init_done` and `rot_set` true and `rot` the configured orientation; with enough OK draws for its tables and its clear (R290). -/
def Obligations.Init : Prop :=
  ∀ (s : State) (r x : Nat), s.dma = .ready → s.initDone = false →
    14 + 2 * (s.cfg.initTableA.length + s.cfg.initTableB.length) ≤ r →
    17 + ((s.cfg.initTableA ++ s.cfg.initTableB).map fun e => 1 + e.2.length).sum +
      s.cfg.geo.w.toNat * s.cfg.geo.h.toNat ≤ x →
    s.OkDraws r x →
    Runs .init s (s.initialized.finished .ok) ∧ s.initialized.initDone = true ∧
    s.initialized.rotSet = true ∧ s.initialized.rot = s.cfg.rotationCfg

/-- The command order of an INIT that ends OK: the pulse and the 120 ms hold before the first command, no reset level after it, table A, the orientation, table B, inversion-on, sleep-out, normal-display-on in that order, the clear of the whole panel, W·H pixels of two bytes each, and display-on last (R294). -/
def Obligations.CommandOrder : Prop :=
  ∀ (s : State) (r x : Nat), s.dma = .ready → s.initDone = false →
    14 + 2 * (s.cfg.initTableA.length + s.cfg.initTableB.length) ≤ r →
    17 + ((s.cfg.initTableA ++ s.cfg.initTableB).map fun e => 1 + e.2.length).sum +
      s.cfg.geo.w.toNat * s.cfg.geo.h.toNat ≤ x →
    s.OkDraws r x →
    let c := s.cfg
    ∃ t es ds, Runs .init s t ∧ t.result = .ok ∧ t.fsm = .idle ∧
      t.trace = s.trace ++ [.csN true, .rstN false, .delay 1, .rstN true, .delay 120] ++ es ∧
      (∀ e ∈ es, e ≠ .rstN false ∧ e ≠ .reset) ∧
      ctrl t.trace = ctrl s.trace ++ c.initTableA.map (fun e => .cmd e.1 e.2) ++
        [.cmd c.cmdMadctl [c.rotPattern c.rotationCfg]] ++ c.initTableB.map (fun e => .cmd e.1 e.2) ++
        [.cmd c.cmdInvon [], .cmd c.cmdSlpout [], .cmd c.cmdNoron [],
         .cmd c.cmdCaset (bounds c.geo.sx (c.geo.w - 1 + c.geo.sx)),
         .cmd c.cmdRaset (bounds c.geo.sy (c.geo.h - 1 + c.geo.sy)),
         .cmd c.cmdRamwr ds, .cmd c.cmdDispon []] ∧
      ds.length = 2 * (c.geo.w.toNat * c.geo.h.toNat) ∧
      pixelStream ds = List.replicate (c.geo.w.toNat * c.geo.h.toNat) c.bgColor

/-! ## Configuration (00_scope.md) -/

/-- Parameters are refused unless they meet the constraints: the sizes, the sums with the shifts, the product, the threshold, and the swap of width and height for every variant of the table (R7). -/
def Obligations.ConfigurationConstraints : Prop :=
  ∀ p : Params, Config.check p ≠ none →
    1 ≤ p.geo.w.toNat ∧ 1 ≤ p.geo.h.toNat ∧ p.geo.w.toNat + p.geo.sx.toNat ≤ 65535 ∧
    p.geo.h.toNat + p.geo.sy.toNat ≤ 65535 ∧ p.geo.w.toNat * p.geo.h.toNat ≤ 2 ^ 32 - 1 ∧
    1 ≤ p.dmaMinSize ∧ p.dmaMinSize ≤ 65535 ∧
    ∀ v ∈ p.geometry, v.r1.w = v.r0.h ∧ v.r1.h = v.r0.w ∧ v.r2.w = v.r0.w ∧ v.r2.h = v.r0.h ∧
      v.r3.w = v.r1.w ∧ v.r3.h = v.r1.h

/-- The end-to-end scenario of the source: with the 135×240 panel and rotation 3, GEOM reads 0x008700F0 and SHIFT 0x00350028, in every state, so after INIT as before it (45_init.md R296, 43_addressing.md R212). -/
def Obligations.GeometryReadBack : Prop :=
  ∀ s : State, s.cfg.panelVariant = .p135x240 → s.cfg.rotationCfg = 3 →
    s.readReg 0x20 = 0x008700F0 ∧ s.readReg 0x24 = 0x00350028

end
end

