-- ==== Sys2Proof/Laws/State.lean ====
section
/-! SUPPORT. The fields of the state after each named update: one lemma per field per update, true by definition. -/

namespace Sys2Proof.Machine

/-! ## emit -/

@[simp] theorem State.emit_cfg (e : Event) (s : State) : (s.emit e).cfg = s.cfg := rfl
@[simp] theorem State.emit_op (e : Event) (s : State) : (s.emit e).op = s.op := rfl
@[simp] theorem State.emit_arg (e : Event) (s : State) : (s.emit e).arg = s.arg := rfl
@[simp] theorem State.emit_lOp (e : Event) (s : State) : (s.emit e).lOp = s.lOp := rfl
@[simp] theorem State.emit_lArg (e : Event) (s : State) : (s.emit e).lArg = s.lArg := rfl
@[simp] theorem State.emit_result (e : Event) (s : State) : (s.emit e).result = s.result := rfl
@[simp] theorem State.emit_errCode (e : Event) (s : State) : (s.emit e).errCode = s.errCode := rfl
@[simp] theorem State.emit_errOp (e : Event) (s : State) : (s.emit e).errOp = s.errOp := rfl
@[simp] theorem State.emit_fsm (e : Event) (s : State) : (s.emit e).fsm = s.fsm := rfl
@[simp] theorem State.emit_mseq (e : Event) (s : State) : (s.emit e).mseq = s.mseq := rfl
@[simp] theorem State.emit_busWidth (e : Event) (s : State) : (s.emit e).busWidth = s.busWidth := rfl
@[simp] theorem State.emit_dmaInc (e : Event) (s : State) : (s.emit e).dmaInc = s.dmaInc := rfl
@[simp] theorem State.emit_dmaWidth (e : Event) (s : State) : (s.emit e).dmaWidth = s.dmaWidth := rfl
@[simp] theorem State.emit_rot (e : Event) (s : State) : (s.emit e).rot = s.rot := rfl
@[simp] theorem State.emit_rotSet (e : Event) (s : State) : (s.emit e).rotSet = s.rotSet := rfl
@[simp] theorem State.emit_initDone (e : Event) (s : State) : (s.emit e).initDone = s.initDone := rfl
@[simp] theorem State.emit_csN (e : Event) (s : State) : (s.emit e).csN = s.csN := rfl
@[simp] theorem State.emit_dc (e : Event) (s : State) : (s.emit e).dc = s.dc := rfl
@[simp] theorem State.emit_rstN (e : Event) (s : State) : (s.emit e).rstN = s.rstN := rfl
@[simp] theorem State.emit_winXs (e : Event) (s : State) : (s.emit e).winXs = s.winXs := rfl
@[simp] theorem State.emit_winXe (e : Event) (s : State) : (s.emit e).winXe = s.winXe := rfl
@[simp] theorem State.emit_winYs (e : Event) (s : State) : (s.emit e).winYs = s.winYs := rfl
@[simp] theorem State.emit_winYe (e : Event) (s : State) : (s.emit e).winYe = s.winYe := rfl
@[simp] theorem State.emit_fillBuf (e : Event) (s : State) : (s.emit e).fillBuf = s.fillBuf := rfl
@[simp] theorem State.emit_fillColor (e : Event) (s : State) : (s.emit e).fillColor = s.fillColor := rfl
@[simp] theorem State.emit_src (e : Event) (s : State) : (s.emit e).src = s.src := rfl
@[simp] theorem State.emit_rem (e : Event) (s : State) : (s.emit e).rem = s.rem := rfl
@[simp] theorem State.emit_chunk (e : Event) (s : State) : (s.emit e).chunk = s.chunk := rfl
@[simp] theorem State.emit_dma (e : Event) (s : State) : (s.emit e).dma = s.dma := rfl
@[simp] theorem State.emit_trace (e : Event) (s : State) : (s.emit e).trace = s.trace ++ [e] := rfl
@[simp] theorem State.emit_mem (e : Event) (s : State) : (s.emit e).mem = s.mem := rfl
@[simp] theorem State.emit_inputs (e : Event) (s : State) : (s.emit e).inputs = s.inputs := rfl
@[simp] theorem State.emit_reconfigDraws (e : Event) (s : State) : (s.emit e).reconfigDraws = s.reconfigDraws := rfl
@[simp] theorem State.emit_xferDraws (e : Event) (s : State) : (s.emit e).xferDraws = s.xferDraws := rfl
@[simp] theorem State.emit_freeIx (e : Event) (s : State) : (s.emit e).freeIx = s.freeIx := rfl
@[simp] theorem State.emit_resp (e : Event) (s : State) : (s.emit e).resp = s.resp := rfl

/-! ## driveCs -/

@[simp] theorem State.driveCs_cfg (v : Bool) (s : State) : (s.driveCs v).cfg = s.cfg := rfl
@[simp] theorem State.driveCs_op (v : Bool) (s : State) : (s.driveCs v).op = s.op := rfl
@[simp] theorem State.driveCs_arg (v : Bool) (s : State) : (s.driveCs v).arg = s.arg := rfl
@[simp] theorem State.driveCs_lOp (v : Bool) (s : State) : (s.driveCs v).lOp = s.lOp := rfl
@[simp] theorem State.driveCs_lArg (v : Bool) (s : State) : (s.driveCs v).lArg = s.lArg := rfl
@[simp] theorem State.driveCs_result (v : Bool) (s : State) : (s.driveCs v).result = s.result := rfl
@[simp] theorem State.driveCs_errCode (v : Bool) (s : State) : (s.driveCs v).errCode = s.errCode := rfl
@[simp] theorem State.driveCs_errOp (v : Bool) (s : State) : (s.driveCs v).errOp = s.errOp := rfl
@[simp] theorem State.driveCs_fsm (v : Bool) (s : State) : (s.driveCs v).fsm = s.fsm := rfl
@[simp] theorem State.driveCs_mseq (v : Bool) (s : State) : (s.driveCs v).mseq = s.mseq := rfl
@[simp] theorem State.driveCs_busWidth (v : Bool) (s : State) : (s.driveCs v).busWidth = s.busWidth := rfl
@[simp] theorem State.driveCs_dmaInc (v : Bool) (s : State) : (s.driveCs v).dmaInc = s.dmaInc := rfl
@[simp] theorem State.driveCs_dmaWidth (v : Bool) (s : State) : (s.driveCs v).dmaWidth = s.dmaWidth := rfl
@[simp] theorem State.driveCs_rot (v : Bool) (s : State) : (s.driveCs v).rot = s.rot := rfl
@[simp] theorem State.driveCs_rotSet (v : Bool) (s : State) : (s.driveCs v).rotSet = s.rotSet := rfl
@[simp] theorem State.driveCs_initDone (v : Bool) (s : State) : (s.driveCs v).initDone = s.initDone := rfl
@[simp] theorem State.driveCs_csN (v : Bool) (s : State) : (s.driveCs v).csN = v := rfl
@[simp] theorem State.driveCs_dc (v : Bool) (s : State) : (s.driveCs v).dc = s.dc := rfl
@[simp] theorem State.driveCs_rstN (v : Bool) (s : State) : (s.driveCs v).rstN = s.rstN := rfl
@[simp] theorem State.driveCs_winXs (v : Bool) (s : State) : (s.driveCs v).winXs = s.winXs := rfl
@[simp] theorem State.driveCs_winXe (v : Bool) (s : State) : (s.driveCs v).winXe = s.winXe := rfl
@[simp] theorem State.driveCs_winYs (v : Bool) (s : State) : (s.driveCs v).winYs = s.winYs := rfl
@[simp] theorem State.driveCs_winYe (v : Bool) (s : State) : (s.driveCs v).winYe = s.winYe := rfl
@[simp] theorem State.driveCs_fillBuf (v : Bool) (s : State) : (s.driveCs v).fillBuf = s.fillBuf := rfl
@[simp] theorem State.driveCs_fillColor (v : Bool) (s : State) : (s.driveCs v).fillColor = s.fillColor := rfl
@[simp] theorem State.driveCs_src (v : Bool) (s : State) : (s.driveCs v).src = s.src := rfl
@[simp] theorem State.driveCs_rem (v : Bool) (s : State) : (s.driveCs v).rem = s.rem := rfl
@[simp] theorem State.driveCs_chunk (v : Bool) (s : State) : (s.driveCs v).chunk = s.chunk := rfl
@[simp] theorem State.driveCs_dma (v : Bool) (s : State) : (s.driveCs v).dma = s.dma := rfl
@[simp] theorem State.driveCs_trace (v : Bool) (s : State) : (s.driveCs v).trace = s.trace ++ [.csN v] := rfl
@[simp] theorem State.driveCs_mem (v : Bool) (s : State) : (s.driveCs v).mem = s.mem := rfl
@[simp] theorem State.driveCs_inputs (v : Bool) (s : State) : (s.driveCs v).inputs = s.inputs := rfl
@[simp] theorem State.driveCs_reconfigDraws (v : Bool) (s : State) : (s.driveCs v).reconfigDraws = s.reconfigDraws := rfl
@[simp] theorem State.driveCs_xferDraws (v : Bool) (s : State) : (s.driveCs v).xferDraws = s.xferDraws := rfl
@[simp] theorem State.driveCs_freeIx (v : Bool) (s : State) : (s.driveCs v).freeIx = s.freeIx := rfl
@[simp] theorem State.driveCs_resp (v : Bool) (s : State) : (s.driveCs v).resp = s.resp := rfl

/-! ## driveDc -/

@[simp] theorem State.driveDc_cfg (v : Bool) (s : State) : (s.driveDc v).cfg = s.cfg := rfl
@[simp] theorem State.driveDc_op (v : Bool) (s : State) : (s.driveDc v).op = s.op := rfl
@[simp] theorem State.driveDc_arg (v : Bool) (s : State) : (s.driveDc v).arg = s.arg := rfl
@[simp] theorem State.driveDc_lOp (v : Bool) (s : State) : (s.driveDc v).lOp = s.lOp := rfl
@[simp] theorem State.driveDc_lArg (v : Bool) (s : State) : (s.driveDc v).lArg = s.lArg := rfl
@[simp] theorem State.driveDc_result (v : Bool) (s : State) : (s.driveDc v).result = s.result := rfl
@[simp] theorem State.driveDc_errCode (v : Bool) (s : State) : (s.driveDc v).errCode = s.errCode := rfl
@[simp] theorem State.driveDc_errOp (v : Bool) (s : State) : (s.driveDc v).errOp = s.errOp := rfl
@[simp] theorem State.driveDc_fsm (v : Bool) (s : State) : (s.driveDc v).fsm = s.fsm := rfl
@[simp] theorem State.driveDc_mseq (v : Bool) (s : State) : (s.driveDc v).mseq = s.mseq := rfl
@[simp] theorem State.driveDc_busWidth (v : Bool) (s : State) : (s.driveDc v).busWidth = s.busWidth := rfl
@[simp] theorem State.driveDc_dmaInc (v : Bool) (s : State) : (s.driveDc v).dmaInc = s.dmaInc := rfl
@[simp] theorem State.driveDc_dmaWidth (v : Bool) (s : State) : (s.driveDc v).dmaWidth = s.dmaWidth := rfl
@[simp] theorem State.driveDc_rot (v : Bool) (s : State) : (s.driveDc v).rot = s.rot := rfl
@[simp] theorem State.driveDc_rotSet (v : Bool) (s : State) : (s.driveDc v).rotSet = s.rotSet := rfl
@[simp] theorem State.driveDc_initDone (v : Bool) (s : State) : (s.driveDc v).initDone = s.initDone := rfl
@[simp] theorem State.driveDc_csN (v : Bool) (s : State) : (s.driveDc v).csN = s.csN := rfl
@[simp] theorem State.driveDc_dc (v : Bool) (s : State) : (s.driveDc v).dc = v := rfl
@[simp] theorem State.driveDc_rstN (v : Bool) (s : State) : (s.driveDc v).rstN = s.rstN := rfl
@[simp] theorem State.driveDc_winXs (v : Bool) (s : State) : (s.driveDc v).winXs = s.winXs := rfl
@[simp] theorem State.driveDc_winXe (v : Bool) (s : State) : (s.driveDc v).winXe = s.winXe := rfl
@[simp] theorem State.driveDc_winYs (v : Bool) (s : State) : (s.driveDc v).winYs = s.winYs := rfl
@[simp] theorem State.driveDc_winYe (v : Bool) (s : State) : (s.driveDc v).winYe = s.winYe := rfl
@[simp] theorem State.driveDc_fillBuf (v : Bool) (s : State) : (s.driveDc v).fillBuf = s.fillBuf := rfl
@[simp] theorem State.driveDc_fillColor (v : Bool) (s : State) : (s.driveDc v).fillColor = s.fillColor := rfl
@[simp] theorem State.driveDc_src (v : Bool) (s : State) : (s.driveDc v).src = s.src := rfl
@[simp] theorem State.driveDc_rem (v : Bool) (s : State) : (s.driveDc v).rem = s.rem := rfl
@[simp] theorem State.driveDc_chunk (v : Bool) (s : State) : (s.driveDc v).chunk = s.chunk := rfl
@[simp] theorem State.driveDc_dma (v : Bool) (s : State) : (s.driveDc v).dma = s.dma := rfl
@[simp] theorem State.driveDc_trace (v : Bool) (s : State) : (s.driveDc v).trace = s.trace ++ [.dc v] := rfl
@[simp] theorem State.driveDc_mem (v : Bool) (s : State) : (s.driveDc v).mem = s.mem := rfl
@[simp] theorem State.driveDc_inputs (v : Bool) (s : State) : (s.driveDc v).inputs = s.inputs := rfl
@[simp] theorem State.driveDc_reconfigDraws (v : Bool) (s : State) : (s.driveDc v).reconfigDraws = s.reconfigDraws := rfl
@[simp] theorem State.driveDc_xferDraws (v : Bool) (s : State) : (s.driveDc v).xferDraws = s.xferDraws := rfl
@[simp] theorem State.driveDc_freeIx (v : Bool) (s : State) : (s.driveDc v).freeIx = s.freeIx := rfl
@[simp] theorem State.driveDc_resp (v : Bool) (s : State) : (s.driveDc v).resp = s.resp := rfl

/-! ## driveRst -/

@[simp] theorem State.driveRst_cfg (v : Bool) (s : State) : (s.driveRst v).cfg = s.cfg := rfl
@[simp] theorem State.driveRst_op (v : Bool) (s : State) : (s.driveRst v).op = s.op := rfl
@[simp] theorem State.driveRst_arg (v : Bool) (s : State) : (s.driveRst v).arg = s.arg := rfl
@[simp] theorem State.driveRst_lOp (v : Bool) (s : State) : (s.driveRst v).lOp = s.lOp := rfl
@[simp] theorem State.driveRst_lArg (v : Bool) (s : State) : (s.driveRst v).lArg = s.lArg := rfl
@[simp] theorem State.driveRst_result (v : Bool) (s : State) : (s.driveRst v).result = s.result := rfl
@[simp] theorem State.driveRst_errCode (v : Bool) (s : State) : (s.driveRst v).errCode = s.errCode := rfl
@[simp] theorem State.driveRst_errOp (v : Bool) (s : State) : (s.driveRst v).errOp = s.errOp := rfl
@[simp] theorem State.driveRst_fsm (v : Bool) (s : State) : (s.driveRst v).fsm = s.fsm := rfl
@[simp] theorem State.driveRst_mseq (v : Bool) (s : State) : (s.driveRst v).mseq = s.mseq := rfl
@[simp] theorem State.driveRst_busWidth (v : Bool) (s : State) : (s.driveRst v).busWidth = s.busWidth := rfl
@[simp] theorem State.driveRst_dmaInc (v : Bool) (s : State) : (s.driveRst v).dmaInc = s.dmaInc := rfl
@[simp] theorem State.driveRst_dmaWidth (v : Bool) (s : State) : (s.driveRst v).dmaWidth = s.dmaWidth := rfl
@[simp] theorem State.driveRst_rot (v : Bool) (s : State) : (s.driveRst v).rot = s.rot := rfl
@[simp] theorem State.driveRst_rotSet (v : Bool) (s : State) : (s.driveRst v).rotSet = s.rotSet := rfl
@[simp] theorem State.driveRst_initDone (v : Bool) (s : State) : (s.driveRst v).initDone = s.initDone := rfl
@[simp] theorem State.driveRst_csN (v : Bool) (s : State) : (s.driveRst v).csN = s.csN := rfl
@[simp] theorem State.driveRst_dc (v : Bool) (s : State) : (s.driveRst v).dc = s.dc := rfl
@[simp] theorem State.driveRst_rstN (v : Bool) (s : State) : (s.driveRst v).rstN = v := rfl
@[simp] theorem State.driveRst_winXs (v : Bool) (s : State) : (s.driveRst v).winXs = s.winXs := rfl
@[simp] theorem State.driveRst_winXe (v : Bool) (s : State) : (s.driveRst v).winXe = s.winXe := rfl
@[simp] theorem State.driveRst_winYs (v : Bool) (s : State) : (s.driveRst v).winYs = s.winYs := rfl
@[simp] theorem State.driveRst_winYe (v : Bool) (s : State) : (s.driveRst v).winYe = s.winYe := rfl
@[simp] theorem State.driveRst_fillBuf (v : Bool) (s : State) : (s.driveRst v).fillBuf = s.fillBuf := rfl
@[simp] theorem State.driveRst_fillColor (v : Bool) (s : State) : (s.driveRst v).fillColor = s.fillColor := rfl
@[simp] theorem State.driveRst_src (v : Bool) (s : State) : (s.driveRst v).src = s.src := rfl
@[simp] theorem State.driveRst_rem (v : Bool) (s : State) : (s.driveRst v).rem = s.rem := rfl
@[simp] theorem State.driveRst_chunk (v : Bool) (s : State) : (s.driveRst v).chunk = s.chunk := rfl
@[simp] theorem State.driveRst_dma (v : Bool) (s : State) : (s.driveRst v).dma = s.dma := rfl
@[simp] theorem State.driveRst_trace (v : Bool) (s : State) : (s.driveRst v).trace = s.trace ++ [.rstN v] := rfl
@[simp] theorem State.driveRst_mem (v : Bool) (s : State) : (s.driveRst v).mem = s.mem := rfl
@[simp] theorem State.driveRst_inputs (v : Bool) (s : State) : (s.driveRst v).inputs = s.inputs := rfl
@[simp] theorem State.driveRst_reconfigDraws (v : Bool) (s : State) : (s.driveRst v).reconfigDraws = s.reconfigDraws := rfl
@[simp] theorem State.driveRst_xferDraws (v : Bool) (s : State) : (s.driveRst v).xferDraws = s.xferDraws := rfl
@[simp] theorem State.driveRst_freeIx (v : Bool) (s : State) : (s.driveRst v).freeIx = s.freeIx := rfl
@[simp] theorem State.driveRst_resp (v : Bool) (s : State) : (s.driveRst v).resp = s.resp := rfl

/-! ## raiseAt -/

@[simp] theorem State.raiseAt_cfg (f : ErrCode) (o : Byte) (s : State) : (s.raiseAt f o).cfg = s.cfg := rfl
@[simp] theorem State.raiseAt_op (f : ErrCode) (o : Byte) (s : State) : (s.raiseAt f o).op = s.op := rfl
@[simp] theorem State.raiseAt_arg (f : ErrCode) (o : Byte) (s : State) : (s.raiseAt f o).arg = s.arg := rfl
@[simp] theorem State.raiseAt_lOp (f : ErrCode) (o : Byte) (s : State) : (s.raiseAt f o).lOp = s.lOp := rfl
@[simp] theorem State.raiseAt_lArg (f : ErrCode) (o : Byte) (s : State) : (s.raiseAt f o).lArg = s.lArg := rfl
@[simp] theorem State.raiseAt_result (f : ErrCode) (o : Byte) (s : State) : (s.raiseAt f o).result = .fault := rfl
@[simp] theorem State.raiseAt_errCode (f : ErrCode) (o : Byte) (s : State) : (s.raiseAt f o).errCode = f := rfl
@[simp] theorem State.raiseAt_errOp (f : ErrCode) (o : Byte) (s : State) : (s.raiseAt f o).errOp = o := rfl
@[simp] theorem State.raiseAt_fsm (f : ErrCode) (o : Byte) (s : State) : (s.raiseAt f o).fsm = .faulted := rfl
@[simp] theorem State.raiseAt_mseq (f : ErrCode) (o : Byte) (s : State) : (s.raiseAt f o).mseq = [] := rfl
@[simp] theorem State.raiseAt_busWidth (f : ErrCode) (o : Byte) (s : State) : (s.raiseAt f o).busWidth = s.busWidth := rfl
@[simp] theorem State.raiseAt_dmaInc (f : ErrCode) (o : Byte) (s : State) : (s.raiseAt f o).dmaInc = s.dmaInc := rfl
@[simp] theorem State.raiseAt_dmaWidth (f : ErrCode) (o : Byte) (s : State) : (s.raiseAt f o).dmaWidth = s.dmaWidth := rfl
@[simp] theorem State.raiseAt_rot (f : ErrCode) (o : Byte) (s : State) : (s.raiseAt f o).rot = s.rot := rfl
@[simp] theorem State.raiseAt_rotSet (f : ErrCode) (o : Byte) (s : State) : (s.raiseAt f o).rotSet = s.rotSet := rfl
@[simp] theorem State.raiseAt_initDone (f : ErrCode) (o : Byte) (s : State) : (s.raiseAt f o).initDone = s.initDone := rfl
@[simp] theorem State.raiseAt_csN (f : ErrCode) (o : Byte) (s : State) : (s.raiseAt f o).csN = s.csN := rfl
@[simp] theorem State.raiseAt_dc (f : ErrCode) (o : Byte) (s : State) : (s.raiseAt f o).dc = s.dc := rfl
@[simp] theorem State.raiseAt_rstN (f : ErrCode) (o : Byte) (s : State) : (s.raiseAt f o).rstN = s.rstN := rfl
@[simp] theorem State.raiseAt_winXs (f : ErrCode) (o : Byte) (s : State) : (s.raiseAt f o).winXs = s.winXs := rfl
@[simp] theorem State.raiseAt_winXe (f : ErrCode) (o : Byte) (s : State) : (s.raiseAt f o).winXe = s.winXe := rfl
@[simp] theorem State.raiseAt_winYs (f : ErrCode) (o : Byte) (s : State) : (s.raiseAt f o).winYs = s.winYs := rfl
@[simp] theorem State.raiseAt_winYe (f : ErrCode) (o : Byte) (s : State) : (s.raiseAt f o).winYe = s.winYe := rfl
@[simp] theorem State.raiseAt_fillBuf (f : ErrCode) (o : Byte) (s : State) : (s.raiseAt f o).fillBuf = s.fillBuf := rfl
@[simp] theorem State.raiseAt_fillColor (f : ErrCode) (o : Byte) (s : State) : (s.raiseAt f o).fillColor = s.fillColor := rfl
@[simp] theorem State.raiseAt_src (f : ErrCode) (o : Byte) (s : State) : (s.raiseAt f o).src = s.src := rfl
@[simp] theorem State.raiseAt_rem (f : ErrCode) (o : Byte) (s : State) : (s.raiseAt f o).rem = s.rem := rfl
@[simp] theorem State.raiseAt_chunk (f : ErrCode) (o : Byte) (s : State) : (s.raiseAt f o).chunk = s.chunk := rfl
@[simp] theorem State.raiseAt_dma (f : ErrCode) (o : Byte) (s : State) : (s.raiseAt f o).dma = .ready := rfl
@[simp] theorem State.raiseAt_trace (f : ErrCode) (o : Byte) (s : State) : (s.raiseAt f o).trace = s.trace := rfl
@[simp] theorem State.raiseAt_mem (f : ErrCode) (o : Byte) (s : State) : (s.raiseAt f o).mem = s.mem := rfl
@[simp] theorem State.raiseAt_inputs (f : ErrCode) (o : Byte) (s : State) : (s.raiseAt f o).inputs = s.inputs := rfl
@[simp] theorem State.raiseAt_reconfigDraws (f : ErrCode) (o : Byte) (s : State) : (s.raiseAt f o).reconfigDraws = s.reconfigDraws := rfl
@[simp] theorem State.raiseAt_xferDraws (f : ErrCode) (o : Byte) (s : State) : (s.raiseAt f o).xferDraws = s.xferDraws := rfl
@[simp] theorem State.raiseAt_freeIx (f : ErrCode) (o : Byte) (s : State) : (s.raiseAt f o).freeIx = s.freeIx := rfl
@[simp] theorem State.raiseAt_resp (f : ErrCode) (o : Byte) (s : State) : (s.raiseAt f o).resp = s.resp := rfl

/-! ## raise -/

@[simp] theorem State.raise_cfg (f : ErrCode) (s : State) : (s.raise f).cfg = s.cfg := rfl
@[simp] theorem State.raise_op (f : ErrCode) (s : State) : (s.raise f).op = s.op := rfl
@[simp] theorem State.raise_arg (f : ErrCode) (s : State) : (s.raise f).arg = s.arg := rfl
@[simp] theorem State.raise_lOp (f : ErrCode) (s : State) : (s.raise f).lOp = s.lOp := rfl
@[simp] theorem State.raise_lArg (f : ErrCode) (s : State) : (s.raise f).lArg = s.lArg := rfl
@[simp] theorem State.raise_result (f : ErrCode) (s : State) : (s.raise f).result = .fault := rfl
@[simp] theorem State.raise_errCode (f : ErrCode) (s : State) : (s.raise f).errCode = f := rfl
@[simp] theorem State.raise_errOp (f : ErrCode) (s : State) : (s.raise f).errOp = s.lOp := rfl
@[simp] theorem State.raise_fsm (f : ErrCode) (s : State) : (s.raise f).fsm = .faulted := rfl
@[simp] theorem State.raise_mseq (f : ErrCode) (s : State) : (s.raise f).mseq = [] := rfl
@[simp] theorem State.raise_busWidth (f : ErrCode) (s : State) : (s.raise f).busWidth = s.busWidth := rfl
@[simp] theorem State.raise_dmaInc (f : ErrCode) (s : State) : (s.raise f).dmaInc = s.dmaInc := rfl
@[simp] theorem State.raise_dmaWidth (f : ErrCode) (s : State) : (s.raise f).dmaWidth = s.dmaWidth := rfl
@[simp] theorem State.raise_rot (f : ErrCode) (s : State) : (s.raise f).rot = s.rot := rfl
@[simp] theorem State.raise_rotSet (f : ErrCode) (s : State) : (s.raise f).rotSet = s.rotSet := rfl
@[simp] theorem State.raise_initDone (f : ErrCode) (s : State) : (s.raise f).initDone = s.initDone := rfl
@[simp] theorem State.raise_csN (f : ErrCode) (s : State) : (s.raise f).csN = s.csN := rfl
@[simp] theorem State.raise_dc (f : ErrCode) (s : State) : (s.raise f).dc = s.dc := rfl
@[simp] theorem State.raise_rstN (f : ErrCode) (s : State) : (s.raise f).rstN = s.rstN := rfl
@[simp] theorem State.raise_winXs (f : ErrCode) (s : State) : (s.raise f).winXs = s.winXs := rfl
@[simp] theorem State.raise_winXe (f : ErrCode) (s : State) : (s.raise f).winXe = s.winXe := rfl
@[simp] theorem State.raise_winYs (f : ErrCode) (s : State) : (s.raise f).winYs = s.winYs := rfl
@[simp] theorem State.raise_winYe (f : ErrCode) (s : State) : (s.raise f).winYe = s.winYe := rfl
@[simp] theorem State.raise_fillBuf (f : ErrCode) (s : State) : (s.raise f).fillBuf = s.fillBuf := rfl
@[simp] theorem State.raise_fillColor (f : ErrCode) (s : State) : (s.raise f).fillColor = s.fillColor := rfl
@[simp] theorem State.raise_src (f : ErrCode) (s : State) : (s.raise f).src = s.src := rfl
@[simp] theorem State.raise_rem (f : ErrCode) (s : State) : (s.raise f).rem = s.rem := rfl
@[simp] theorem State.raise_chunk (f : ErrCode) (s : State) : (s.raise f).chunk = s.chunk := rfl
@[simp] theorem State.raise_dma (f : ErrCode) (s : State) : (s.raise f).dma = .ready := rfl
@[simp] theorem State.raise_trace (f : ErrCode) (s : State) : (s.raise f).trace = s.trace := rfl
@[simp] theorem State.raise_mem (f : ErrCode) (s : State) : (s.raise f).mem = s.mem := rfl
@[simp] theorem State.raise_inputs (f : ErrCode) (s : State) : (s.raise f).inputs = s.inputs := rfl
@[simp] theorem State.raise_reconfigDraws (f : ErrCode) (s : State) : (s.raise f).reconfigDraws = s.reconfigDraws := rfl
@[simp] theorem State.raise_xferDraws (f : ErrCode) (s : State) : (s.raise f).xferDraws = s.xferDraws := rfl
@[simp] theorem State.raise_freeIx (f : ErrCode) (s : State) : (s.raise f).freeIx = s.freeIx := rfl
@[simp] theorem State.raise_resp (f : ErrCode) (s : State) : (s.raise f).resp = s.resp := rfl

/-! ## finish -/

@[simp] theorem State.finish_cfg (r : ResultCode) (s : State) : (s.finish r).cfg = s.cfg := rfl
@[simp] theorem State.finish_op (r : ResultCode) (s : State) : (s.finish r).op = s.op := rfl
@[simp] theorem State.finish_arg (r : ResultCode) (s : State) : (s.finish r).arg = s.arg := rfl
@[simp] theorem State.finish_lOp (r : ResultCode) (s : State) : (s.finish r).lOp = s.lOp := rfl
@[simp] theorem State.finish_lArg (r : ResultCode) (s : State) : (s.finish r).lArg = s.lArg := rfl
@[simp] theorem State.finish_result (r : ResultCode) (s : State) : (s.finish r).result = r := rfl
@[simp] theorem State.finish_errCode (r : ResultCode) (s : State) : (s.finish r).errCode = s.errCode := rfl
@[simp] theorem State.finish_errOp (r : ResultCode) (s : State) : (s.finish r).errOp = s.errOp := rfl
@[simp] theorem State.finish_fsm (r : ResultCode) (s : State) : (s.finish r).fsm = .idle := rfl
@[simp] theorem State.finish_mseq (r : ResultCode) (s : State) : (s.finish r).mseq = [] := rfl
@[simp] theorem State.finish_busWidth (r : ResultCode) (s : State) : (s.finish r).busWidth = s.busWidth := rfl
@[simp] theorem State.finish_dmaInc (r : ResultCode) (s : State) : (s.finish r).dmaInc = s.dmaInc := rfl
@[simp] theorem State.finish_dmaWidth (r : ResultCode) (s : State) : (s.finish r).dmaWidth = s.dmaWidth := rfl
@[simp] theorem State.finish_rot (r : ResultCode) (s : State) : (s.finish r).rot = s.rot := rfl
@[simp] theorem State.finish_rotSet (r : ResultCode) (s : State) : (s.finish r).rotSet = s.rotSet := rfl
@[simp] theorem State.finish_initDone (r : ResultCode) (s : State) : (s.finish r).initDone = s.initDone := rfl
@[simp] theorem State.finish_csN (r : ResultCode) (s : State) : (s.finish r).csN = s.csN := rfl
@[simp] theorem State.finish_dc (r : ResultCode) (s : State) : (s.finish r).dc = s.dc := rfl
@[simp] theorem State.finish_rstN (r : ResultCode) (s : State) : (s.finish r).rstN = s.rstN := rfl
@[simp] theorem State.finish_winXs (r : ResultCode) (s : State) : (s.finish r).winXs = s.winXs := rfl
@[simp] theorem State.finish_winXe (r : ResultCode) (s : State) : (s.finish r).winXe = s.winXe := rfl
@[simp] theorem State.finish_winYs (r : ResultCode) (s : State) : (s.finish r).winYs = s.winYs := rfl
@[simp] theorem State.finish_winYe (r : ResultCode) (s : State) : (s.finish r).winYe = s.winYe := rfl
@[simp] theorem State.finish_fillBuf (r : ResultCode) (s : State) : (s.finish r).fillBuf = s.fillBuf := rfl
@[simp] theorem State.finish_fillColor (r : ResultCode) (s : State) : (s.finish r).fillColor = s.fillColor := rfl
@[simp] theorem State.finish_src (r : ResultCode) (s : State) : (s.finish r).src = s.src := rfl
@[simp] theorem State.finish_rem (r : ResultCode) (s : State) : (s.finish r).rem = s.rem := rfl
@[simp] theorem State.finish_chunk (r : ResultCode) (s : State) : (s.finish r).chunk = s.chunk := rfl
@[simp] theorem State.finish_dma (r : ResultCode) (s : State) : (s.finish r).dma = s.dma := rfl
@[simp] theorem State.finish_trace (r : ResultCode) (s : State) : (s.finish r).trace = s.trace := rfl
@[simp] theorem State.finish_mem (r : ResultCode) (s : State) : (s.finish r).mem = s.mem := rfl
@[simp] theorem State.finish_inputs (r : ResultCode) (s : State) : (s.finish r).inputs = s.inputs := rfl
@[simp] theorem State.finish_reconfigDraws (r : ResultCode) (s : State) : (s.finish r).reconfigDraws = s.reconfigDraws := rfl
@[simp] theorem State.finish_xferDraws (r : ResultCode) (s : State) : (s.finish r).xferDraws = s.xferDraws := rfl
@[simp] theorem State.finish_freeIx (r : ResultCode) (s : State) : (s.finish r).freeIx = s.freeIx := rfl
@[simp] theorem State.finish_resp (r : ResultCode) (s : State) : (s.finish r).resp = s.resp := rfl

/-! ## pushActions -/

@[simp] theorem State.pushActions_cfg (as : List Action) (s : State) : (s.pushActions as).cfg = s.cfg := rfl
@[simp] theorem State.pushActions_op (as : List Action) (s : State) : (s.pushActions as).op = s.op := rfl
@[simp] theorem State.pushActions_arg (as : List Action) (s : State) : (s.pushActions as).arg = s.arg := rfl
@[simp] theorem State.pushActions_lOp (as : List Action) (s : State) : (s.pushActions as).lOp = s.lOp := rfl
@[simp] theorem State.pushActions_lArg (as : List Action) (s : State) : (s.pushActions as).lArg = s.lArg := rfl
@[simp] theorem State.pushActions_result (as : List Action) (s : State) : (s.pushActions as).result = s.result := rfl
@[simp] theorem State.pushActions_errCode (as : List Action) (s : State) : (s.pushActions as).errCode = s.errCode := rfl
@[simp] theorem State.pushActions_errOp (as : List Action) (s : State) : (s.pushActions as).errOp = s.errOp := rfl
@[simp] theorem State.pushActions_fsm (as : List Action) (s : State) : (s.pushActions as).fsm = s.fsm := rfl
@[simp] theorem State.pushActions_mseq (as : List Action) (s : State) : (s.pushActions as).mseq = as ++ s.mseq := rfl
@[simp] theorem State.pushActions_busWidth (as : List Action) (s : State) : (s.pushActions as).busWidth = s.busWidth := rfl
@[simp] theorem State.pushActions_dmaInc (as : List Action) (s : State) : (s.pushActions as).dmaInc = s.dmaInc := rfl
@[simp] theorem State.pushActions_dmaWidth (as : List Action) (s : State) : (s.pushActions as).dmaWidth = s.dmaWidth := rfl
@[simp] theorem State.pushActions_rot (as : List Action) (s : State) : (s.pushActions as).rot = s.rot := rfl
@[simp] theorem State.pushActions_rotSet (as : List Action) (s : State) : (s.pushActions as).rotSet = s.rotSet := rfl
@[simp] theorem State.pushActions_initDone (as : List Action) (s : State) : (s.pushActions as).initDone = s.initDone := rfl
@[simp] theorem State.pushActions_csN (as : List Action) (s : State) : (s.pushActions as).csN = s.csN := rfl
@[simp] theorem State.pushActions_dc (as : List Action) (s : State) : (s.pushActions as).dc = s.dc := rfl
@[simp] theorem State.pushActions_rstN (as : List Action) (s : State) : (s.pushActions as).rstN = s.rstN := rfl
@[simp] theorem State.pushActions_winXs (as : List Action) (s : State) : (s.pushActions as).winXs = s.winXs := rfl
@[simp] theorem State.pushActions_winXe (as : List Action) (s : State) : (s.pushActions as).winXe = s.winXe := rfl
@[simp] theorem State.pushActions_winYs (as : List Action) (s : State) : (s.pushActions as).winYs = s.winYs := rfl
@[simp] theorem State.pushActions_winYe (as : List Action) (s : State) : (s.pushActions as).winYe = s.winYe := rfl
@[simp] theorem State.pushActions_fillBuf (as : List Action) (s : State) : (s.pushActions as).fillBuf = s.fillBuf := rfl
@[simp] theorem State.pushActions_fillColor (as : List Action) (s : State) : (s.pushActions as).fillColor = s.fillColor := rfl
@[simp] theorem State.pushActions_src (as : List Action) (s : State) : (s.pushActions as).src = s.src := rfl
@[simp] theorem State.pushActions_rem (as : List Action) (s : State) : (s.pushActions as).rem = s.rem := rfl
@[simp] theorem State.pushActions_chunk (as : List Action) (s : State) : (s.pushActions as).chunk = s.chunk := rfl
@[simp] theorem State.pushActions_dma (as : List Action) (s : State) : (s.pushActions as).dma = s.dma := rfl
@[simp] theorem State.pushActions_trace (as : List Action) (s : State) : (s.pushActions as).trace = s.trace := rfl
@[simp] theorem State.pushActions_mem (as : List Action) (s : State) : (s.pushActions as).mem = s.mem := rfl
@[simp] theorem State.pushActions_inputs (as : List Action) (s : State) : (s.pushActions as).inputs = s.inputs := rfl
@[simp] theorem State.pushActions_reconfigDraws (as : List Action) (s : State) : (s.pushActions as).reconfigDraws = s.reconfigDraws := rfl
@[simp] theorem State.pushActions_xferDraws (as : List Action) (s : State) : (s.pushActions as).xferDraws = s.xferDraws := rfl
@[simp] theorem State.pushActions_freeIx (as : List Action) (s : State) : (s.pushActions as).freeIx = s.freeIx := rfl
@[simp] theorem State.pushActions_resp (as : List Action) (s : State) : (s.pushActions as).resp = s.resp := rfl

/-! ## latch -/

@[simp] theorem State.latch_cfg (s : State) : (s.latch).cfg = s.cfg := rfl
@[simp] theorem State.latch_op (s : State) : (s.latch).op = s.op := rfl
@[simp] theorem State.latch_arg (s : State) : (s.latch).arg = s.arg := rfl
@[simp] theorem State.latch_lOp (s : State) : (s.latch).lOp = s.op.extractLsb' 0 8 := rfl
@[simp] theorem State.latch_lArg (s : State) : (s.latch).lArg = s.arg := rfl
@[simp] theorem State.latch_result (s : State) : (s.latch).result = s.result := rfl
@[simp] theorem State.latch_errCode (s : State) : (s.latch).errCode = s.errCode := rfl
@[simp] theorem State.latch_errOp (s : State) : (s.latch).errOp = s.errOp := rfl
@[simp] theorem State.latch_fsm (s : State) : (s.latch).fsm = s.fsm := rfl
@[simp] theorem State.latch_mseq (s : State) : (s.latch).mseq = s.mseq := rfl
@[simp] theorem State.latch_busWidth (s : State) : (s.latch).busWidth = s.busWidth := rfl
@[simp] theorem State.latch_dmaInc (s : State) : (s.latch).dmaInc = s.dmaInc := rfl
@[simp] theorem State.latch_dmaWidth (s : State) : (s.latch).dmaWidth = s.dmaWidth := rfl
@[simp] theorem State.latch_rot (s : State) : (s.latch).rot = s.rot := rfl
@[simp] theorem State.latch_rotSet (s : State) : (s.latch).rotSet = s.rotSet := rfl
@[simp] theorem State.latch_initDone (s : State) : (s.latch).initDone = s.initDone := rfl
@[simp] theorem State.latch_csN (s : State) : (s.latch).csN = s.csN := rfl
@[simp] theorem State.latch_dc (s : State) : (s.latch).dc = s.dc := rfl
@[simp] theorem State.latch_rstN (s : State) : (s.latch).rstN = s.rstN := rfl
@[simp] theorem State.latch_winXs (s : State) : (s.latch).winXs = s.winXs := rfl
@[simp] theorem State.latch_winXe (s : State) : (s.latch).winXe = s.winXe := rfl
@[simp] theorem State.latch_winYs (s : State) : (s.latch).winYs = s.winYs := rfl
@[simp] theorem State.latch_winYe (s : State) : (s.latch).winYe = s.winYe := rfl
@[simp] theorem State.latch_fillBuf (s : State) : (s.latch).fillBuf = s.fillBuf := rfl
@[simp] theorem State.latch_fillColor (s : State) : (s.latch).fillColor = s.fillColor := rfl
@[simp] theorem State.latch_src (s : State) : (s.latch).src = s.src := rfl
@[simp] theorem State.latch_rem (s : State) : (s.latch).rem = s.rem := rfl
@[simp] theorem State.latch_chunk (s : State) : (s.latch).chunk = s.chunk := rfl
@[simp] theorem State.latch_dma (s : State) : (s.latch).dma = s.dma := rfl
@[simp] theorem State.latch_trace (s : State) : (s.latch).trace = s.trace := rfl
@[simp] theorem State.latch_mem (s : State) : (s.latch).mem = s.mem := rfl
@[simp] theorem State.latch_inputs (s : State) : (s.latch).inputs = s.inputs := rfl
@[simp] theorem State.latch_reconfigDraws (s : State) : (s.latch).reconfigDraws = s.reconfigDraws := rfl
@[simp] theorem State.latch_xferDraws (s : State) : (s.latch).xferDraws = s.xferDraws := rfl
@[simp] theorem State.latch_freeIx (s : State) : (s.latch).freeIx = s.freeIx := rfl
@[simp] theorem State.latch_resp (s : State) : (s.latch).resp = s.resp := rfl

/-! ## issueDma -/

@[simp] theorem State.issueDma_cfg (off n : Nat) (s : State) : (s.issueDma off n).cfg = s.cfg := rfl
@[simp] theorem State.issueDma_op (off n : Nat) (s : State) : (s.issueDma off n).op = s.op := rfl
@[simp] theorem State.issueDma_arg (off n : Nat) (s : State) : (s.issueDma off n).arg = s.arg := rfl
@[simp] theorem State.issueDma_lOp (off n : Nat) (s : State) : (s.issueDma off n).lOp = s.lOp := rfl
@[simp] theorem State.issueDma_lArg (off n : Nat) (s : State) : (s.issueDma off n).lArg = s.lArg := rfl
@[simp] theorem State.issueDma_result (off n : Nat) (s : State) : (s.issueDma off n).result = s.result := rfl
@[simp] theorem State.issueDma_errCode (off n : Nat) (s : State) : (s.issueDma off n).errCode = s.errCode := rfl
@[simp] theorem State.issueDma_errOp (off n : Nat) (s : State) : (s.issueDma off n).errOp = s.errOp := rfl
@[simp] theorem State.issueDma_fsm (off n : Nat) (s : State) : (s.issueDma off n).fsm = .waitDma := rfl
@[simp] theorem State.issueDma_mseq (off n : Nat) (s : State) : (s.issueDma off n).mseq = s.mseq := rfl
@[simp] theorem State.issueDma_busWidth (off n : Nat) (s : State) : (s.issueDma off n).busWidth = s.busWidth := rfl
@[simp] theorem State.issueDma_dmaInc (off n : Nat) (s : State) : (s.issueDma off n).dmaInc = s.dmaInc := rfl
@[simp] theorem State.issueDma_dmaWidth (off n : Nat) (s : State) : (s.issueDma off n).dmaWidth = s.dmaWidth := rfl
@[simp] theorem State.issueDma_rot (off n : Nat) (s : State) : (s.issueDma off n).rot = s.rot := rfl
@[simp] theorem State.issueDma_rotSet (off n : Nat) (s : State) : (s.issueDma off n).rotSet = s.rotSet := rfl
@[simp] theorem State.issueDma_initDone (off n : Nat) (s : State) : (s.issueDma off n).initDone = s.initDone := rfl
@[simp] theorem State.issueDma_csN (off n : Nat) (s : State) : (s.issueDma off n).csN = s.csN := rfl
@[simp] theorem State.issueDma_dc (off n : Nat) (s : State) : (s.issueDma off n).dc = s.dc := rfl
@[simp] theorem State.issueDma_rstN (off n : Nat) (s : State) : (s.issueDma off n).rstN = s.rstN := rfl
@[simp] theorem State.issueDma_winXs (off n : Nat) (s : State) : (s.issueDma off n).winXs = s.winXs := rfl
@[simp] theorem State.issueDma_winXe (off n : Nat) (s : State) : (s.issueDma off n).winXe = s.winXe := rfl
@[simp] theorem State.issueDma_winYs (off n : Nat) (s : State) : (s.issueDma off n).winYs = s.winYs := rfl
@[simp] theorem State.issueDma_winYe (off n : Nat) (s : State) : (s.issueDma off n).winYe = s.winYe := rfl
@[simp] theorem State.issueDma_fillBuf (off n : Nat) (s : State) : (s.issueDma off n).fillBuf = s.fillBuf := rfl
@[simp] theorem State.issueDma_fillColor (off n : Nat) (s : State) : (s.issueDma off n).fillColor = s.fillColor := rfl
@[simp] theorem State.issueDma_src (off n : Nat) (s : State) : (s.issueDma off n).src = s.src := rfl
@[simp] theorem State.issueDma_rem (off n : Nat) (s : State) : (s.issueDma off n).rem = s.rem := rfl
@[simp] theorem State.issueDma_chunk (off n : Nat) (s : State) : (s.issueDma off n).chunk = s.chunk := rfl
@[simp] theorem State.issueDma_dma (off n : Nat) (s : State) : (s.issueDma off n).dma = .active s.src off n := rfl
@[simp] theorem State.issueDma_trace (off n : Nat) (s : State) : (s.issueDma off n).trace = s.trace := rfl
@[simp] theorem State.issueDma_mem (off n : Nat) (s : State) : (s.issueDma off n).mem = s.mem := rfl
@[simp] theorem State.issueDma_inputs (off n : Nat) (s : State) : (s.issueDma off n).inputs = s.inputs := rfl
@[simp] theorem State.issueDma_reconfigDraws (off n : Nat) (s : State) : (s.issueDma off n).reconfigDraws = s.reconfigDraws := rfl
@[simp] theorem State.issueDma_xferDraws (off n : Nat) (s : State) : (s.issueDma off n).xferDraws = s.xferDraws := rfl
@[simp] theorem State.issueDma_freeIx (off n : Nat) (s : State) : (s.issueDma off n).freeIx = s.freeIx := rfl
@[simp] theorem State.issueDma_resp (off n : Nat) (s : State) : (s.issueDma off n).resp = s.resp := rfl

end Sys2Proof.Machine
end

