-- ==== Sys2Proof/Laws/Ops.lean ====
section
/-! SUPPORT. What each shared operation can do, said once: draws, sending, reconfiguring. -/

namespace Sys2Proof.Machine

variable {s t : State}

/-- A draw of a frame takes the environment's next outcome or the next free value, and changes nothing else. -/
theorem State.drawXfer_cases (s : State) :
    (∃ d ds, s.xferDraws = d :: ds ∧ s.drawXfer = (d, { s with xferDraws := ds })) ∨
    (s.xferDraws = [] ∧ s.drawXfer = (Config.freeXfer s.freeIx, { s with freeIx := s.freeIx + 1 })) := by
  unfold State.drawXfer
  split
  · next d ds h => exact .inl ⟨d, ds, h, rfl⟩
  · next h => exact .inr ⟨h, rfl⟩

/-- The same for a reconfiguration. -/
theorem State.drawReconfig_cases (s : State) :
    (∃ d ds, s.reconfigDraws = d :: ds ∧ s.drawReconfig = (d, { s with reconfigDraws := ds })) ∨
    (s.reconfigDraws = [] ∧
      s.drawReconfig = (Config.freeReconfig s.freeIx, { s with freeIx := s.freeIx + 1 })) := by
  unfold State.drawReconfig
  split
  · next d ds h => exact .inl ⟨d, ds, h, rfl⟩
  · next h => exact .inr ⟨h, rfl⟩

/-- What a draw of a frame leaves: the same state but for the list of outcomes and the counter. -/
theorem State.drawXfer_eq (s : State) :
    ∃ d xs ix, s.drawXfer = (d, { s with xferDraws := xs, freeIx := ix }) := by
  rcases s.drawXfer_cases with ⟨d, ds, -, h⟩ | ⟨-, h⟩
  · exact ⟨_, _, s.freeIx, h⟩
  · exact ⟨_, s.xferDraws, _, h⟩

theorem State.drawReconfig_eq (s : State) :
    ∃ d rs ix, s.drawReconfig = (d, { s with reconfigDraws := rs, freeIx := ix }) := by
  rcases s.drawReconfig_cases with ⟨d, ds, -, h⟩ | ⟨-, h⟩
  · exact ⟨_, _, s.freeIx, h⟩
  · exact ⟨_, s.reconfigDraws, _, h⟩

/-- Everything the draw of a blocking frame can do: the operation goes on, faults, or hangs. -/
theorem State.frameOutcome_cases (s : State) :
    ∃ xs ix, let t := { s with xferDraws := xs, freeIx := ix }
      s.frameOutcome = t ∨ s.frameOutcome = t.raise .transferFault ∨ s.frameOutcome = t.pushActions [.hung] := by
  obtain ⟨d, xs, ix, h⟩ := s.drawXfer_eq
  refine ⟨xs, ix, ?_⟩
  unfold State.frameOutcome
  rw [h]
  cases d
  · exact .inl rfl
  · exact .inr (.inl rfl)
  · exact .inr (.inr rfl)

/-- The same by the draw (41_protocol.md R166). -/
theorem State.frameOutcome_of_draw {d : XferOutcome} {u : State} (h : s.drawXfer = (d, u)) :
    (d = .ok → s.frameOutcome = u) ∧ (d = .fail → s.frameOutcome = u.raise .transferFault) ∧
    (d = .hang → s.frameOutcome = u.pushActions [.hung]) := by
  unfold State.frameOutcome
  rw [h]
  exact ⟨fun e => e ▸ rfl, fun e => e ▸ rfl, fun e => e ▸ rfl⟩

/-- Everything the draw of a reconfiguration can do: the operation goes on or faults. -/
theorem State.reconfigOutcome_cases (s : State) :
    ∃ rs ix, let t := { s with reconfigDraws := rs, freeIx := ix }
      s.reconfigOutcome = t ∨ s.reconfigOutcome = t.raise .reconfigFault := by
  obtain ⟨d, rs, ix, h⟩ := s.drawReconfig_eq
  refine ⟨rs, ix, ?_⟩
  unfold State.reconfigOutcome
  rw [h]
  cases d
  · exact .inl rfl
  · exact .inr rfl

/-- The same by the draw (40_bus_mode.md R141). -/
theorem State.reconfigOutcome_of_draw {d : ReconfigOutcome} {u : State} (h : s.drawReconfig = (d, u)) :
    (d = .ok → s.reconfigOutcome = u) ∧ (d = .fail → s.reconfigOutcome = u.raise .reconfigFault) := by
  unfold State.reconfigOutcome
  rw [h]
  exact ⟨fun e => e ▸ rfl, fun e => e ▸ rfl⟩

/-- Everything the first action of SET_WORD_WIDTH can do: nothing at the width it is at, else the register, with the event and the draw to come. -/
theorem State.setWidth_cases (w : Width) (s : State) :
    (s.busWidth = w ∧ s.setWidth w = s) ∨
    (s.busWidth ≠ w ∧
      s.setWidth w = { s with busWidth := w, mseq := .emitWidth w :: .drawReconfig :: s.mseq }) := by
  unfold State.setWidth
  by_cases hw : s.busWidth = w
  · exact .inl ⟨hw, if_pos hw⟩
  · exact .inr ⟨hw, if_neg hw⟩

/-- Everything the first action of SET_DMA_MODE can do. -/
theorem State.setDmaMode_cases (inc : Bool) (w : Width) (s : State) :
    (s.cfg.dmaEnabled = false ∧ s.setDmaMode inc w = s.raise .noDma) ∨
    (s.cfg.dmaEnabled = true ∧ (s.dmaInc = inc ∧ s.dmaWidth = w) ∧ s.setDmaMode inc w = s) ∨
    (s.cfg.dmaEnabled = true ∧ ¬(s.dmaInc = inc ∧ s.dmaWidth = w) ∧
      s.setDmaMode inc w = { s with
        dmaInc := inc, mseq := .setDmaWidth w :: .emitDmaCfg inc w :: .drawReconfig :: s.mseq }) := by
  unfold State.setDmaMode
  cases he : s.cfg.dmaEnabled
  · exact .inl ⟨rfl, by simp⟩
  · by_cases hm : s.dmaInc = inc ∧ s.dmaWidth = w
    · exact .inr (.inl ⟨rfl, hm, by simp [hm]⟩)
    · exact .inr (.inr ⟨rfl, hm, by rw [if_neg (by simp), if_neg hm]; rfl⟩)

/-! ## With draws that are OK -/

theorem State.OkDraws.mono {r x r' x' : Nat} (h : s.OkDraws r x) (hr : r' ≤ r) (hx : x' ≤ x) :
    s.OkDraws r' x' := by
  obtain ⟨h1, h2, h3, h4⟩ := h
  refine ⟨by omega, by omega, fun d hd => h3 d ?_, fun d hd => h4 d ?_⟩
  · exact List.take_subset_take_left _ hr hd
  · exact List.take_subset_take_left _ hx hd

/-- Draws left after some were used. -/
theorem State.OkDraws.drop {r x : Nat} (h : s.OkDraws r x) {a b : Nat} (ha : a ≤ r) (hb : b ≤ x)
    (hr : t.reconfigDraws = s.reconfigDraws.drop a) (hx : t.xferDraws = s.xferDraws.drop b) :
    t.OkDraws (r - a) (x - b) := by
  obtain ⟨h1, h2, h3, h4⟩ := h
  refine ⟨by rw [hr, List.length_drop]; omega, by rw [hx, List.length_drop]; omega, ?_, ?_⟩
  · intro d hd
    rw [hr, List.take_drop] at hd
    apply h3
    have := List.mem_of_mem_drop hd
    rwa [show a + (r - a) = r by omega] at this
  · intro d hd
    rw [hx, List.take_drop] at hd
    apply h4
    have := List.mem_of_mem_drop hd
    rwa [show b + (x - b) = x by omega] at this

theorem State.drawXfer_ok (h : s.OkDraws 0 1) :
    s.drawXfer = (.ok, { s with xferDraws := s.xferDraws.drop 1 }) := by
  obtain ⟨-, h2, -, h4⟩ := h
  unfold State.drawXfer
  cases hx : s.xferDraws with
  | nil => simp [hx] at h2
  | cons d ds =>
    have : d = .ok := h4 d (by simp [hx])
    subst this
    rfl

theorem State.drawReconfig_ok (h : s.OkDraws 1 0) :
    s.drawReconfig = (.ok, { s with reconfigDraws := s.reconfigDraws.drop 1 }) := by
  obtain ⟨h1, -, h3, -⟩ := h
  unfold State.drawReconfig
  cases hx : s.reconfigDraws with
  | nil => simp [hx] at h1
  | cons d ds =>
    have : d = .ok := h3 d (by simp [hx])
    subst this
    rfl

/-- A draw of a blocking frame that is OK. -/
theorem State.frameOutcome_ok (h : s.OkDraws 0 1) :
    s.frameOutcome = { s with xferDraws := s.xferDraws.drop 1 } :=
  (State.frameOutcome_of_draw (State.drawXfer_ok h)).1 rfl

/-- A draw of a reconfiguration that is OK. -/
theorem State.reconfigOutcome_ok (h : s.OkDraws 1 0) :
    s.reconfigOutcome = { s with reconfigDraws := s.reconfigDraws.drop 1 } :=
  (State.reconfigOutcome_of_draw (State.drawReconfig_ok h)).1 rfl

end Sys2Proof.Machine
end

