-- ==== Sys2Proof/Laws/Plans.lean ====
section
/-! SUPPORT. What every micro-sequence is like: it ends with `finish` or `raise`, its actions are ones the engine may take, it leaves the controller deselected, and it sets `rot_set` only after `rot`. -/

namespace Sys2Proof.Machine

/-! ## Composition -/

/-- No action of the list touches the orientation registers. -/
def rotFree : List Action → Bool
  | [] => true
  | .setRot _ :: _ => false
  | .setRotSet :: _ => false
  | _ :: as => rotFree as

theorem rotFree_append (a b : List Action) : rotFree (a ++ b) = (rotFree a && rotFree b) := by
  induction a with
  | nil => rfl
  | cons x a ih => cases x <;> first | rfl | exact ih

theorem rotOrdered_free (r : Bool) {a : List Action} (h : rotFree a = true) (b : List Action) :
    rotOrdered r (a ++ b) = rotOrdered r b := by
  induction a with
  | nil => rfl
  | cons x a ih => cases x <;> first | exact ih h | exact absurd h (by simp [rotFree])

theorem rotOrdered_of_free (r : Bool) {a : List Action} (h : rotFree a = true) : rotOrdered r a = true := by
  have := rotOrdered_free r h []
  rwa [List.append_nil] at this

/-- A list of actions of a called operation: allowed, deselecting, and without orientation registers. -/
structure Framed (c : Config) (as : List Action) : Prop where
  ok : as.all (actionOk c) = true
  deselects : ∀ b, endsDeselected true b = true → endsDeselected true (as ++ b) = true
  free : rotFree as = true

theorem Framed.nil (c : Config) : Framed c [] := ⟨rfl, fun _ h => h, rfl⟩

theorem Framed.append {c : Config} {a b : List Action} (h : Framed c a) (h' : Framed c b) : Framed c (a ++ b) := by
  refine ⟨?_, ?_, ?_⟩
  · rw [List.all_append, h.ok, h'.ok]; rfl
  · intro l hl; rw [List.append_assoc]; exact h.deselects _ (h'.deselects _ hl)
  · rw [rotFree_append, h.free, h'.free]; rfl

theorem Framed.cons_append {c : Config} {x : Action} {a b : List Action} (h : Framed c (x :: a))
    (h' : Framed c b) : Framed c (x :: (a ++ b)) := h.append h'

theorem Framed.flatMap {α : Type} {c : Config} (f : α → List Action) (l : List α)
    (h : ∀ x, Framed c (f x)) : Framed c (l.flatMap f) := by
  induction l with
  | nil => exact Framed.nil c
  | cons x l ih => rw [List.flatMap_cons]; exact (h x).append ih

theorem Framed.mapEntries (c : Config) (color : Half) (l : List (Fin 64)) :
    Framed c (l.map fun i => .fillEntry i color) := by
  induction l with
  | nil => exact Framed.nil c
  | cons i l ih => exact ⟨ih.ok, ih.deselects, ih.free⟩

/-! ## Called operations -/

theorem framed_command (c : Config) (b : Byte) : Framed c (callWriteCommand b) := ⟨rfl, fun _ h => h, rfl⟩
theorem framed_smallData (c : Config) (b : Byte) : Framed c (callWriteSmallData b) := ⟨rfl, fun _ h => h, rfl⟩
theorem framed_data (c : Config) (source : Source) (len : Word) : Framed c (callWriteData source len) :=
  ⟨rfl, fun _ h => h, rfl⟩
theorem framed_bytes (c : Config) (l : List Byte) : Framed c (callWriteBytes l) := ⟨rfl, fun _ h => h, rfl⟩

theorem framed_windowActions (c d : Config) (x0 y0 x1 y1 : Half) : Framed c (windowActions d x0 y0 x1 y1) :=
  ⟨rfl, fun _ h => h, rfl⟩

theorem framed_raise (c : Config) (f : ErrCode) (h : f ≠ .none) : Framed c [.raise f] :=
  ⟨by simp [actionOk, h], fun _ _ => rfl, rfl⟩

theorem framed_call (c : Config) (p : Plan) (hf : ∀ f, p = .faults f → f ≠ .none)
    (hr : ∀ as, p = .runs as → Framed c as) : Framed c p.asCall := by
  cases p with
  | faults f => exact framed_raise c f (hf f rfl)
  | ends r => exact Framed.nil c
  | runs as => exact hr as rfl

theorem framed_planWindow (c : Config) (x0 y0 x1 y1 : Half) : Framed c (planWindow c x0 y0 x1 y1).asCall := by
  unfold planWindow
  split
  · exact framed_windowActions c c x0 y0 x1 y1
  · exact framed_raise c _ (by simp)

theorem framed_window (c : Config) (x0 y0 x1 y1 : Half) : Framed c (callWindow c x0 y0 x1 y1) := by
  have h := framed_planWindow c x0 y0 x1 y1
  exact ⟨h.ok, h.deselects, h.free⟩

theorem framed_fill (c : Config) (n : Nat) (color : Half) : Framed c (callFillPixels c n color) := by
  unfold callFillPixels
  split
  · exact ⟨rfl, fun _ h => h, rfl⟩
  · unfold fillByBuffer
    refine ((Framed.mapEntries c color _).append (show Framed c [.setWidth .w16] from ⟨rfl, fun _ h => h, rfl⟩)).append ?_
    split
    · exact Framed.nil c
    · exact ⟨rfl, fun _ h => h, rfl⟩

theorem framed_planRect (c : Config) (x0 y0 x1 y1 color : Half) :
    Framed c (planRect c x0 y0 x1 y1 color).asCall := by
  unfold planRect
  split
  · exact framed_raise c _ (by simp)
  · split
    · exact Framed.nil c
    · exact (framed_window c x0 y0 x1 y1).append (framed_fill c _ color)

theorem framed_rect (c : Config) (x0 y0 x1 y1 color : Half) : Framed c (callFillRect c x0 y0 x1 y1 color) := by
  have h := framed_planRect c x0 y0 x1 y1 color
  exact ⟨h.ok, h.deselects, h.free⟩

theorem framed_entry (c : Config) (e : Byte × List Byte) : Framed c (tableEntryActions e) := by
  unfold tableEntryActions
  refine (framed_command c e.1).append ?_
  split
  · exact Framed.nil c
  · exact framed_bytes c e.2

theorem framed_table (c : Config) (t : List (Byte × List Byte)) : Framed c (tableActions t) :=
  Framed.flatMap tableEntryActions t (framed_entry c)

/-! ## Host-issued operations -/

/-- What a host-issued micro-sequence meets when it starts with the controller deselected. -/
structure Sound (c : Config) (as : List Action) : Prop where
  ends : as.getLast?.map isEnd = some true
  ok : as.all (actionOk c) = true
  deselects : endsDeselected true as = true
  ordered : ∀ r, rotOrdered r as = true

/-- What the checks of an operation may lead to. -/
def Plan.Good (c : Config) : Plan → Prop
  | .faults f => f ≠ .none
  | .ends r => r ≠ .fault
  | .runs as => as.all (actionOk c) = true ∧ endsDeselected true (as ++ [.finish .ok]) = true ∧
    ∀ r, rotOrdered r (as ++ [.finish .ok]) = true

theorem Plan.Good.sound {c : Config} {p : Plan} (h : p.Good c) : Sound c p.asRequest := by
  cases p with
  | faults f => exact ⟨rfl, by simp [Plan.asRequest, actionOk, show f ≠ .none from h], rfl, fun _ => rfl⟩
  | ends r => exact ⟨rfl, by simp [Plan.asRequest, actionOk, show r ≠ .fault from h], rfl, fun _ => rfl⟩
  | runs as =>
    obtain ⟨h1, h2, h3⟩ := h
    refine ⟨by simp [Plan.asRequest, isEnd], ?_, h2, h3⟩
    simp only [Plan.asRequest, List.all_append, h1]; simp [actionOk]

theorem Framed.good {c : Config} {as : List Action} (h : Framed c as) : (Plan.runs as).Good c :=
  ⟨h.ok, h.deselects _ rfl, fun r => rotOrdered_of_free r (by rw [rotFree_append, h.free]; rfl)⟩

theorem good_window (c : Config) (x0 y0 x1 y1 : Half) : (planWindow c x0 y0 x1 y1).Good c := by
  unfold planWindow
  split
  · exact (framed_windowActions c c x0 y0 x1 y1).good
  · simp [Plan.Good]

theorem rotation_actions (c : Config) :
    (rotationActions c c.rotationCfg).all (actionOk c) = true ∧
    ∀ b, endsDeselected true b = true →
      endsDeselected true (rotationActions c c.rotationCfg ++ b) = true := by
  constructor
  · simp [rotationActions, callWriteCommand, callWriteSmallData, actionOk]
  · exact fun b h => h

theorem rotation_ordered (r : Bool) (c : Config) (m : BitVec 2) {b : List Action}
    (hb : ∀ r, rotOrdered r b = true) : rotOrdered r (rotationActions c m ++ b) = true := hb true

theorem good_rotation (c : Config) (m : BitVec 2) : (planRotation c m).Good c := by
  unfold planRotation
  split
  · simp [Plan.Good]
  · next h =>
    have hm : m = c.rotationCfg := by simpa using h
    subst hm
    exact ⟨(rotation_actions c).1, (rotation_actions c).2 _ rfl, fun r => rotation_ordered r c _ fun _ => rfl⟩

theorem good_rect (c : Config) (x0 y0 x1 y1 color : Half) : (planRect c x0 y0 x1 y1 color).Good c := by
  unfold planRect
  split
  · simp [Plan.Good]
  · split
    · simp [Plan.Good]
    · exact ((framed_window c x0 y0 x1 y1).append (framed_fill c _ color)).good

theorem framed_image (c : Config) (x y bw bh : Half) (addr : Word) :
    Framed c (imageActions c x y bw bh addr) := by
  unfold imageActions
  refine (((framed_window c x y _ _).append (show Framed c [.setWidth .w16] from ⟨rfl, fun _ h => h, rfl⟩)).append ?_).append (framed_data c _ _)
  split
  · exact ⟨rfl, fun _ h => h, rfl⟩
  · exact Framed.nil c

theorem good_init (c : Config) : (Plan.runs (initActions c)).Good c := by
  have hr : (planRotation c c.rotationCfg).asCall = rotationActions c c.rotationCfg := by
    unfold planRotation; simp [Plan.asCall]
  have hA := framed_table c c.initTableA
  have h0 : Framed c (resetPulse ++ tableActions c.initTableA) := Framed.append ⟨rfl, fun _ h => h, rfl⟩ hA
  have hT : Framed c (tableActions c.initTableB ++ (callWriteCommand c.cmdInvon ++ (callWriteCommand c.cmdSlpout ++
      (callWriteCommand c.cmdNoron ++ (callFillRect c 0 0 (c.geo.w - 1) (c.geo.h - 1) c.bgColor ++
      (callWriteCommand c.cmdDispon ++ [.setInitDone])))))) :=
    (framed_table c _).append ((framed_command c _).append ((framed_command c _).append
      ((framed_command c _).append ((framed_rect c _ _ _ _ _).append ((framed_command c _).append
      ⟨rfl, fun _ h => h, rfl⟩)))))
  have e : initActions c = (resetPulse ++ tableActions c.initTableA) ++ (rotationActions c c.rotationCfg ++
      (tableActions c.initTableB ++ (callWriteCommand c.cmdInvon ++ (callWriteCommand c.cmdSlpout ++
      (callWriteCommand c.cmdNoron ++ (callFillRect c 0 0 (c.geo.w - 1) (c.geo.h - 1) c.bgColor ++
      (callWriteCommand c.cmdDispon ++ [.setInitDone]))))))) := by
    unfold initActions
    rw [hr]
    simp only [List.append_assoc]
  rw [e]
  generalize resetPulse ++ tableActions c.initTableA = a at *
  generalize tableActions c.initTableB ++ _ = b at *
  refine ⟨?_, ?_, fun r => ?_⟩
  · rw [List.all_append, List.all_append, h0.ok, hT.ok, (rotation_actions c).1]; rfl
  · rw [List.append_assoc, List.append_assoc]
    exact h0.deselects _ ((rotation_actions c).2 _ (hT.deselects _ rfl))
  · rw [List.append_assoc, rotOrdered_free r h0.free, List.append_assoc]
    exact rotation_ordered r c _ fun r => by rw [rotOrdered_free r hT.free]; rfl

/-- The micro-sequence of every operation. -/
def opActions (c : Config) (w : Width) (rotSet initDone : Bool) : Instr → Plan
  | .setWordWidth w16 rsvd => planSetWordWidth w16 rsvd
  | .setDmaMode w16 inc rsvd => planSetDmaMode c w16 inc rsvd
  | .writeCommand b rsvd => planWriteCommand b rsvd
  | .writeSmallData b rsvd => planWriteSmallData b rsvd
  | .writeData addr len => planWriteData w addr len
  | .transmit addr len => planTransmit w addr len
  | .setAddressWindow x0 y0 x1 y1 => planSetAddressWindow c rotSet x0 y0 x1 y1
  | .setRotation m rsvd => planSetRotation c m rsvd
  | .fillPixels count color rsvd => planFillPixels c count color rsvd
  | .fillRect x0 y0 x1 y1 color rsvd => planFillRect c rotSet x0 y0 x1 y1 color rsvd
  | .drawLine x0 y0 x1 y1 color rsvd => planDrawLine c rotSet x0 y0 x1 y1 color rsvd
  | .drawPixel x y color rsvd => planDrawPixel c rotSet x y color rsvd
  | .drawImage x y bw bh bpp addr rsvd => planDrawImage c rotSet x y bw bh bpp addr rsvd
  | .init => planInit c initDone

/-- Starting an operation sets the micro-sequence and the sequencer, and nothing else. -/
theorem exec_eq (i : Instr) (s : State) :
    exec i s = .next { s with mseq := (opActions s.cfg s.busWidth s.rotSet s.initDone i).asRequest, fsm := .run } := by
  cases i <;> rfl

theorem good_op (c : Config) (w : Width) (rotSet initDone : Bool) (i : Instr) :
    (opActions c w rotSet initDone i).Good c := by
  cases i <;> unfold opActions <;> dsimp only
  case setWordWidth => unfold planSetWordWidth; split <;> first | simp [Plan.Good]; done | exact Framed.good ⟨rfl, fun _ h => h, rfl⟩
  case setDmaMode =>
    unfold planSetDmaMode
    split
    · simp [Plan.Good]
    · split
      · simp [Plan.Good]
      · exact Framed.good ⟨rfl, fun _ h => h, rfl⟩
  case writeCommand b _ => unfold planWriteCommand; split <;> first | simp [Plan.Good]; done | exact (framed_command c b).good
  case writeSmallData b _ =>
    unfold planWriteSmallData; split <;> first | simp [Plan.Good]; done | exact (framed_smallData c b).good
  case writeData => unfold planWriteData; split <;> first | simp [Plan.Good]; done | exact (framed_data c _ _).good
  case transmit => unfold planTransmit; split <;> first | simp [Plan.Good]; done | exact Framed.good ⟨rfl, fun _ h => h, rfl⟩
  case setAddressWindow =>
    unfold planSetAddressWindow; split <;> first | simp [Plan.Good]; done | exact good_window c _ _ _ _
  case setRotation m _ => unfold planSetRotation; split <;> first | simp [Plan.Good]; done | exact good_rotation c m
  case fillPixels => unfold planFillPixels; split <;> first | simp [Plan.Good]; done | exact (framed_fill c _ _).good
  case fillRect =>
    unfold planFillRect
    split
    · simp [Plan.Good]
    · split
      · simp [Plan.Good]
      · exact good_rect c _ _ _ _ _
  case drawLine =>
    unfold planDrawLine planLine
    split
    · simp [Plan.Good]
    · split
      · simp [Plan.Good]
      · split
        · exact good_rect c _ _ _ _ _
        · split
          · exact good_rect c _ _ _ _ _
          · simp [Plan.Good]
  case drawPixel =>
    unfold planDrawPixel
    split
    · simp [Plan.Good]
    · split
      · simp [Plan.Good]
      · split
        · simp [Plan.Good]
        · exact ((framed_window c _ _ _ _).append (framed_bytes c _)).good
  case drawImage =>
    unfold planDrawImage
    repeat' split
    all_goals first | simp [Plan.Good]; done | exact (framed_image c _ _ _ _ _).good
  case init =>
    unfold planInit
    split
    · simp [Plan.Good]
    · exact good_init c

end Sys2Proof.Machine
end

