-- ==== Sys2Proof/Laws/Actions.lean ====
section
/-! SUPPORT. Everything one action, one step of the DMA channel and one turn of the agents can do: what they keep, what they put in front of the micro-sequence, and which registers each action may write. -/

namespace Sys2Proof.Machine

variable {s t u : State}

/-! ## What every action keeps -/

/-- The configuration, the request registers, memory, the plan and the bus's answer are the same, and the trace only grows. -/
structure Kept (s t : State) : Prop where
  cfg : t.cfg = s.cfg
  op : t.op = s.op
  arg : t.arg = s.arg
  lOp : t.lOp = s.lOp
  lArg : t.lArg = s.lArg
  mem : t.mem = s.mem
  inputs : t.inputs = s.inputs
  resp : t.resp = s.resp
  trace : ∃ es, t.trace = s.trace ++ es

theorem Kept.refl (s : State) : Kept s s := ⟨rfl, rfl, rfl, rfl, rfl, rfl, rfl, rfl, [], by simp⟩

theorem Kept.trans (h : Kept s t) (h' : Kept t u) : Kept s u := by
  obtain ⟨es, he⟩ := h.trace
  obtain ⟨fs, hf⟩ := h'.trace
  exact ⟨h'.cfg.trans h.cfg, h'.op.trans h.op, h'.arg.trans h.arg, h'.lOp.trans h.lOp, h'.lArg.trans h.lArg,
    h'.mem.trans h.mem, h'.inputs.trans h.inputs, h'.resp.trans h.resp, es ++ fs,
    by rw [hf, he, List.append_assoc]⟩

theorem Kept.raise (f : ErrCode) (h : Kept s t) : Kept s (t.raise f) := ⟨h.1, h.2, h.3, h.4, h.5, h.6, h.7, h.8, h.9⟩

theorem kept_emit (e : Event) (s : State) : Kept s (s.emit e) := ⟨rfl, rfl, rfl, rfl, rfl, rfl, rfl, rfl, [e], rfl⟩

theorem kept_send (v : Half) (s : State) : Kept s (s.send v) := ⟨rfl, rfl, rfl, rfl, rfl, rfl, rfl, rfl, _, rfl⟩

theorem kept_frameOutcome (s : State) : Kept s s.frameOutcome := by
  obtain ⟨xs, ix, h⟩ := s.frameOutcome_cases
  rcases h with h | h | h <;> rw [h] <;> exact ⟨rfl, rfl, rfl, rfl, rfl, rfl, rfl, rfl, [], (List.append_nil _).symm⟩

theorem kept_reconfigOutcome (s : State) : Kept s s.reconfigOutcome := by
  obtain ⟨rs, ix, h⟩ := s.reconfigOutcome_cases
  rcases h with h | h <;> rw [h] <;> exact ⟨rfl, rfl, rfl, rfl, rfl, rfl, rfl, rfl, [], (List.append_nil _).symm⟩

theorem kept_setWidth (w : Width) (s : State) : Kept s (s.setWidth w) := by
  rcases s.setWidth_cases w with ⟨-, h⟩ | ⟨-, h⟩ <;> rw [h] <;>
    exact ⟨rfl, rfl, rfl, rfl, rfl, rfl, rfl, rfl, [], (List.append_nil _).symm⟩

theorem kept_setDmaMode (inc : Bool) (w : Width) (s : State) : Kept s (s.setDmaMode inc w) := by
  rcases s.setDmaMode_cases inc w with ⟨-, h⟩ | ⟨-, -, h⟩ | ⟨-, -, h⟩ <;> rw [h] <;>
    exact ⟨rfl, rfl, rfl, rfl, rfl, rfl, rfl, rfl, [], (List.append_nil _).symm⟩

theorem sendChunk_cases (off n : Nat) (s : State) :
    s.sendChunk off n = s ∨ s.sendChunk off n = s.raise .busError ∨
    ∃ v, s.word s.src off = some v ∧
      ∃ m, n = m + 1 ∧ s.sendChunk off n =
        (s.pushActions (if m = 0 then [] else [.sendChunk (off + 1) m])).send v := by
  cases n with
  | zero => exact .inl rfl
  | succ m =>
    cases hw : s.word s.src off with
    | none => exact .inr (.inl (by change (match s.word s.src off with | none => _ | some v => _) = _; rw [hw]))
    | some v =>
      exact .inr (.inr ⟨v, rfl, m, rfl, by
        change (match s.word s.src off with | none => _ | some v => _) = _; rw [hw]⟩)

theorem kept_action (a : Action) (s : State) : Kept s (doAction a s) := by
  cases a
  case sendByte b => exact kept_send _ s
  case setWidth w => exact kept_setWidth w s
  case setDmaMode inc w => exact kept_setDmaMode inc w s
  case drawReconfig => exact kept_reconfigOutcome s
  case drawXfer => exact kept_frameOutcome s
  case sendChunk off n =>
    change Kept s (s.sendChunk off n)
    rcases sendChunk_cases off n s with h | h | ⟨v, -, m, -, h⟩ <;> rw [h]
    · exact Kept.refl s
    · exact (Kept.refl s).raise _
    · exact Kept.trans (t := s.pushActions _) ⟨rfl, rfl, rfl, rfl, rfl, rfl, rfl, rfl, [], by simp [State.pushActions]⟩
        (kept_send _ _)
  case checkReady =>
    unfold doAction
    dsimp only
    split
    · exact Kept.refl s
    · exact (Kept.refl s).raise _
  all_goals
    first
    | exact ⟨rfl, rfl, rfl, rfl, rfl, rfl, rfl, rfl, _, rfl⟩
    | exact ⟨rfl, rfl, rfl, rfl, rfl, rfl, rfl, rfl, [], (List.append_nil _).symm⟩

/-- Everything a step of the DMA channel can do (42_bulk_transfer.md R186). -/
theorem dmaStep_cases (h : s.dmaStep = some t) :
    (∃ source k, s.dma = .active source k 0 ∧ t = { s with dma := .ready }) ∨
    (∃ source k n, s.dma = .active source k (n + 1) ∧
      ((s.word source k = none ∧ t = s.raise .busError) ∨
       ∃ v xs ix, s.word source k = some v ∧
        let b := { s.emit (.frame s.csN s.dc s.busWidth (frameValue s.busWidth v)) with xferDraws := xs, freeIx := ix }
        t = { b with dma := .active source (if source.isRep then k else k + 1) n } ∨
        t = b.raise .transferFault ∨ t = { b with dma := .hung })) := by
  unfold State.dmaStep at h
  split at h
  · simp at h
  · simp at h
  · next source k hd => exact .inl ⟨source, k, hd, by simpa using h.symm⟩
  · next source k n hd =>
    refine .inr ⟨source, k, n, hd, ?_⟩
    cases hw : s.word source k with
    | none => rw [hw] at h; exact .inl ⟨rfl, by simpa using h.symm⟩
    | some v =>
      rw [hw] at h
      obtain ⟨d, xs, ix, he⟩ := (s.emit (.frame s.csN s.dc s.busWidth (frameValue s.busWidth v))).drawXfer_eq
      refine .inr ⟨v, xs, ix, rfl, ?_⟩
      dsimp only at h
      rw [he] at h
      cases d
      · exact .inl (by simpa using h.symm)
      · exact .inr (.inl (by simpa using h.symm))
      · exact .inr (.inr (by simpa using h.symm))

theorem kept_dmaStep (h : s.dmaStep = some t) : Kept s t := by
  rcases dmaStep_cases h with ⟨source, k, -, rfl⟩ | ⟨source, k, n, -, ⟨-, rfl⟩ | ⟨v, xs, ix, -, rfl | rfl | rfl⟩⟩
  · exact ⟨rfl, rfl, rfl, rfl, rfl, rfl, rfl, rfl, [], by simp⟩
  · exact (Kept.refl s).raise _
  · exact ⟨rfl, rfl, rfl, rfl, rfl, rfl, rfl, rfl, _, rfl⟩
  · exact ⟨rfl, rfl, rfl, rfl, rfl, rfl, rfl, rfl, _, rfl⟩
  · exact ⟨rfl, rfl, rfl, rfl, rfl, rfl, rfl, rfl, _, rfl⟩

/-- Everything a step of the sequencer can do (10_state.md R37). -/
theorem seqStep_cases (h : s.seqStep = some t) :
    (s.fsm = .waitDma ∧ s.dma = .ready ∧ t = { s with fsm := .run }) ∨
    (s.fsm = .run ∧ ∃ a rest, s.mseq = a :: rest ∧ a ≠ .hung ∧ t = doAction a { s with mseq := rest }) := by
  unfold State.seqStep at h
  split at h
  · simp at h
  · simp at h
  · next hf =>
    split at h
    · next hd => exact .inl ⟨hf, hd, by simpa using h.symm⟩
    · simp at h
    · simp at h
  · next hf =>
    split at h
    · simp at h
    · simp at h
    · next a rest hne hm =>
      refine .inr ⟨hf, a, rest, hm, ?_, by simpa using h.symm⟩
      rintro rfl
      exact hne rfl

theorem kept_seqStep (h : s.seqStep = some t) : Kept s t := by
  rcases seqStep_cases h with ⟨-, -, rfl⟩ | ⟨-, a, rest, -, -, rfl⟩
  · exact ⟨rfl, rfl, rfl, rfl, rfl, rfl, rfl, rfl, [], by simp⟩
  · exact Kept.trans (t := { s with mseq := rest }) ⟨rfl, rfl, rfl, rfl, rfl, rfl, rfl, rfl, [], by simp⟩
      (kept_action a _)

/-- A turn of the agents is a step of the sequencer, or one of the channel, or nothing. -/
theorem engineStep_cases (s : State) :
    s.seqStep = some s.engineStep ∨ (s.seqStep = none ∧ s.dmaStep = some s.engineStep) ∨
    (s.seqStep = none ∧ s.dmaStep = none ∧ s.engineStep = s) := by
  unfold State.engineStep
  cases hs : s.seqStep with
  | some t => exact .inl rfl
  | none =>
    cases hd : s.dmaStep with
    | some t => exact .inr (.inl ⟨rfl, rfl⟩)
    | none => exact .inr (.inr ⟨rfl, rfl, rfl⟩)

theorem kept_engineStep (s : State) : Kept s s.engineStep := by
  rcases engineStep_cases s with h | ⟨-, h⟩ | ⟨-, -, h⟩
  · exact kept_seqStep h
  · exact kept_dmaStep h
  · rw [h]; exact Kept.refl s

theorem kept_engineRun (n : Nat) (s : State) : Kept s (s.engineRun n) := by
  induction n generalizing s with
  | zero => exact Kept.refl s
  | succ n ih => exact (kept_engineStep s).trans (ih _)

/-- The default turn: a turn of the agents, or nothing but a use of the free value (log 3). -/
theorem idleTurn_cases (s : State) :
    s.idleTurn = s.engineStep ∨
    (s.seqStep = none ∧ (s.idleTurn = { s with freeIx := s.freeIx + 1 } ∨
      s.idleTurn = State.engineStep { s with freeIx := s.freeIx + 1 })) := by
  unfold State.idleTurn State.engineStep
  cases hs : s.seqStep with
  | some t => exact .inl rfl
  | none =>
    dsimp only
    cases hd : s.dmaStep with
    | none => exact .inl rfl
    | some t =>
      refine .inr ⟨rfl, ?_⟩
      dsimp only
      split
      · exact .inr rfl
      · exact .inl rfl

theorem kept_idleTurn (s : State) : Kept s s.idleTurn := by
  have hk : Kept s { s with freeIx := s.freeIx + 1 } := ⟨rfl, rfl, rfl, rfl, rfl, rfl, rfl, rfl, [], by simp⟩
  rcases idleTurn_cases s with h | ⟨-, h | h⟩ <;> rw [h]
  · exact kept_engineStep s
  · exact hk
  · exact hk.trans (kept_engineStep _)

/-! ## What an action puts in front of the micro-sequence -/

/-- The actions an action may put back. -/
def spawns : Action → Action → Bool
  | .setWidth _, .emitWidth _ => true
  | .setWidth _, .drawReconfig => true
  | .setDmaMode _ _, .setDmaWidth _ => true
  | .setDmaMode _ _, .emitDmaCfg _ _ => true
  | .setDmaMode _ _, .drawReconfig => true
  | .loadTransfer _ _, .setRem _ => true
  | .loadFill _, .setRem _ => true
  | .setRem _, .startChunk _ => true
  | .startChunk _, .setDmaMode _ _ => true
  | .startChunk _, .emitChunk _ _ => true
  | .startChunk _, .issueDma _ _ => true
  | .startChunk _, .sendChunk _ _ => true
  | .startChunk _, .endChunk _ => true
  | .sendChunk _ _, .sendChunk _ _ => true
  | .sendChunk _ _, .drawXfer => true
  | .sendByte _, .drawXfer => true
  | .drawXfer, .hung => true
  | .endChunk _, .startChunk _ => true
  | .fillBlocks _, .driveDc _ => true
  | .fillBlocks _, .driveCs _ => true
  | .fillBlocks _, .loadTransfer _ _ => true
  | .fillBlocks _, .fillBlocks _ => true
  | .hung, .hung => true
  | _, _ => false

/-- After an action the micro-sequence is empty, or what was left with actions put in front. -/
theorem doAction_mseq (a : Action) (s : State) :
    (doAction a s).mseq = [] ∨
    ∃ pre, (doAction a s).mseq = pre ++ s.mseq ∧ pre.all (spawns a) = true := by
  cases a
  case sendByte b => exact .inr ⟨[.drawXfer], rfl, rfl⟩
  case drawXfer =>
    change s.frameOutcome.mseq = [] ∨ ∃ pre, s.frameOutcome.mseq = _ ∧ _
    obtain ⟨xs, ix, h⟩ := s.frameOutcome_cases
    rcases h with h | h | h <;> rw [h]
    · exact .inr ⟨[], rfl, rfl⟩
    · exact .inl rfl
    · exact .inr ⟨[.hung], rfl, rfl⟩
  case drawReconfig =>
    change s.reconfigOutcome.mseq = [] ∨ ∃ pre, s.reconfigOutcome.mseq = _ ∧ _
    obtain ⟨rs, ix, h⟩ := s.reconfigOutcome_cases
    rcases h with h | h <;> rw [h]
    · exact .inr ⟨[], rfl, rfl⟩
    · exact .inl rfl
  case setWidth w =>
    change (s.setWidth w).mseq = [] ∨ ∃ pre, (s.setWidth w).mseq = _ ∧ _
    rcases s.setWidth_cases w with ⟨-, h⟩ | ⟨-, h⟩ <;> rw [h]
    · exact .inr ⟨[], rfl, rfl⟩
    · exact .inr ⟨[.emitWidth w, .drawReconfig], rfl, rfl⟩
  case setDmaMode inc w =>
    change (s.setDmaMode inc w).mseq = [] ∨ ∃ pre, (s.setDmaMode inc w).mseq = _ ∧ _
    rcases s.setDmaMode_cases inc w with ⟨-, h⟩ | ⟨-, -, h⟩ | ⟨-, -, h⟩ <;> rw [h]
    · exact .inl rfl
    · exact .inr ⟨[], rfl, rfl⟩
    · exact .inr ⟨[.setDmaWidth w, .emitDmaCfg inc w, .drawReconfig], rfl, rfl⟩
  case sendChunk off n =>
    change (s.sendChunk off n).mseq = [] ∨ ∃ pre, (s.sendChunk off n).mseq = _ ∧ _
    rcases sendChunk_cases off n s with h | h | ⟨v, -, m, -, h⟩ <;> rw [h]
    · exact .inr ⟨[], rfl, rfl⟩
    · exact .inl rfl
    · refine .inr ⟨.drawXfer :: (if m = 0 then [] else [.sendChunk (off + 1) m]), rfl, ?_⟩
      split <;> rfl
  case checkReady =>
    unfold doAction
    dsimp only
    split
    · exact .inr ⟨[], rfl, rfl⟩
    · exact .inl rfl
  case loadTransfer source len => exact .inr ⟨[.setRem len], rfl, rfl⟩
  case loadFill len => exact .inr ⟨[.setRem len], rfl, rfl⟩
  case setRem len => exact .inr ⟨if len = 0 then [] else [.startChunk 0], rfl, by split <;> rfl⟩
  case startChunk off =>
    exact .inr ⟨if goesByDma s.cfg (chunkSize s.rem) then
      [.setDmaMode (!s.src.isRep) s.busWidth, .emitChunk .dma (chunkSize s.rem), .issueDma off (chunkSize s.rem),
        .endChunk off] else
      [.emitChunk .blk (chunkSize s.rem), .sendChunk off (chunkSize s.rem), .endChunk off], rfl, by split <;> rfl⟩
  case endChunk off =>
    exact .inr ⟨if s.rem - BitVec.ofNat 32 s.chunk.toNat = 0 then []
      else [.startChunk (advance s.src off s.chunk.toNat)], rfl, by split <;> rfl⟩
  case fillBlocks left =>
    refine .inr ⟨[.driveDc true, .loadTransfer (.lit (s.fillBuf.toList.take (min left Config.fillBufLen)))
      (lengthOf (min left Config.fillBufLen)), .driveCs true] ++
      (if left - min left Config.fillBufLen = 0 then [] else [.fillBlocks (left - min left Config.fillBufLen)]), rfl, ?_⟩
    split <;> rfl
  case finish r => exact .inl rfl
  case raise f => exact .inl rfl
  case hung => exact .inr ⟨[.hung], rfl, rfl⟩
  all_goals exact .inr ⟨[], rfl, rfl⟩

/-- A class of actions that what they put back stays in. -/
def Closed (p : Action → Bool) : Prop := ∀ a b, p a = true → spawns a b = true → p b = true

theorem doAction_all {p : Action → Bool} (hp : Closed p) (a : Action) (ha : p a = true) (s : State)
    (hs : s.mseq.all p = true) : (doAction a s).mseq.all p = true := by
  rcases doAction_mseq a s with h | ⟨pre, h, hpre⟩ <;> rw [h]
  · rfl
  · rw [List.all_append, hs, Bool.and_true, List.all_eq_true]
    intro b hb
    exact hp a b ha (List.all_eq_true.mp hpre b hb)

/-- A register that only the actions outside a closed class write keeps its value while the micro-sequence stays in the class. -/
theorem engineRun_field {α : Type} (p : Action → Bool) (hp : Closed p) (f : State → α)
    (hact : ∀ a (s : State), p a = true → f (doAction a s) = f s)
    (hseq : ∀ (s : State) (as : List Action), f { s with mseq := as } = f s)
    (hfsm : ∀ s : State, f { s with fsm := .run } = f s)
    (hdma : ∀ s t : State, s.dmaStep = some t → f t = f s)
    (n : Nat) (s : State) (hs : s.mseq.all p = true) :
    f (s.engineRun n) = f s ∧ (s.engineRun n).mseq.all p = true := by
  induction n generalizing s with
  | zero => exact ⟨rfl, hs⟩
  | succ n ih =>
    have hstep : f s.engineStep = f s ∧ s.engineStep.mseq.all p = true := by
      rcases engineStep_cases s with h | ⟨-, h⟩ | ⟨-, -, h⟩
      · rcases seqStep_cases h with ⟨-, -, e⟩ | ⟨-, a, rest, hm, -, e⟩ <;> rw [e]
        · exact ⟨hfsm s, hs⟩
        · rw [hm, List.all_cons, Bool.and_eq_true] at hs
          refine ⟨(hact a _ hs.1).trans (hseq s rest), doAction_all hp a hs.1 _ hs.2⟩
      · refine ⟨hdma _ _ h, ?_⟩
        rcases dmaStep_cases h with ⟨_, _, -, e⟩ | ⟨_, _, _, -, ⟨-, e⟩ | ⟨_, _, _, -, e | e | e⟩⟩ <;> rw [e]
        · exact hs
        · rfl
        · exact hs
        · rfl
        · exact hs
      · rw [h]; exact ⟨rfl, hs⟩
    have h := ih s.engineStep hstep.2
    exact ⟨h.1.trans hstep.1, h.2⟩

end Sys2Proof.Machine
end

