-- ==== Sys2Proof/Laws/Checks.lean ====
section
/-! SUPPORT. What the checks of each operation lead to, against the list of 60_exceptions.md R316. -/

namespace Sys2Proof.Machine

/-- What a plan comes to. -/
def Plan.verdict : Plan → Verdict
  | .faults f => .faults f
  | .ends r => .rejects r
  | .runs _ => .passes

theorem isOdd_iff (a : Word) : isOdd a = true ↔ a.toNat % 2 = 1 := by
  unfold isOdd
  rw [BitVec.getLsbD_eq_getElem (by decide)]
  simp [BitVec.getElem_eq_testBit_toNat]

theorem bufferMisaligned_iff (w : Width) (a l : Word) :
    bufferMisaligned w a l = true ↔ w = .w16 ∧ 1 ≤ l.toNat ∧ a.toNat % 2 = 1 := by
  unfold bufferMisaligned
  simp only [Bool.and_eq_true, isOdd_iff, beq_iff_eq, decide_eq_true_eq, and_assoc]

theorem minHalf_toNat (a b : Half) : (minHalf a b).toNat = min a.toNat b.toNat := by
  unfold minHalf; split <;> omega

theorem maxHalf_toNat (a b : Half) : (maxHalf a b).toNat = max a.toNat b.toNat := by
  unfold maxHalf; split <;> omega

theorem planRect_verdict (c : Config) (x0 y0 x1 y1 color : Half) :
    (planRect c x0 y0 x1 y1 color).verdict = rectVerdict c x0.toNat y0.toNat x1.toNat y1.toNat := by
  unfold planRect rectVerdict windowReversed pointInside
  by_cases h : x1.toNat < x0.toNat ∨ y1.toNat < y0.toNat
  · rw [if_pos (by simpa using h), if_pos h]; rfl
  · rw [if_neg (by simpa using h), if_neg h]
    by_cases h2 : c.geo.w.toNat ≤ x1.toNat ∨ c.geo.h.toNat ≤ y1.toNat
    · rw [if_pos h2, if_pos (by simp; omega)]; rfl
    · rw [if_neg h2, if_neg (by simp; omega)]; rfl

/-- The checks an operation makes are those of the list, in its order. -/
theorem opActions_verdict (s : State) (i : Instr) :
    (opActions s.cfg s.busWidth s.rotSet s.initDone i).verdict = verdict s i := by
  cases i <;> simp only [opActions, verdict]
  case setWordWidth => unfold planSetWordWidth; split <;> rfl
  case setDmaMode =>
    unfold planSetDmaMode
    split
    · rfl
    · split <;> rfl
  case writeCommand => unfold planWriteCommand; split <;> rfl
  case writeSmallData => unfold planWriteSmallData; split <;> rfl
  case writeData => unfold planWriteData; simp only [bufferMisaligned_iff]; split <;> rfl
  case transmit => unfold planTransmit; simp only [bufferMisaligned_iff]; split <;> rfl
  case setAddressWindow x0 y0 x1 y1 =>
    unfold planSetAddressWindow planWindow
    split
    · rfl
    · unfold windowValid windowReversed pointInside
      by_cases h : x0.toNat ≤ x1.toNat ∧ x1.toNat < s.cfg.geo.w.toNat ∧ y0.toNat ≤ y1.toNat ∧
        y1.toNat < s.cfg.geo.h.toNat
      · rw [if_pos h, if_pos (by simp; omega)]; rfl
      · rw [if_neg h, if_neg (by simp; omega)]; rfl
  case setRotation =>
    unfold planSetRotation planRotation
    split
    · rfl
    · split <;> rfl
  case fillPixels => unfold planFillPixels; split <;> rfl
  case fillRect =>
    unfold planFillRect
    split
    · rfl
    · split
      · rfl
      · exact planRect_verdict _ _ _ _ _ _
  case drawLine x0 y0 x1 y1 c r =>
    unfold planDrawLine planLine
    split
    · rfl
    · split
      · rfl
      · split
        · rename_i h; subst h; rw [planRect_verdict, minHalf_toNat, maxHalf_toNat]
        · split
          · rename_i h; subst h; rw [planRect_verdict, minHalf_toNat, maxHalf_toNat]
          · rfl
  case drawPixel x y _ _ =>
    unfold planDrawPixel
    split
    · rfl
    · split
      · rfl
      · unfold pointInside
        by_cases h : s.cfg.geo.w.toNat ≤ x.toNat ∨ s.cfg.geo.h.toNat ≤ y.toNat
        · rw [if_pos h, if_pos (by simp; omega)]; rfl
        · rw [if_neg h, if_neg (by simp; omega)]; rfl
  case drawImage x y bw bh bpp addr r =>
    unfold planDrawImage
    split
    · rfl
    · split
      · rfl
      · split
        · rfl
        · unfold imageInside
          by_cases h : s.cfg.geo.w.toNat ≤ x.toNat + bw.toNat - 1 ∨ s.cfg.geo.h.toNat ≤ y.toNat + bh.toNat - 1
          · rw [if_pos h, if_pos (by simp; omega)]; rfl
          · rw [if_neg h, if_neg (by simp; omega)]
            have hb : bpp ≠ 16 ↔ bpp.toNat ≠ 16 := by rw [ne_eq, ← BitVec.toNat_inj]; simp
            simp only [hb, isOdd_iff]
            split
            · rfl
            · split <;> rfl
  case init => unfold planInit; split <;> rfl

end Sys2Proof.Machine
end

