-- ==== Sys2Proof/Laws/Config.lean ====
section
/-! SUPPORT. What a configuration meets (00_scope.md R7), field by field, and the sums of coordinates that fit because of it (10_state.md R39). -/

namespace Sys2Proof

/-- Every configuration meets the size constraints (R7). -/
theorem Config.sizes (c : Config) :
    1 ≤ c.geo.w.toNat ∧ 1 ≤ c.geo.h.toNat ∧
    c.geo.w.toNat + c.geo.sx.toNat ≤ 65535 ∧ c.geo.h.toNat + c.geo.sy.toNat ≤ 65535 ∧
    c.geo.w.toNat * c.geo.h.toNat ≤ 2 ^ 32 - 1 ∧ 1 ≤ c.dmaMinSize ∧ c.dmaMinSize ≤ 65535 := by
  have h := c.ok
  unfold Params.valid Params.sizesOk at h
  simp only [Bool.and_eq_true, decide_eq_true_eq] at h
  obtain ⟨⟨⟨h, -⟩, -⟩, -⟩ := h
  obtain ⟨⟨⟨⟨⟨⟨⟨-, h1⟩, h2⟩, h3⟩, h4⟩, h5⟩, h6⟩, h7⟩ := h
  exact ⟨h1, h2, h3, h4, h5, h6, h7⟩

/-- The command codes are pairwise distinct (30_encoding.md R115). -/
theorem Config.codes_nodup (c : Config) : c.commandCodes.Nodup := by
  have h := c.ok
  unfold Params.valid Params.codesOk at h
  simp only [Bool.and_eq_true, decide_eq_true_eq] at h
  exact h.1.2.1

/-- The entries of both tables meet their constraint (45_init.md R293). -/
theorem Config.tables_ok (c : Config) :
    (∀ e ∈ c.initTableA, c.tableEntryOk e = true) ∧ (∀ e ∈ c.initTableB, c.tableEntryOk e = true) := by
  have h := c.ok
  unfold Params.valid Params.tablesOk at h
  simp only [Bool.and_eq_true, List.all_eq_true] at h
  exact ⟨h.2.1.1, h.2.1.2⟩

theorem Config.table_length (c : Config) : ∀ e ∈ c.initTableA ++ c.initTableB, e.2.length < 2 ^ 32 := by
  intro e he
  have h : c.tableEntryOk e = true := by
    rcases List.mem_append.mp he with h | h
    · exact c.tables_ok.1 e h
    · exact c.tables_ok.2 e h
  unfold Params.tableEntryOk at h
  simp only [Bool.and_eq_true, decide_eq_true_eq] at h
  exact h.2

namespace Machine

theorem windowReversed_iff (x0 y0 x1 y1 : Half) :
    windowReversed x0 y0 x1 y1 = true ↔ x1.toNat < x0.toNat ∨ y1.toNat < y0.toNat := by
  unfold windowReversed; simp

theorem pointInside_iff (c : Config) (x y : Half) :
    pointInside c x y = true ↔ x.toNat < c.geo.w.toNat ∧ y.toNat < c.geo.h.toNat := by
  unfold pointInside; simp

/-- `X0 ≤ X1 < W` and `Y0 ≤ Y1 < H` (43_addressing.md R210). -/
theorem windowValid_iff (c : Config) (x0 y0 x1 y1 : Half) :
    windowValid c x0 y0 x1 y1 = true ↔
      x0.toNat ≤ x1.toNat ∧ x1.toNat < c.geo.w.toNat ∧ y0.toNat ≤ y1.toNat ∧ y1.toNat < c.geo.h.toNat := by
  unfold windowValid windowReversed pointInside
  simp only [Bool.and_eq_true, Bool.not_eq_true', Bool.or_eq_false_iff, decide_eq_false_iff_not,
    decide_eq_true_eq, Nat.not_lt]
  tauto

theorem imageInside_iff (c : Config) (x y bw bh : Half) :
    imageInside c x y bw bh = true ↔
      x.toNat + bw.toNat - 1 < c.geo.w.toNat ∧ y.toNat + bh.toNat - 1 < c.geo.h.toNat := by
  unfold imageInside; simp

/-- The pixels of a window inside the panel are no more than the panel has. -/
theorem rectCount_le (c : Config) {x0 y0 x1 y1 : Half} (h : windowValid c x0 y0 x1 y1 = true) :
    1 ≤ rectCount x0 y0 x1 y1 ∧ rectCount x0 y0 x1 y1 < 2 ^ 32 := by
  rw [windowValid_iff] at h
  have hc := c.sizes
  have h1 : rectCount x0 y0 x1 y1 ≤ c.geo.w.toNat * c.geo.h.toNat := by
    unfold rectCount
    exact Nat.mul_le_mul (by omega) (by omega)
  have h2 : 1 * 1 ≤ rectCount x0 y0 x1 y1 := by
    unfold rectCount
    exact Nat.mul_le_mul (by omega) (by omega)
  omega

/-- A coordinate of the panel and its offset do not wrap (10_state.md R39). -/
theorem add_shift_x (c : Config) {x : Half} (h : x.toNat < c.geo.w.toNat) :
    (x + c.geo.sx).toNat = x.toNat + c.geo.sx.toNat := by
  have hc := c.sizes
  rw [BitVec.toNat_add]; omega

theorem add_shift_y (c : Config) {y : Half} (h : y.toNat < c.geo.h.toNat) :
    (y + c.geo.sy).toNat = y.toNat + c.geo.sy.toNat := by
  have hc := c.sizes
  rw [BitVec.toNat_add]; omega

theorem half_toNat_pos {b : Half} (h : b ≠ 0) : 1 ≤ b.toNat := by
  have : b.toNat ≠ 0 := fun e => h (BitVec.eq_of_toNat_eq (by simpa using e))
  omega

/-- The last column or row of a bitmap. -/
theorem lastCoord_toNat {x bw : Half} {n : Nat} (h : x.toNat + bw.toNat - 1 < n) (hn : n ≤ 65536) :
    (lastCoord x bw).toNat = x.toNat + bw.toNat - 1 := by
  unfold lastCoord; rw [BitVec.toNat_ofNat]; omega

/-- The window of a bitmap inside the panel is valid (44_pixel_stream.md R250). -/
theorem imageWindow_valid (c : Config) {x y bw bh : Half} (h : imageInside c x y bw bh = true)
    (hw : bw ≠ 0) (hh : bh ≠ 0) : windowValid c x y (lastCoord x bw) (lastCoord y bh) = true := by
  rw [imageInside_iff] at h
  have := half_toNat_pos hw
  have := half_toNat_pos hh
  have := c.geo.w.isLt
  have := c.geo.h.isLt
  rw [windowValid_iff, lastCoord_toNat h.1 (by omega), lastCoord_toNat h.2 (by omega)]
  omega

theorem imageCount_lt (c : Config) {x y bw bh : Half} (h : imageInside c x y bw bh = true)
    (hw : bw ≠ 0) (hh : bh ≠ 0) : bw.toNat * bh.toNat < 2 ^ 32 := by
  rw [imageInside_iff] at h
  have hc := c.sizes
  have := half_toNat_pos hw
  have := half_toNat_pos hh
  have : bw.toNat * bh.toNat ≤ c.geo.w.toNat * c.geo.h.toNat := Nat.mul_le_mul (by omega) (by omega)
  omega

/-- A point inside the panel is a valid window of one pixel (44_pixel_stream.md R248). -/
theorem pointWindow_valid (c : Config) {x y : Half} (h : pointInside c x y = true) :
    windowValid c x y x y = true := by
  rw [pointInside_iff] at h
  rw [windowValid_iff]
  omega

/-- The whole panel is a valid window (45_init.md R290). -/
theorem screenWindow_valid (c : Config) : windowValid c 0 0 (c.geo.w - 1) (c.geo.h - 1) = true := by
  have hc := c.sizes
  have hw : (c.geo.w - 1).toNat = c.geo.w.toNat - 1 := by rw [BitVec.toNat_sub]; simp; omega
  have hh : (c.geo.h - 1).toNat = c.geo.h.toNat - 1 := by rw [BitVec.toNat_sub]; simp; omega
  rw [windowValid_iff, hw, hh]
  simp
  omega

end Machine

end Sys2Proof
end

