-- ==== Sys2Proof/Laws/Run.lean ====
section
/-! SUPPORT. Runs of the agents: composition, one action of the sequencer, the frames of a chunk, and a whole transfer with draws that are OK. -/

namespace Sys2Proof.Machine

variable {s t u : State}

/-! ## Composition -/

theorem State.engineRun_add (m n : Nat) (s : State) :
    State.engineRun (m + n) s = State.engineRun n (State.engineRun m s) := by
  induction m generalizing s with
  | zero => simp [State.engineRun]
  | succ m ih => rw [Nat.succ_add]; exact ih _

theorem State.Reaches.refl (s : State) : s.Reaches s := ⟨0, rfl⟩

theorem State.Reaches.trans (h : s.Reaches t) (h' : t.Reaches u) : s.Reaches u := by
  obtain ⟨m, rfl⟩ := h
  obtain ⟨n, rfl⟩ := h'
  exact ⟨m + n, State.engineRun_add m n s⟩

theorem State.Reaches.step (h : s.engineStep = t) : s.Reaches t := ⟨1, h⟩

/-- One turn, then the rest of the run. -/
theorem State.Reaches.head (h : s.engineStep = t) (h' : t.Reaches u) : s.Reaches u :=
  (State.Reaches.step h).trans h'

/-! ## The sequencer running a list of actions -/

/-- The state with the sequencer in RUN and `as` to do. -/
def State.running (as : List Action) (s : State) : State := { s with mseq := as, fsm := .run }

theorem State.begin_eq (as : List Action) (s : State) : s.begin as = .next (s.running as) := rfl

theorem State.engineStep_running (a : Action) (as : List Action) (s : State) (ha : a ≠ .hung) :
    (s.running (a :: as)).engineStep = doAction a (s.running as) := by
  cases a <;> first | rfl | exact absurd rfl ha

theorem State.reaches_action {a : Action} {as : List Action} (ha : a ≠ .hung)
    (h : doAction a (s.running as) = t) : (s.running (a :: as)).Reaches t :=
  State.Reaches.step ((State.engineStep_running a as s ha).trans h)

/-- The last action of an operation that finishes. -/
theorem State.reaches_finish (r : ResultCode) (as : List Action) (s : State) :
    (s.running (.finish r :: as)).Reaches (s.finished r) :=
  State.reaches_action (by simp) rfl

/-! ## How many draws a run uses -/

/-- From `s` to `t` at most `a` reconfigurations were drawn, and exactly `b` frames. -/
def Uses (a b : Nat) (s t : State) : Prop :=
  ∃ a', a' ≤ a ∧ t.reconfigDraws = s.reconfigDraws.drop a' ∧ t.xferDraws = s.xferDraws.drop b

theorem Uses.refl (s : State) : Uses 0 0 s s := ⟨0, le_rfl, by simp, by simp⟩

theorem Uses.trans {a b c d : Nat} (h : Uses a b s t) (h' : Uses c d t u) : Uses (a + c) (b + d) s u := by
  obtain ⟨a', ha, h1, h2⟩ := h
  obtain ⟨c', hc, h3, h4⟩ := h'
  refine ⟨a' + c', by omega, ?_, ?_⟩
  · rw [h3, h1, List.drop_drop]
  · rw [h4, h2, List.drop_drop]

theorem Uses.mono {a b c : Nat} (h : Uses a b s t) (hc : a ≤ c) : Uses c b s t := by
  obtain ⟨a', ha, h⟩ := h
  exact ⟨a', by omega, h⟩

theorem Uses.of_eq (hr : t.reconfigDraws = s.reconfigDraws) (hx : t.xferDraws = s.xferDraws) : Uses 0 0 s t :=
  ⟨0, le_rfl, by simp [hr], by simp [hx]⟩

/-- The draws that are left are OK. -/
theorem Uses.okDraws {a b c d : Nat} (h : Uses a b s t) (hs : s.OkDraws (a + c) (b + d)) : t.OkDraws c d := by
  obtain ⟨a', ha, h1, h2⟩ := h
  exact (hs.drop (a := a') (b := b) (by omega) (by omega) h1 h2).mono (by omega) (by omega)

/-! ## Compare-then-set -/

theorem State.widthSet_running (w : Width) (as : List Action) (s : State) :
    (s.running as).widthSet w = (s.widthSet w).running as := by
  unfold State.widthSet; by_cases h : s.busWidth = w <;> simp [State.running, h]

theorem State.dmaModeSet_running (inc : Bool) (w : Width) (as : List Action) (s : State) :
    (s.running as).dmaModeSet inc w = (s.dmaModeSet inc w).running as := by
  unfold State.dmaModeSet; by_cases h : s.dmaInc = inc ∧ s.dmaWidth = w <;> simp [State.running, h]

/-- Three turns: the register, the event, the draw. -/
theorem State.reaches_setWidth (w : Width) (as : List Action) (h : s.busWidth ≠ w → s.OkDraws 1 0) :
    (s.running (.setWidth w :: as)).Reaches ((s.widthSet w).running as) := by
  refine State.Reaches.head (State.engineStep_running _ _ s (by simp)) ?_
  change (State.setWidth w (s.running as)).Reaches _
  unfold State.widthSet
  rcases State.setWidth_cases w (s.running as) with ⟨hw, e⟩ | ⟨hw, e⟩ <;> rw [e]
  · rw [if_pos (show s.busWidth = w from hw)]; exact State.Reaches.refl _
  · rw [if_neg (show ¬s.busWidth = w from hw)]
    refine State.Reaches.head (State.engineStep_running (.emitWidth w) (.drawReconfig :: as)
      { s with busWidth := w } (by simp)) ?_
    refine State.Reaches.step ((State.engineStep_running .drawReconfig as
      (State.emit (.spiWidth w) { s with busWidth := w }) (by simp)).trans ?_)
    exact State.reconfigOutcome_ok (s := (State.emit (.spiWidth w) { s with busWidth := w }).running as) (h hw)

/-- Four turns: each register, the event, the draw. -/
theorem State.reaches_setDmaMode (inc : Bool) (w : Width) (as : List Action) (hd : s.cfg.dmaEnabled = true)
    (h : ¬(s.dmaInc = inc ∧ s.dmaWidth = w) → s.OkDraws 1 0) :
    (s.running (.setDmaMode inc w :: as)).Reaches ((s.dmaModeSet inc w).running as) := by
  refine State.Reaches.head (State.engineStep_running _ _ s (by simp)) ?_
  change (State.setDmaMode inc w (s.running as)).Reaches _
  unfold State.dmaModeSet
  rcases State.setDmaMode_cases inc w (s.running as) with ⟨hn, -⟩ | ⟨-, hm, e⟩ | ⟨-, hm, e⟩
  · exact absurd (hd.symm.trans hn) (by simp)
  · rw [e, if_pos (show s.dmaInc = inc ∧ s.dmaWidth = w from hm)]; exact State.Reaches.refl _
  · rw [e, if_neg (show ¬(s.dmaInc = inc ∧ s.dmaWidth = w) from hm)]
    refine State.Reaches.head (State.engineStep_running (.setDmaWidth w) (.emitDmaCfg inc w :: .drawReconfig :: as)
      { s with dmaInc := inc } (by simp)) ?_
    refine State.Reaches.head (State.engineStep_running (.emitDmaCfg inc w) (.drawReconfig :: as)
      { s with dmaInc := inc, dmaWidth := w } (by simp)) ?_
    refine State.Reaches.step ((State.engineStep_running .drawReconfig as
      (State.emit (.dmaCfg inc w) { s with dmaInc := inc, dmaWidth := w }) (by simp)).trans ?_)
    exact State.reconfigOutcome_ok
      (s := (State.emit (.dmaCfg inc w) { s with dmaInc := inc, dmaWidth := w }).running as) (h hm)

theorem State.widthSet_uses (w : Width) (s : State) : Uses 1 0 s (s.widthSet w) := by
  unfold State.widthSet
  split
  · exact (Uses.refl s).mono (by omega)
  · exact ⟨1, le_rfl, rfl, rfl⟩

theorem State.dmaModeSet_uses (inc : Bool) (w : Width) (s : State) : Uses 1 0 s (s.dmaModeSet inc w) := by
  unfold State.dmaModeSet
  split
  · exact (Uses.refl s).mono (by omega)
  · exact ⟨1, le_rfl, rfl, rfl⟩

@[simp] theorem State.widthSet_busWidth (w : Width) (s : State) : (s.widthSet w).busWidth = w := by
  unfold State.widthSet; split <;> simp_all

/-! ## What the parts of an operation leave unchanged -/

/-- The configuration, the memory, the orientation and its readiness, and the channel are the same. -/
structure SameBase (s t : State) : Prop where
  cfg : t.cfg = s.cfg
  mem : t.mem = s.mem
  rotSet : t.rotSet = s.rotSet
  dma : t.dma = s.dma
  rot : t.rot = s.rot

theorem SameBase.refl (s : State) : SameBase s s := ⟨rfl, rfl, rfl, rfl, rfl⟩

theorem SameBase.trans (h : SameBase s t) (h' : SameBase t u) : SameBase s u :=
  ⟨h'.1.trans h.1, h'.2.trans h.2, h'.3.trans h.3, h'.4.trans h.4, h'.5.trans h.5⟩

theorem State.widthSet_base (w : Width) (s : State) : SameBase s (s.widthSet w) := by
  unfold State.widthSet; split <;> exact ⟨rfl, rfl, rfl, rfl, rfl⟩

theorem State.dmaModeSet_base (inc : Bool) (w : Width) (s : State) : SameBase s (s.dmaModeSet inc w) := by
  unfold State.dmaModeSet; split <;> exact ⟨rfl, rfl, rfl, rfl, rfl⟩

theorem State.dmaModeSet_busWidth (inc : Bool) (w : Width) (s : State) :
    (s.dmaModeSet inc w).busWidth = s.busWidth := by
  unfold State.dmaModeSet; split <;> rfl

/-- A frame value depends on the configuration, the memory and the width alone. -/
theorem State.word_congr (source : Source) (j : Nat) (hc : t.cfg = s.cfg) (hm : t.mem = s.mem)
    (hw : t.busWidth = s.busWidth) : t.word source j = s.word source j := by
  unfold State.word; cases source <;> simp [hc, hm, hw]

theorem State.sourceValue_congr (source : Source) (j : Nat) (hc : t.cfg = s.cfg) (hm : t.mem = s.mem)
    (hw : t.busWidth = s.busWidth) : t.sourceValue source j = s.sourceValue source j := by
  unfold State.sourceValue; rw [State.word_congr source j hc hm hw]

/-! ## Frames of a chunk -/

theorem State.framesFrom_congr (source : Source) (off n : Nat) (hc : t.cfg = s.cfg) (hm : t.mem = s.mem)
    (hw : t.busWidth = s.busWidth) (hcs : t.csN = s.csN) (hdc : t.dc = s.dc) :
    t.framesFrom source off n = s.framesFrom source off n := by
  unfold State.framesFrom
  simp only [State.sourceValue_congr source _ hc hm hw, hw, hcs, hdc]

theorem State.framesFrom_succ (source : Source) (off n : Nat) (s : State) :
    s.framesFrom source off (n + 1) =
      .frame s.csN s.dc s.busWidth (frameValue s.busWidth (s.sourceValue source off)) ::
        s.framesFrom source (off + 1) n := by
  unfold State.framesFrom
  rw [List.range_succ_eq_map, List.map_cons, List.map_map]
  simp only [Nat.add_zero, List.cons.injEq, true_and]
  apply List.map_congr_left
  intro i _
  simp only [Function.comp, Nat.succ_eq_add_one]
  rw [show off + (i + 1) = off + 1 + i by omega]

/-- A fixed source gives the same frames from any offset (42_bulk_transfer.md R182). -/
theorem State.framesFrom_rep (v : Half) (off off' n : Nat) (s : State) :
    s.framesFrom (.rep v) off n = s.framesFrom (.rep v) off' n := rfl

theorem State.framesFrom_advance (source : Source) (off n : Nat) (s : State) :
    s.framesFrom source (if source.isRep then off else off + 1) n = s.framesFrom source (off + 1) n := by
  cases source <;> rfl

/-- The state after one frame is in the trace. -/
def State.afterFrame (source : Source) (off : Nat) (s : State) : State :=
  { s with
    trace := s.trace ++ [.frame s.csN s.dc s.busWidth (frameValue s.busWidth (s.sourceValue source off))]
    xferDraws := s.xferDraws.drop 1 }

theorem State.afterFrame_okDraws (source : Source) (off : Nat) {n : Nat} (h : s.OkDraws 0 (n + 1)) :
    (s.afterFrame source off).OkDraws 0 n :=
  (h.drop (t := s.afterFrame source off) (a := 0) (b := 1) (by omega) (by omega) rfl rfl).mono
    (by omega) (by omega)

/-- The state after `n` frames of a transfer are in the trace. -/
def State.afterFrames (source : Source) (off n : Nat) (s : State) : State :=
  { s with trace := s.trace ++ s.framesFrom source off n, xferDraws := s.xferDraws.drop n }

theorem State.afterFrames_succ (source : Source) (off n : Nat) (s : State) :
    s.afterFrames source off (n + 1) =
      State.afterFrames source (off + 1) n (s.afterFrame source off) := by
  unfold State.afterFrames State.afterFrame
  rw [State.framesFrom_succ]
  simp only [List.append_assoc, List.singleton_append, List.drop_drop]
  rw [Nat.add_comm 1 n]
  congr 1

theorem State.sendChunk_succ (off n : Nat) (s : State) : State.sendChunk off (n + 1) s =
    match s.word s.src off with
    | none => s.raise .busError
    | some v => (s.pushActions (if n = 0 then [] else [.sendChunk (off + 1) n])).send v := rfl

/-- A blocking frame in the trace, and its draw (41_protocol.md R166). -/
theorem State.reaches_sent (v : Half) (as : List Action) (h : s.OkDraws 0 1) :
    (State.send v (s.running as)).Reaches (State.running as { s with
      trace := s.trace ++ [.frame s.csN s.dc s.busWidth (frameValue s.busWidth v)]
      xferDraws := s.xferDraws.drop 1 }) :=
  State.Reaches.step ((State.engineStep_running .drawXfer as
    (s.emit (.frame s.csN s.dc s.busWidth (frameValue s.busWidth v))) (by simp)).trans
    (State.frameOutcome_ok (s := (s.emit (.frame s.csN s.dc s.busWidth (frameValue s.busWidth v))).running as) h))

/-- Blocking frames (42_bulk_transfer.md R183). -/
theorem State.reaches_sendChunk (off n : Nat) (as : List Action) (hn : 0 < n) (hd : s.OkDraws 0 n)
    (hr : ∀ j, j < n → (s.word s.src (off + j)).isSome = true) :
    (s.running (.sendChunk off n :: as)).Reaches ((s.afterFrames s.src off n).running as) := by
  induction n generalizing off s with
  | zero => omega
  | succ n ih =>
    have h0 := hr 0 (by omega)
    rw [Nat.add_zero] at h0
    obtain ⟨v, hv⟩ := Option.isSome_iff_exists.mp h0
    have hval : s.sourceValue s.src off = v := by unfold State.sourceValue; rw [hv]; rfl
    refine State.Reaches.head (State.engineStep_running _ as s (by simp)) ?_
    have hstep : doAction (.sendChunk off (n + 1)) (s.running as) =
        State.send v (s.running ((if n = 0 then [] else [Action.sendChunk (off + 1) n]) ++ as)) := by
      have hv' : (s.running as).word (s.running as).src off = some v := hv
      change State.sendChunk off (n + 1) (s.running as) = _
      rw [State.sendChunk_succ, hv']
      rfl
    rw [hstep]
    refine (State.reaches_sent v _ (hd.mono (by omega) (by omega))).trans ?_
    rw [← hval]
    change (State.running _ (s.afterFrame s.src off)).Reaches _
    rw [State.afterFrames_succ]
    by_cases hn0 : n = 0
    · subst hn0
      simp only [if_true, List.nil_append]
      have : ∀ x : State, x.afterFrames s.src (off + 1) 0 = x := by
        intro x; unfold State.afterFrames State.framesFrom; simp
      rw [this]
      exact State.Reaches.refl _
    · simp only [if_neg hn0, List.singleton_append]
      refine ih (s := s.afterFrame s.src off) (off + 1) (by omega) ?_ ?_
      · exact State.afterFrame_okDraws _ _ hd
      · intro j hj
        have := hr (j + 1) (by omega)
        rw [show off + 1 + j = off + (j + 1) by omega]
        exact this

/-- The state while the DMA channel sends. -/
def State.waiting (source : Source) (k n : Nat) (as : List Action) (s : State) : State :=
  { s with dma := .active source k n, fsm := .waitDma, mseq := as }

/-- Frames of the DMA channel, and the channel ready (42_bulk_transfer.md R186, R185). -/
theorem State.reaches_waiting (source : Source) (k n : Nat) (as : List Action) (hd : s.OkDraws 0 n)
    (hr : ∀ j, j < n → (s.word source (k + j)).isSome = true) :
    (s.waiting source k n as).Reaches (({ s.afterFrames source k n with dma := .ready }).running as) := by
  induction n generalizing k s with
  | zero =>
    have e0 : s.afterFrames source k 0 = s := by unfold State.afterFrames State.framesFrom; simp
    rw [e0]
    refine State.Reaches.head (t := { s with dma := .ready, fsm := .waitDma, mseq := as }) rfl ?_
    exact State.Reaches.step rfl
  | succ n ih =>
    have h0 := hr 0 (by omega)
    rw [Nat.add_zero] at h0
    obtain ⟨v, hv⟩ := Option.isSome_iff_exists.mp h0
    have hval : s.sourceValue source k = v := by unfold State.sourceValue; rw [hv]; rfl
    have hstep : (s.waiting source k (n + 1) as).engineStep =
        State.waiting source (if source.isRep then k else k + 1) n as (s.afterFrame source k) := by
      have hv' : (s.waiting source k (n + 1) as).word source k = some v := hv
      have hdraw := State.drawXfer_ok (s := (s.waiting source k (n + 1) as).emit
        (.frame s.csN s.dc s.busWidth (frameValue s.busWidth v))) (hd.mono (by omega) (by omega))
      have hd' : (s.waiting source k (n + 1) as).dmaStep =
          some (State.waiting source (if source.isRep then k else k + 1) n as (s.afterFrame source k)) := by
        unfold State.dmaStep State.afterFrame
        simp only [show (s.waiting source k (n + 1) as).dma = .active source k (n + 1) from rfl, hv']
        erw [hdraw]
        rw [hval]
        rfl
      unfold State.engineStep
      rw [show (s.waiting source k (n + 1) as).seqStep = none from rfl, hd']
    refine State.Reaches.head hstep ?_
    rw [State.afterFrames_succ]
    have hk : ∀ x : State, x.afterFrames source (k + 1) n =
        x.afterFrames source (if source.isRep then k else k + 1) n := by
      intro x; unfold State.afterFrames; rw [State.framesFrom_advance]
    rw [hk]
    refine ih (s := s.afterFrame source k) _ ?_ ?_
    · exact State.afterFrame_okDraws _ _ hd
    · intro j hj
      have := hr (j + 1) (by omega)
      cases source with
      | mem a => simp only [Source.isRep, Bool.false_eq_true, if_false]
                 rw [show k + 1 + j = k + (j + 1) by omega]; exact this
      | lit l => simp [State.word]
      | rep v => simp [State.word]

end Sys2Proof.Machine
end

