-- ==== Sys2Proof/Laws/Transfer.lean ====
section
/-! SUPPORT. Whole transfers with draws that are OK: chunks, TRANSMIT, WRITE_DATA and framed bytes, and what each uses and leaves unchanged. -/

namespace Sys2Proof.Machine

variable {s t u : State}

/-! ## Chunk sizes (42_bulk_transfer.md R188) -/

@[simp] theorem chunkSizes_zero : chunkSizes 0 = [] := rfl

/-- The first chunk is full or is all there is, and the rest is what remains. -/
theorem chunkSizes_pos {n : Nat} (h : 0 < n) :
    chunkSizes n = min n 65535 :: chunkSizes (n - min n 65535) := by
  unfold chunkSizes
  by_cases hn : 65535 ≤ n
  · obtain ⟨k, hk⟩ : ∃ k, n / 65535 = k + 1 := ⟨n / 65535 - 1, by omega⟩
    have h1 : (n - 65535) / 65535 = k := by omega
    have h2 : (n - 65535) % 65535 = n % 65535 := by omega
    rw [Nat.min_eq_right hn, h1, h2, hk, List.replicate_succ, List.cons_append]
  · have h1 : n / 65535 = 0 := by omega
    have h2 : n % 65535 = n := by omega
    rw [Nat.min_eq_left (by omega), h1, h2, Nat.sub_self]
    simp [show n ≠ 0 by omega]

theorem chunkSizes_sum (n : Nat) : (chunkSizes n).sum = n := by
  unfold chunkSizes
  rw [List.sum_append, List.sum_replicate]
  split <;> simp <;> omega

theorem chunkSizes_le (n : Nat) : ∀ k ∈ chunkSizes n, 1 ≤ k ∧ k ≤ 65535 ∧ k ≤ n := by
  intro k hk
  unfold chunkSizes at hk
  rw [List.mem_append, List.mem_replicate] at hk
  rcases hk with ⟨h1, h2⟩ | hk
  · omega
  · split at hk
    · simp at hk
    · simp only [List.mem_singleton] at hk; omega

theorem chunkSizes_small {n : Nat} (h0 : 0 < n) (h : n < 65535) : chunkSizes n = [n] := by
  rw [chunkSizes_pos h0, Nat.min_eq_left (by omega), Nat.sub_self, chunkSizes_zero]

/-! ## One chunk -/

/-- The DMA mode a chunk of this source needs is the one the channel has (42_bulk_transfer.md R184). -/
def ModeSet (source : Source) (s : State) : Prop := s.dmaInc = (!source.isRep) ∧ s.dmaWidth = s.busWidth

/-- The reconfiguration a chunk of at most `n` frames may need is drawn OK, or is not needed. -/
def ModeReady (source : Source) (n : Nat) (s : State) : Prop :=
  s.OkDraws 1 0 ∨ ModeSet source s ∨ ∀ k, k ≤ n → goesByDma s.cfg k = false

theorem State.dmaModeSet_same (inc : Bool) (w : Width) (h : s.dmaInc = inc ∧ s.dmaWidth = w) :
    s.dmaModeSet inc w = s := by
  unfold State.dmaModeSet; rw [if_pos h]

theorem State.dmaModeSet_mode (inc : Bool) (w : Width) (s : State) :
    (s.dmaModeSet inc w).dmaInc = inc ∧ (s.dmaModeSet inc w).dmaWidth = w := by
  unfold State.dmaModeSet; split
  · assumption
  · exact ⟨rfl, rfl⟩

/-- The lines, the width and the transfer registers are as before the DMA mode was set. -/
theorem State.dmaModeSet_lines (inc : Bool) (w : Width) (s : State) :
    (s.dmaModeSet inc w).csN = s.csN ∧ (s.dmaModeSet inc w).dc = s.dc ∧
    (s.dmaModeSet inc w).src = s.src ∧ (s.dmaModeSet inc w).rem = s.rem := by
  unfold State.dmaModeSet; split <;> exact ⟨rfl, rfl, rfl, rfl⟩

theorem State.chunkSent_base (source : Source) (off n : Nat) (s : State) :
    SameBase s (s.chunkSent source off n) := by
  unfold State.chunkSent
  split
  · have := s.dmaModeSet_base (!source.isRep) s.busWidth
    exact ⟨this.1, this.2, this.3, this.4, this.5⟩
  · exact ⟨rfl, rfl, rfl, rfl, rfl⟩

theorem State.chunkSent_lines (source : Source) (off n : Nat) (s : State) :
    (s.chunkSent source off n).csN = s.csN ∧ (s.chunkSent source off n).dc = s.dc ∧
    (s.chunkSent source off n).src = s.src ∧ (s.chunkSent source off n).rem = s.rem ∧
    (s.chunkSent source off n).busWidth = s.busWidth ∧
    (s.chunkSent source off n).chunk = BitVec.ofNat 16 n := by
  unfold State.chunkSent
  split
  · have := s.dmaModeSet_lines (!source.isRep) s.busWidth
    exact ⟨this.1, this.2.1, this.2.2.1, this.2.2.2, s.dmaModeSet_busWidth _ _, rfl⟩
  · exact ⟨rfl, rfl, rfl, rfl, rfl, rfl⟩

theorem State.chunkSent_uses (source : Source) (off n : Nat) (s : State) :
    Uses 1 n s (s.chunkSent source off n) := by
  unfold State.chunkSent
  split
  · obtain ⟨a, ha, h1, h2⟩ := s.dmaModeSet_uses (!source.isRep) s.busWidth
    exact ⟨a, ha, h1, by simp only [h2, List.drop_zero]⟩
  · exact ⟨0, by omega, rfl, rfl⟩

/-- With the mode set, or without DMA for this chunk, nothing is reconfigured. -/
theorem State.chunkSent_uses_set (source : Source) (off n : Nat) (s : State)
    (h : ModeSet source s ∨ goesByDma s.cfg n = false) : Uses 0 n s (s.chunkSent source off n) := by
  unfold State.chunkSent
  split
  · next hg =>
    have hm : ModeSet source s := h.resolve_right (by simp [hg])
    rw [State.dmaModeSet_same _ _ hm]
    exact ⟨0, by omega, rfl, rfl⟩
  · exact ⟨0, by omega, rfl, rfl⟩

theorem State.chunkSent_mode (source : Source) (off n : Nat) (s : State) :
    (goesByDma s.cfg n = true → ModeSet source (s.chunkSent source off n)) ∧
    (ModeSet source s → ModeSet source (s.chunkSent source off n)) ∧
    (goesByDma s.cfg n = false → (s.chunkSent source off n).reconfigDraws = s.reconfigDraws) := by
  unfold State.chunkSent ModeSet
  cases hg : goesByDma s.cfg n
  · exact ⟨by simp, fun h => h, fun _ => rfl⟩
  · refine ⟨fun _ => ?_, fun h => ?_, by simp⟩
    · have := s.dmaModeSet_mode (!source.isRep) s.busWidth
      exact ⟨this.1, this.2.trans (s.dmaModeSet_busWidth _ _).symm⟩
    · have := s.dmaModeSet_mode (!source.isRep) s.busWidth
      exact ⟨this.1, this.2.trans (s.dmaModeSet_busWidth _ _).symm⟩

theorem chunkSize_pos {rem : Word} (h : rem ≠ 0) : 0 < chunkSize rem := by
  have : rem.toNat ≠ 0 := fun e => h (BitVec.eq_of_toNat_eq (by simpa using e))
  unfold chunkSize Config.maxChunk
  omega

theorem chunkSize_le (rem : Word) : chunkSize rem ≤ 65535 ∧ chunkSize rem ≤ rem.toNat := by
  unfold chunkSize Config.maxChunk; omega

/-- A chunk from its size and transport to its last frame (42_bulk_transfer.md R183 to R186). -/
theorem State.reaches_chunk (off : Nat) (as : List Action) (h0 : s.rem ≠ 0) (hdma : s.dma = .ready)
    (hx : s.OkDraws 0 (chunkSize s.rem)) (hm : ModeReady s.src (chunkSize s.rem) s)
    (hr : ∀ j, j < chunkSize s.rem → (s.word s.src (off + j)).isSome = true) :
    (s.running (.startChunk off :: as)).Reaches
      ((s.chunkSent s.src off (chunkSize s.rem)).running (.endChunk off :: as)) := by
  generalize hn : chunkSize s.rem = n at *
  have hnpos : 0 < n := by rw [← hn]; exact chunkSize_pos h0
  have hstart : doAction (.startChunk off) (s.running as) =
      State.running ((if goesByDma s.cfg n then
        [.setDmaMode (!s.src.isRep) s.busWidth, .emitChunk .dma n, .issueDma off n, .endChunk off]
        else [.emitChunk .blk n, .sendChunk off n, .endChunk off]) ++ as)
        { s with chunk := BitVec.ofNat 16 n } := by
    rw [← hn]; rfl
  refine State.Reaches.head ((State.engineStep_running _ as s (by simp)).trans hstart) ?_
  cases hg : goesByDma s.cfg n
  · -- blocking
    simp only [Bool.false_eq_true, if_false, List.cons_append, List.nil_append]
    refine State.Reaches.head (State.engineStep_running _ _ _ (by simp)) ?_
    change (State.running (.sendChunk off n :: .endChunk off :: as)
      (State.emit (.chunk .blk n) { s with chunk := BitVec.ofNat 16 n })).Reaches _
    have h := State.reaches_sendChunk (s := State.emit (.chunk .blk n) { s with chunk := BitVec.ofNat 16 n })
      off n (.endChunk off :: as) hnpos hx hr
    refine h.trans ?_
    have e : State.afterFrames s.src off n (State.emit (.chunk .blk n) { s with chunk := BitVec.ofNat 16 n }) =
        s.chunkSent s.src off n := by
      have hf : State.framesFrom s.src off n (State.emit (.chunk .blk n) { s with chunk := BitVec.ofNat 16 n }) =
          s.framesFrom s.src off n := State.framesFrom_congr s.src off n rfl rfl rfl rfl rfl
      unfold State.afterFrames State.chunkSent
      rw [hf]
      simp [hg, State.emit]
    change (State.running (.endChunk off :: as) (State.afterFrames s.src off n _)).Reaches _
    rw [e]
    exact State.Reaches.refl _
  · -- by DMA
    simp only [if_true, List.cons_append, List.nil_append]
    have hen : s.cfg.dmaEnabled = true := by
      unfold goesByDma at hg; simp only [Bool.and_eq_true] at hg; exact hg.1
    have hq : ¬(s.dmaInc = (!s.src.isRep) ∧ s.dmaWidth = s.busWidth) → s.OkDraws 1 0 := by
      intro hne
      rcases hm with h | h | h
      · exact h
      · exact absurd h hne
      · exact absurd (h n (Nat.le_refl n)) (by simp [hg])
    refine (State.reaches_setDmaMode (s := { s with chunk := BitVec.ofNat 16 n }) (!s.src.isRep) s.busWidth _
      hen hq).trans ?_
    generalize hB : State.dmaModeSet (!s.src.isRep) s.busWidth { s with chunk := BitVec.ofNat 16 n } = B
    have hBbase : SameBase s B := by
      rw [← hB]; have := State.dmaModeSet_base (!s.src.isRep) s.busWidth { s with chunk := BitVec.ofNat 16 n }
      exact ⟨this.1, this.2, this.3, this.4, this.5⟩
    have hBuses : Uses 1 0 s B := by
      rw [← hB]; exact State.dmaModeSet_uses (!s.src.isRep) s.busWidth { s with chunk := BitVec.ofNat 16 n }
    have hBw : B.busWidth = s.busWidth := by rw [← hB]; exact State.dmaModeSet_busWidth _ _ _
    have hBl : B.csN = s.csN ∧ B.dc = s.dc ∧ B.src = s.src ∧ B.rem = s.rem := by
      rw [← hB]; exact State.dmaModeSet_lines _ _ { s with chunk := BitVec.ofNat 16 n }
    refine State.Reaches.head (State.engineStep_running _ _ _ (by simp)) ?_
    change (State.running (.issueDma off n :: .endChunk off :: as) (B.emit (.chunk .dma n))).Reaches _
    refine State.Reaches.head (State.engineStep_running _ _ _ (by simp)) ?_
    change ((B.emit (.chunk .dma n)).waiting B.src off n (.endChunk off :: as)).Reaches _
    have hBx : B.OkDraws 0 n := by
      obtain ⟨a, -, h1, h2⟩ := hBuses
      obtain ⟨-, k2, -, k4⟩ := hx
      refine ⟨Nat.zero_le _, ?_, by simp, ?_⟩ <;> rw [h2, List.drop_zero] <;> assumption
    refine (State.reaches_waiting (s := B.emit (.chunk .dma n)) B.src off n (.endChunk off :: as) hBx ?_).trans ?_
    · intro j hj
      have := State.word_congr (t := B.emit (.chunk .dma n)) (s := s) B.src (off + j) hBbase.1 hBbase.2 hBw
      rw [this, hBl.2.2.1]
      exact hr j hj
    have e : ({ State.afterFrames B.src off n (B.emit (.chunk .dma n)) with dma := .ready } : State) =
        s.chunkSent s.src off n := by
      have hf : State.framesFrom B.src off n (B.emit (.chunk .dma n)) = s.framesFrom B.src off n :=
        State.framesFrom_congr B.src off n hBbase.1 hBbase.2 hBw hBl.1 hBl.2.1
      unfold State.afterFrames State.chunkSent
      rw [hf, hBl.2.2.1, ← hB]
      unfold State.dmaModeSet
      by_cases hmode : s.dmaInc = (!s.src.isRep) ∧ s.dmaWidth = s.busWidth <;>
        simp [hg, hmode, State.emit, hdma]
    rw [e]
    exact State.Reaches.refl _

/-! ## All the chunks -/

theorem State.chunksSent_base (source : Source) (ns : List Nat) (off : Nat) (s : State) :
    SameBase s (s.chunksSent source ns off) := by
  induction ns generalizing off s with
  | nil => exact SameBase.refl s
  | cons n ns ih => exact (s.chunkSent_base source off n).trans (ih _ _)

theorem State.chunksSent_lines (source : Source) (ns : List Nat) (off : Nat) (s : State) :
    (s.chunksSent source ns off).csN = s.csN ∧ (s.chunksSent source ns off).dc = s.dc ∧
    (s.chunksSent source ns off).busWidth = s.busWidth := by
  induction ns generalizing off s with
  | nil => exact ⟨rfl, rfl, rfl⟩
  | cons n ns ih =>
    have h := ih (advance source off n) (s.chunkSent source off n)
    have k := s.chunkSent_lines source off n
    exact ⟨h.1.trans k.1, h.2.1.trans k.2.1, h.2.2.trans k.2.2.2.2.1⟩

theorem State.chunksSent_uses_set (source : Source) (ns : List Nat) (off : Nat) (s : State)
    (h : ModeSet source s ∨ ∀ k ∈ ns, goesByDma s.cfg k = false) :
    Uses 0 ns.sum s (s.chunksSent source ns off) := by
  induction ns generalizing off s with
  | nil => exact Uses.refl s
  | cons n ns ih =>
    rw [List.sum_cons]
    have h1 := s.chunkSent_uses_set source off n (h.imp_right fun k => k n (by simp))
    refine h1.trans (ih _ _ ?_)
    rcases h with h | h
    · exact .inl ((s.chunkSent_mode source off n).2.1 h)
    · refine .inr fun k hk => ?_
      rw [(s.chunkSent_base source off n).cfg]
      exact h k (by simp [hk])

theorem State.chunksSent_uses (source : Source) (ns : List Nat) (off : Nat) (s : State) :
    Uses 1 ns.sum s (s.chunksSent source ns off) := by
  induction ns generalizing off s with
  | nil => exact (Uses.refl s).mono (by omega)
  | cons n ns ih =>
    rw [List.sum_cons]
    cases hg : goesByDma s.cfg n
    · exact (s.chunkSent_uses_set source off n (.inr hg)).trans (ih _ _) |>.mono (by omega)
    · exact (s.chunkSent_uses source off n).trans
        (State.chunksSent_uses_set source ns _ _ (.inl ((s.chunkSent_mode source off n).1 hg)))

theorem State.chunkSent_rem (source : Source) (off n : Nat) (r : Word) (s : State) :
    State.chunkSent source off n { s with rem := r } = { s.chunkSent source off n with rem := r } := by
  unfold State.chunkSent State.dmaModeSet
  by_cases hm : s.dmaInc = (!source.isRep) ∧ s.dmaWidth = s.busWidth <;>
    cases hg : goesByDma s.cfg n <;> simp [hm, State.framesFrom, State.sourceValue, State.word]

/-- The loop of TRANSMIT from a chunk's start (R183), `rem` not 0. -/
theorem State.reaches_chunks (off : Nat) (as : List Action) (h0 : s.rem ≠ 0) (hdma : s.dma = .ready)
    (hx : s.OkDraws 0 s.rem.toNat) (hm : ModeReady s.src s.rem.toNat s)
    (hr : ∀ j, j < s.rem.toNat → (s.word s.src (off + j)).isSome = true) :
    (s.running (.startChunk off :: as)).Reaches
      ((State.chunksSent s.src (chunkSizes s.rem.toNat) off { s with rem := 0 }).running as) := by
  induction hN : s.rem.toNat using Nat.strong_induction_on generalizing s off with
  | _ N ih =>
  subst hN
  have hle := chunkSize_le s.rem
  have hpos := chunkSize_pos h0
  have hrpos : 0 < s.rem.toNat := by omega
  have h1 := State.reaches_chunk off as h0 hdma (hx.mono (by omega) (by omega))
    (hm.imp_right fun h => h.imp_right fun h k hk => h k (by omega))
    (fun j hj => hr j (by omega))
  refine h1.trans ?_
  rw [chunkSizes_pos hrpos]
  have hcs : min s.rem.toNat 65535 = chunkSize s.rem := rfl
  rw [hcs]
  generalize hn : chunkSize s.rem = n at *
  have hl := s.chunkSent_lines s.src off n
  have hb := s.chunkSent_base s.src off n
  generalize hT : s.chunkSent s.src off n = T at *
  have hchunk : T.chunk.toNat = n := by rw [hl.2.2.2.2.2, BitVec.toNat_ofNat]; omega
  have hsub : (s.rem - BitVec.ofNat 32 n).toNat = s.rem.toNat - n := by
    have := s.rem.isLt
    rw [BitVec.toNat_sub, BitVec.toNat_ofNat]
    omega
  have hend : doAction (.endChunk off) (T.running as) =
      State.running ((if s.rem - BitVec.ofNat 32 n = 0 then []
        else [.startChunk (advance s.src off n)]) ++ as) { T with rem := s.rem - BitVec.ofNat 32 n } := by
    have h1 : State.endChunk off (T.running as) =
        State.running ((if T.rem - BitVec.ofNat 32 T.chunk.toNat = 0 then []
          else [.startChunk (advance T.src off T.chunk.toNat)]) ++ as)
          { T with rem := T.rem - BitVec.ofNat 32 T.chunk.toNat } := rfl
    rw [hl.2.2.2.1, hchunk] at h1
    change State.endChunk off (T.running as) = _
    simpa only [hl.2.2.1] using h1
  refine State.Reaches.head ((State.engineStep_running _ as T (by simp)).trans hend) ?_
  have hz : State.chunksSent s.src (n :: chunkSizes (s.rem.toNat - n)) off { s with rem := 0 } =
      State.chunksSent s.src (chunkSizes (s.rem.toNat - n)) (advance s.src off n) { T with rem := 0 } := by
    change State.chunksSent s.src _ _ (State.chunkSent s.src off n { s with rem := 0 }) = _
    rw [State.chunkSent_rem, hT]
  rw [hz]
  by_cases hlast : s.rem - BitVec.ofNat 32 n = 0
  · have : s.rem.toNat - n = 0 := by rw [← hsub, hlast]; rfl
    rw [this, hlast, chunkSizes_zero]
    simp only [if_true, List.nil_append]
    exact State.Reaches.refl _
  · rw [if_neg hlast]
    simp only [List.singleton_append]
    have hus : Uses 1 n s T := by rw [← hT]; exact s.chunkSent_uses s.src off n
    have hmode := s.chunkSent_mode s.src off n
    rw [hT] at hmode
    have key := ih (s.rem.toNat - n) (by omega) (s := { T with rem := s.rem - BitVec.ofNat 32 n })
      (advance s.src off n) hlast (hb.dma.trans hdma) ?_ ?_ ?_ hsub
    · have hsrc : T.src = s.src := hl.2.2.1
      change (State.running _ _).Reaches ((State.chunksSent T.src (chunkSizes (s.rem.toNat - n)) _
        { T with rem := 0 }).running as) at key
      simpa only [hsrc] using key
    · have : T.OkDraws 0 (s.rem.toNat - n) := by
        obtain ⟨a, -, -, h2⟩ := hus
        obtain ⟨-, k2, -, k4⟩ := hx
        refine ⟨Nat.zero_le _, by rw [h2, List.length_drop]; omega, by simp, ?_⟩
        intro d hd
        rw [h2, List.take_drop] at hd
        apply k4
        have := List.mem_of_mem_drop hd
        rwa [show n + (s.rem.toNat - n) = s.rem.toNat by omega] at this
      rw [← hsub] at this
      exact this
    · have hsrc : T.src = s.src := hl.2.2.1
      change ModeReady T.src _ { T with rem := s.rem - BitVec.ofNat 32 n }
      rw [hsrc]
      cases hg : goesByDma s.cfg n
      · rcases hm with h | h | h
        · refine .inl ?_
          obtain ⟨k1, -, k3, -⟩ := h
          have e := hmode.2.2 hg
          refine ⟨?_, Nat.zero_le _, ?_, by simp⟩
          · change 1 ≤ T.reconfigDraws.length; rw [e]; exact k1
          · change ∀ d ∈ T.reconfigDraws.take 1, d = .ok; rw [e]; exact k3
        · exact .inr (.inl (hmode.2.1 h))
        · refine .inr (.inr fun k hk => ?_)
          change goesByDma T.cfg k = false
          rw [hb.cfg]
          rw [hsub] at hk
          exact h k (by omega)
      · exact .inr (.inl (hmode.1 hg))
    · intro j hj
      change j < (s.rem - BitVec.ofNat 32 n).toNat at hj
      rw [hsub] at hj
      have hw := State.word_congr (t := { T with rem := s.rem - BitVec.ofNat 32 n }) (s := s) T.src
        (advance s.src off n + j) hb.cfg hb.mem hl.2.2.2.2.1
      change (State.word _ T.src (advance s.src off n + j)).isSome = true
      rw [hw, hl.2.2.1]
      cases hsrc : s.src with
      | mem a =>
        have := hr (n + j) (by omega)
        rw [hsrc] at this
        simp only [advance, Source.isRep, Bool.false_eq_true, if_false]
        rw [show off + n + j = off + (n + j) by omega]
        exact this
      | lit l => simp [State.word]
      | rep v => simp [State.word]

/-! ## TRANSMIT (42_bulk_transfer.md R183) and WRITE_DATA (41_protocol.md R164) -/

theorem State.transferred_base (source : Source) (len : Word) (s : State) :
    SameBase s (s.transferred source len) := by
  unfold State.transferred
  have := State.chunksSent_base source (chunkSizes len.toNat) 0 { s with src := source, rem := 0 }
  exact ⟨this.1, this.2, this.3, this.4, this.5⟩

theorem State.transferred_lines (source : Source) (len : Word) (s : State) :
    (s.transferred source len).csN = s.csN ∧ (s.transferred source len).dc = s.dc ∧
    (s.transferred source len).busWidth = s.busWidth :=
  State.chunksSent_lines source (chunkSizes len.toNat) 0 { s with src := source, rem := 0 }

theorem State.transferred_uses (source : Source) (len : Word) (s : State) :
    Uses 1 len.toNat s (s.transferred source len) := by
  have := State.chunksSent_uses source (chunkSizes len.toNat) 0 { s with src := source, rem := 0 }
  rw [chunkSizes_sum] at this
  exact this

theorem State.transferred_uses_none (source : Source) (len : Word) (s : State)
    (h : ∀ k, k ≤ len.toNat → goesByDma s.cfg k = false) : Uses 0 len.toNat s (s.transferred source len) := by
  have := State.chunksSent_uses_set source (chunkSizes len.toNat) 0 { s with src := source, rem := 0 }
    (.inr fun k hk => h k (chunkSizes_le _ k hk).2.2)
  rw [chunkSizes_sum] at this
  exact this

/-- A transfer from where its source is loaded. -/
theorem State.reaches_loaded (source : Source) (len : Word) (as : List Action) (hdma : s.dma = .ready)
    (hx : s.OkDraws 0 len.toNat) (hm : ModeReady source len.toNat s)
    (hr : ∀ j, j < len.toNat → (s.word source j).isSome = true) :
    (State.loadTransfer source len (s.running as)).Reaches ((s.transferred source len).running as) := by
  refine State.Reaches.head (State.engineStep_running (.setRem len) as { s with src := source } (by simp)) ?_
  change (State.running ((if len = 0 then [] else [.startChunk 0]) ++ as)
    { s with src := source, rem := len }).Reaches _
  by_cases h0 : len = 0
  · subst h0
    exact State.Reaches.refl _
  · rw [if_neg h0]
    refine State.reaches_chunks (s := { s with src := source, rem := len }) 0 as h0 hdma hx hm ?_
    intro j hj
    rw [Nat.zero_add]
    exact hr j hj

theorem State.reaches_transfer (source : Source) (len : Word) (as : List Action) (hdma : s.dma = .ready)
    (hx : s.OkDraws 0 len.toNat) (hm : ModeReady source len.toNat s)
    (hr : ∀ j, j < len.toNat → (s.word source j).isSome = true) :
    (s.running (.loadTransfer source len :: as)).Reaches ((s.transferred source len).running as) :=
  State.Reaches.head (State.engineStep_running _ as s (by simp))
    (State.reaches_loaded source len as hdma hx hm hr)

theorem State.dataWritten_base (source : Source) (len : Word) (s : State) :
    SameBase s (s.dataWritten source len) := by
  unfold State.dataWritten
  have := State.transferred_base source len
    { s with csN := false, dc := true, trace := s.trace ++ [.csN false, .dc true] }
  exact ⟨this.1, this.2, this.3, this.4, this.5⟩

theorem State.dataWritten_busWidth (source : Source) (len : Word) (s : State) :
    (s.dataWritten source len).busWidth = s.busWidth :=
  (State.transferred_lines source len
    { s with csN := false, dc := true, trace := s.trace ++ [.csN false, .dc true] }).2.2

theorem State.dataWritten_uses (source : Source) (len : Word) (s : State) :
    Uses 1 len.toNat s (s.dataWritten source len) :=
  State.transferred_uses source len
    { s with csN := false, dc := true, trace := s.trace ++ [.csN false, .dc true] }

theorem State.dataWritten_uses_none (source : Source) (len : Word) (s : State)
    (h : ∀ k, k ≤ len.toNat → goesByDma s.cfg k = false) : Uses 0 len.toNat s (s.dataWritten source len) :=
  State.transferred_uses_none source len
    { s with csN := false, dc := true, trace := s.trace ++ [.csN false, .dc true] } h

/-- The actions of WRITE_DATA after its first: `drive_dc(1)`, the transfer, `drive_cs(1)`. -/
theorem State.reaches_dataTail (source : Source) (len : Word) (as : List Action) (hdma : s.dma = .ready)
    (hx : s.OkDraws 0 len.toNat) (hm : ModeReady source len.toNat s)
    (hr : ∀ j, j < len.toNat → (s.word source j).isSome = true) :
    ((s.driveCs false).running (.driveDc true :: .loadTransfer source len :: .driveCs true :: as)).Reaches
      ((s.dataWritten source len).running as) := by
  refine State.Reaches.head (State.engineStep_running _ _ _ (by simp)) ?_
  have e : doAction (.driveDc true)
      ((s.driveCs false).running (.loadTransfer source len :: .driveCs true :: as)) =
      State.running (.loadTransfer source len :: .driveCs true :: as)
        { s with csN := false, dc := true, trace := s.trace ++ [.csN false, .dc true] } := by
    simp [doAction, State.running, State.driveCs, State.driveDc]
  rw [e]
  refine (State.reaches_transfer
    (s := { s with csN := false, dc := true, trace := s.trace ++ [.csN false, .dc true] })
    source len (.driveCs true :: as) hdma hx hm hr).trans ?_
  exact State.reaches_action (by simp) rfl

theorem State.reaches_writeData (source : Source) (len : Word) (as : List Action) (hdma : s.dma = .ready)
    (hx : s.OkDraws 0 len.toNat) (hm : ModeReady source len.toNat s)
    (hr : ∀ j, j < len.toNat → (s.word source j).isSome = true) :
    (s.running (callWriteData source len ++ as)).Reaches ((s.dataWritten source len).running as) := by
  refine State.Reaches.head (State.engineStep_running (.driveCs false)
    (.driveDc true :: .loadTransfer source len :: .driveCs true :: as) s (by simp)) ?_
  exact State.reaches_dataTail source len as hdma hx hm hr

/-! ## Framed bytes (41_protocol.md R160, R162) -/

theorem frameValue_byte (b : Byte) : frameValue .w8 (b.setWidth 16) = b.setWidth 16 := by
  unfold frameValue
  dsimp only
  apply BitVec.eq_of_toNat_eq
  have := b.isLt
  simp only [BitVec.toNat_setWidth, BitVec.extractLsb'_toNat]
  omega

theorem State.byteSent_base (d : Bool) (b : Byte) (s : State) : SameBase s (s.byteSent d b) := by
  have := s.widthSet_base .w8
  exact ⟨this.1, this.2, this.3, this.4, this.5⟩

theorem State.byteSent_busWidth (d : Bool) (b : Byte) (s : State) : (s.byteSent d b).busWidth = .w8 :=
  s.widthSet_busWidth .w8

theorem State.byteSent_uses (d : Bool) (b : Byte) (s : State) : Uses 1 1 s (s.byteSent d b) := by
  obtain ⟨a, ha, h1, h2⟩ := s.widthSet_uses .w8
  refine ⟨a, ha, h1, ?_⟩
  change (s.widthSet .w8).xferDraws.drop 1 = _
  rw [h2, List.drop_zero]

/-- The state after a blocking 8-bit frame. -/
def State.afterByte (b : Byte) (s : State) : State :=
  { s with
    trace := s.trace ++ [.frame s.csN s.dc .w8 (b.setWidth 16)]
    xferDraws := s.xferDraws.drop 1 }

theorem State.reaches_sendByte (b : Byte) (as : List Action) (hw : s.busWidth = .w8) (h : s.OkDraws 0 1) :
    (s.running (.sendByte b :: as)).Reaches ((s.afterByte b).running as) := by
  refine State.Reaches.head (State.engineStep_running _ as s (by simp)) ?_
  have e := State.reaches_sent (b.setWidth 16) as h
  rw [show frameValue s.busWidth (b.setWidth 16) = b.setWidth 16 by rw [hw, frameValue_byte]] at e
  unfold State.afterByte
  rw [← hw]
  exact e

/-- A framed byte; the reconfiguration is drawn only where the width changes. -/
theorem State.reaches_byte (d : Bool) (b : Byte) (as : List Action) (h : s.busWidth ≠ .w8 → s.OkDraws 1 0)
    (hx : s.OkDraws 0 1) :
    (s.running ([.setWidth .w8, .driveCs false, .driveDc d, .sendByte b, .driveCs true] ++ as)).Reaches
      ((s.byteSent d b).running as) := by
  refine (State.reaches_setWidth .w8 _ h).trans ?_
  have hu := s.widthSet_uses .w8
  have hw := s.widthSet_busWidth .w8
  unfold State.byteSent
  generalize s.widthSet .w8 = t at *
  have hx : t.OkDraws 0 1 := by
    obtain ⟨a, -, -, h2⟩ := hu
    obtain ⟨-, k2, -, k4⟩ := hx
    refine ⟨Nat.zero_le _, ?_, by simp, ?_⟩ <;> rw [h2, List.drop_zero] <;> assumption
  refine State.Reaches.head (State.engineStep_running (.driveCs false) _ _ (by simp)) ?_
  change (State.running (.driveDc d :: .sendByte b :: .driveCs true :: as) (t.driveCs false)).Reaches _
  refine State.Reaches.head (State.engineStep_running (.driveDc d) _ _ (by simp)) ?_
  change (State.running (.sendByte b :: .driveCs true :: as) ((t.driveCs false).driveDc d)).Reaches _
  refine (State.reaches_sendByte (s := (t.driveCs false).driveDc d) b (.driveCs true :: as) hw hx).trans ?_
  refine State.Reaches.head (State.engineStep_running (.driveCs true) _ _ (by simp)) ?_
  change (State.running as ((((t.driveCs false).driveDc d).afterByte b).driveCs true)).Reaches _
  have e : ((((t.driveCs false).driveDc d).afterByte b).driveCs true) =
      { t with
        csN := true
        dc := d
        trace := t.trace ++ [.csN false, .dc d, .frame false d .w8 (b.setWidth 16), .csN true]
        xferDraws := t.xferDraws.drop 1 } := by
    unfold State.driveCs State.afterByte State.driveDc
    simp only [List.append_assoc, List.cons_append, List.nil_append]
  rw [e]
  exact State.Reaches.refl _

theorem State.reaches_command (b : Byte) (as : List Action) (h : s.OkDraws 1 1) :
    (s.running (callWriteCommand b ++ as)).Reaches ((s.byteSent false b).running as) :=
  State.reaches_byte false b as (fun _ => h.mono le_rfl (by omega)) (h.mono (by omega) le_rfl)

theorem State.reaches_smallData (b : Byte) (as : List Action) (h : s.OkDraws 1 1) :
    (s.running (callWriteSmallData b ++ as)).Reaches ((s.byteSent true b).running as) :=
  State.reaches_byte true b as (fun _ => h.mono le_rfl (by omega)) (h.mono (by omega) le_rfl)

end Sys2Proof.Machine
end

