-- ==== Sys2Proof/Laws/Operations.lean ====
section
/-! SUPPORT. Whole operations with draws that are OK: what each run of actions leads to, what it uses and what it leaves unchanged. -/

namespace Sys2Proof.Machine

variable {s t u : State}

theorem SameBase.ready (h : SameBase s t) (hd : s.dma = .ready) : t.dma = .ready := h.dma.trans hd

theorem Uses.ok_left {a b r x : Nat} (h : Uses a b s t) (hs : s.OkDraws r x) (ha : a ≤ r) (hb : b ≤ x) :
    t.OkDraws (r - a) (x - b) :=
  h.okDraws (hs.mono (by omega) (by omega))

/-! ## Byte lists -/

theorem lengthOf_toNat {n : Nat} (h : n < 2 ^ 32) : (lengthOf n).toNat = n := by
  unfold lengthOf; rw [BitVec.toNat_ofNat]; omega

theorem State.lit_isSome (l : List Half) (j : Nat) (s : State) : (s.word (.lit l) j).isSome = true := rfl

theorem State.rep_isSome (v : Half) (j : Nat) (s : State) : (s.word (.rep v) j).isSome = true := rfl

theorem State.bytesWritten_base (l : List Byte) (s : State) : SameBase s (s.bytesWritten l) :=
  s.dataWritten_base _ _

theorem State.bytesWritten_busWidth (l : List Byte) (s : State) : (s.bytesWritten l).busWidth = s.busWidth :=
  s.dataWritten_busWidth _ _

theorem State.bytesWritten_uses (l : List Byte) (hl : l.length < 2 ^ 32) (s : State) :
    Uses 1 l.length s (s.bytesWritten l) := by
  have h := s.dataWritten_uses (byteSource l) (lengthOf l.length)
  rw [lengthOf_toNat hl] at h
  exact h

theorem State.reaches_bytes (l : List Byte) (as : List Action) (hl : l.length < 2 ^ 32) (hdma : s.dma = .ready)
    (h : s.OkDraws 1 l.length) :
    (s.running (callWriteBytes l ++ as)).Reaches ((s.bytesWritten l).running as) :=
  State.reaches_writeData _ _ as hdma (by rw [lengthOf_toNat hl]; exact h.mono (by omega) le_rfl)
    (.inl (h.mono le_rfl (by omega))) fun j _ => State.lit_isSome _ j s

/-! ## The window and the rotation -/

/-- The window registers set, before the commands. -/
def State.windowLatched (x0 y0 x1 y1 : Half) (s : State) : State :=
  { s with
    winXs := x0 + s.cfg.geo.sx
    winXe := x1 + s.cfg.geo.sx
    winYs := y0 + s.cfg.geo.sy
    winYe := y1 + s.cfg.geo.sy }

theorem State.windowSet_uses (x0 y0 x1 y1 : Half) (s : State) :
    Uses 5 11 s (s.windowSet x0 y0 x1 y1) := by
  unfold State.windowSet
  have h0 : Uses 0 0 s (s.windowLatched x0 y0 x1 y1) := Uses.of_eq rfl rfl
  exact ((((h0.trans (State.byteSent_uses false _ _)).trans (State.bytesWritten_uses _ (by simp [bounds]) _)).trans
    (State.byteSent_uses false _ _)).trans (State.bytesWritten_uses _ (by simp [bounds]) _)).trans
    (State.byteSent_uses false _ _)

theorem State.windowSet_base (x0 y0 x1 y1 : Half) (s : State) : SameBase s (s.windowSet x0 y0 x1 y1) := by
  unfold State.windowSet
  have h0 : SameBase s (s.windowLatched x0 y0 x1 y1) := ⟨rfl, rfl, rfl, rfl, rfl⟩
  exact ((((h0.trans (State.byteSent_base false _ _)).trans (State.bytesWritten_base _ _)).trans
    (State.byteSent_base false _ _)).trans (State.bytesWritten_base _ _)).trans (State.byteSent_base false _ _)

theorem State.windowSet_busWidth (x0 y0 x1 y1 : Half) (s : State) :
    (s.windowSet x0 y0 x1 y1).busWidth = .w8 := State.byteSent_busWidth _ _ _

theorem State.reaches_windowActions (x0 y0 x1 y1 : Half) (as : List Action) (hdma : s.dma = .ready)
    (h : s.OkDraws 5 11) :
    (s.running (windowActions s.cfg x0 y0 x1 y1 ++ as)).Reaches ((s.windowSet x0 y0 x1 y1).running as) := by
  have e : ∀ l : List Action, (s.running ([.setWinXs (x0 + s.cfg.geo.sx), .setWinXe (x1 + s.cfg.geo.sx),
      .setWinYs (y0 + s.cfg.geo.sy), .setWinYe (y1 + s.cfg.geo.sy)] ++ l)).Reaches
      ((s.windowLatched x0 y0 x1 y1).running l) := fun l => ⟨4, rfl⟩
  unfold windowActions State.windowSet
  simp only [List.append_assoc]
  refine (e _).trans ?_
  have h0 : SameBase s (s.windowLatched x0 y0 x1 y1) := ⟨rfl, rfl, rfl, rfl, rfl⟩
  change (State.running _ (s.windowLatched x0 y0 x1 y1)).Reaches
    (State.running as (State.byteSent _ _ (State.bytesWritten _ (State.byteSent _ _ (State.bytesWritten _
      (State.byteSent false s.cfg.cmdCaset (s.windowLatched x0 y0 x1 y1)))))))
  replace h : (s.windowLatched x0 y0 x1 y1).OkDraws 5 11 := h
  replace hdma : (s.windowLatched x0 y0 x1 y1).dma = .ready := hdma
  generalize s.windowLatched x0 y0 x1 y1 = a at *
  refine (State.reaches_command _ _ (h.mono (by omega) (by omega))).trans ?_
  have h := (a.byteSent_uses false s.cfg.cmdCaset).ok_left h (by omega) (by omega)
  have hdma := (a.byteSent_base false s.cfg.cmdCaset).ready hdma
  generalize a.byteSent false s.cfg.cmdCaset = b at *
  refine (State.reaches_bytes _ _ (by simp [bounds]) hdma (h.mono (by omega) (by simp [bounds]))).trans ?_
  have h := (b.bytesWritten_uses (bounds (x0 + s.cfg.geo.sx) (x1 + s.cfg.geo.sx)) (by simp [bounds])).ok_left
    h (by omega) (by simp [bounds])
  have hdma := (b.bytesWritten_base (bounds (x0 + s.cfg.geo.sx) (x1 + s.cfg.geo.sx))).ready hdma
  generalize b.bytesWritten (bounds (x0 + s.cfg.geo.sx) (x1 + s.cfg.geo.sx)) = c at *
  refine (State.reaches_command _ _ (h.mono (by omega) (by simp [bounds]))).trans ?_
  have h := (c.byteSent_uses false s.cfg.cmdRaset).ok_left h (by omega) (by simp [bounds])
  have hdma := (c.byteSent_base false s.cfg.cmdRaset).ready hdma
  generalize c.byteSent false s.cfg.cmdRaset = d at *
  refine (State.reaches_bytes _ _ (by simp [bounds]) hdma (h.mono (by omega) (by simp [bounds]))).trans ?_
  have h := (d.bytesWritten_uses (bounds (y0 + s.cfg.geo.sy) (y1 + s.cfg.geo.sy)) (by simp [bounds])).ok_left
    h (by omega) (by simp [bounds])
  exact State.reaches_command _ _ (h.mono (by omega) (by simp [bounds]))

theorem State.reaches_window (x0 y0 x1 y1 : Half) (as : List Action) (hr : s.rotSet = true)
    (hw : windowValid s.cfg x0 y0 x1 y1 = true) (hdma : s.dma = .ready) (h : s.OkDraws 5 11) :
    (s.running (callWindow s.cfg x0 y0 x1 y1 ++ as)).Reaches ((s.windowSet x0 y0 x1 y1).running as) := by
  unfold callWindow planWindow
  rw [hw]
  refine State.Reaches.head (State.engineStep_running .checkReady _ _ (by simp)) ?_
  have e : ∀ l, doAction .checkReady (s.running l) = s.running l := by
    intro l; unfold doAction; dsimp only; rw [show (s.running l).rotSet = true from hr]; rfl
  rw [e]
  exact State.reaches_windowActions x0 y0 x1 y1 as hdma h

theorem State.rotationSet_uses (m : BitVec 2) (s : State) : Uses 2 2 s (s.rotationSet m) :=
  (s.byteSent_uses false s.cfg.cmdMadctl).trans (State.byteSent_uses true (s.cfg.rotPattern m) _)

theorem State.rotationSet_cfg (m : BitVec 2) (s : State) : (s.rotationSet m).cfg = s.cfg :=
  ((s.byteSent_base false s.cfg.cmdMadctl).trans (State.byteSent_base true (s.cfg.rotPattern m) _)).cfg

theorem State.rotationSet_dma (m : BitVec 2) (s : State) : (s.rotationSet m).dma = s.dma :=
  ((s.byteSent_base false s.cfg.cmdMadctl).trans (State.byteSent_base true (s.cfg.rotPattern m) _)).dma

theorem State.reaches_rotation (m : BitVec 2) (as : List Action) (h : s.OkDraws 2 2) :
    (s.running (rotationActions s.cfg m ++ as)).Reaches ((s.rotationSet m).running as) := by
  unfold rotationActions
  simp only [List.append_assoc]
  refine (State.reaches_command _ _ (h.mono (by omega) (by omega))).trans ?_
  have h := (s.byteSent_uses false s.cfg.cmdMadctl).ok_left h (by omega) (by omega)
  unfold State.rotationSet
  generalize s.byteSent false s.cfg.cmdMadctl = a at *
  refine (State.reaches_smallData _ _ (h.mono (by omega) (by omega))).trans ?_
  exact ⟨2, rfl⟩

/-! ## Fills -/

theorem State.reaches_entries (l : List (Fin 64)) (color : Half) (as : List Action) (s : State) :
    (s.running (l.map (fun i => .fillEntry i color) ++ as)).Reaches
      (State.running as { s with fillBuf := l.foldl (fun (b : Vector Half 64) (i : Fin 64) => b.set i color) s.fillBuf }) := by
  induction l generalizing s with
  | nil => exact State.Reaches.refl _
  | cons i l ih =>
    refine State.Reaches.head (State.engineStep_running (.fillEntry i color) _ _ (by simp)) ?_
    exact ih { s with fillBuf := s.fillBuf.set i color }

theorem entries_get (l : List (Fin 64)) (color : Half) (b : Vector Half 64) (j : Nat) (hj : j < 64) :
    (l.foldl (fun (b : Vector Half 64) (i : Fin 64) => b.set i color) b)[j] = if ⟨j, hj⟩ ∈ l then color else b[j] := by
  induction l generalizing b with
  | nil => simp
  | cons i l ih =>
    rw [List.foldl_cons, ih]
    by_cases h : (⟨j, hj⟩ : Fin 64) ∈ l
    · simp [h]
    · by_cases hi : (i : Nat) = j
      · subst hi; simp
      · have : (⟨j, hj⟩ : Fin 64) ≠ i := fun e => hi (by rw [← e])
        simp [h, this, hi]

theorem entries_all (color : Half) (b : Vector Half 64) :
    (List.finRange 64).foldl (fun (b : Vector Half 64) (i : Fin 64) => b.set i color) b = Vector.replicate 64 color := by
  apply Vector.ext
  intro j hj
  rw [entries_get, if_pos (List.mem_finRange _), Vector.getElem_replicate]

theorem State.reaches_fillBuf (color : Half) (as : List Action) (s : State) :
    (s.running ((List.finRange 64).map (fun i => .fillEntry i color) ++ as)).Reaches
      (State.running as { s with fillBuf := Vector.replicate 64 color }) := by
  have h := State.reaches_entries (List.finRange 64) color as s
  rwa [entries_all] at h

@[simp] theorem blockSizes_zero : blockSizes 0 = [] := rfl

/-- The first block is full or is all there is. -/
theorem blockSizes_pos {n : Nat} (h : 0 < n) : blockSizes n = min n 64 :: blockSizes (n - min n 64) := by
  unfold blockSizes
  by_cases hn : 64 ≤ n
  · obtain ⟨k, hk⟩ : ∃ k, n / 64 = k + 1 := ⟨n / 64 - 1, by omega⟩
    have h1 : (n - 64) / 64 = k := by omega
    have h2 : (n - 64) % 64 = n % 64 := by omega
    rw [Nat.min_eq_right hn, h1, h2, hk, List.replicate_succ, List.cons_append]
  · have h1 : n / 64 = 0 := by omega
    have h2 : n % 64 = n := by omega
    rw [Nat.min_eq_left (by omega), h1, h2, Nat.sub_self]
    simp [show n ≠ 0 by omega]

theorem blockSizes_sum (n : Nat) : (blockSizes n).sum = n := by
  unfold blockSizes
  rw [List.sum_append, List.sum_replicate]
  split <;> simp <;> omega

theorem blockSizes_le (n : Nat) : ∀ k ∈ blockSizes n, 1 ≤ k ∧ k ≤ 64 ∧ k ≤ n := by
  intro k hk
  unfold blockSizes at hk
  rw [List.mem_append, List.mem_replicate] at hk
  rcases hk with ⟨h1, h2⟩ | hk
  · omega
  · split at hk
    · simp at hk
    · simp only [List.mem_singleton] at hk; omega

theorem goesByDma_mono {c : Config} {k n : Nat} (h : goesByDma c n = false) (hk : k ≤ n) :
    goesByDma c k = false := by
  unfold goesByDma at *
  cases hd : c.dmaEnabled <;> simp_all
  omega

theorem State.blocksSent_cons (color : Half) (n : Nat) (ns : List Nat) (s : State) :
    s.blocksSent color (n :: ns) =
      State.blocksSent color ns (s.dataWritten (.lit (List.replicate n color)) (lengthOf n)) := rfl

theorem State.dataWritten_fillBuf (source : Source) (len : Word) (s : State) :
    (s.dataWritten source len).fillBuf = s.fillBuf := by
  have hc : ∀ (ns : List Nat) (off : Nat) (a : State), (State.chunksSent source ns off a).fillBuf = a.fillBuf := by
    intro ns
    induction ns with
    | nil => intro off a; rfl
    | cons n ns ih =>
      intro off a
      refine (ih _ _).trans ?_
      unfold State.chunkSent State.dmaModeSet
      by_cases hm : a.dmaInc = (!source.isRep) ∧ a.dmaWidth = a.busWidth <;>
        cases hg : goesByDma a.cfg n <;> simp [hm]
  exact hc _ _ _

theorem take_replicate (k n : Nat) (color : Half) (h : k ≤ n) :
    (Vector.replicate n color).toList.take k = List.replicate k color := by
  simp [Nat.min_eq_left h]

theorem State.blocksSent_uses (color : Half) (ns : List Nat) (s : State)
    (h : ∀ k ∈ ns, k < 2 ^ 32 ∧ goesByDma s.cfg k = false) :
    Uses 0 ns.sum s (s.blocksSent color ns) := by
  induction ns generalizing s with
  | nil => exact Uses.refl s
  | cons n ns ih =>
    rw [List.sum_cons, State.blocksSent_cons]
    have hn := h n (by simp)
    have h1 := s.dataWritten_uses_none (.lit (List.replicate n color)) (lengthOf n) (by
      rw [lengthOf_toNat hn.1]; exact fun k hk => goesByDma_mono hn.2 hk)
    rw [lengthOf_toNat hn.1] at h1
    refine h1.trans (ih _ fun k hk => ?_)
    rw [(s.dataWritten_base _ _).cfg]
    exact h k (by simp [hk])

theorem State.blocksSent_base (color : Half) (ns : List Nat) (s : State) : SameBase s (s.blocksSent color ns) := by
  induction ns generalizing s with
  | nil => exact SameBase.refl s
  | cons n ns ih => rw [State.blocksSent_cons]; exact (s.dataWritten_base _ _).trans (ih _)

/-- The blocks of the buffer path of a fill (44_pixel_stream.md R242). -/
theorem State.reaches_fillBlocks (left : Nat) (color : Half) (as : List Action) (h0 : 0 < left)
    (hb : s.fillBuf = Vector.replicate 64 color) (hdma : s.dma = .ready)
    (hg : goesByDma s.cfg left = false) (hx : s.OkDraws 0 left) :
    (s.running (.fillBlocks left :: as)).Reaches ((s.blocksSent color (blockSizes left)).running as) := by
  induction left using Nat.strong_induction_on generalizing s with
  | _ left ih =>
  have hn : min left Config.fillBufLen = min left 64 := rfl
  have hlen : min left 64 < 2 ^ 32 := by omega
  have hstep : doAction (.fillBlocks left) (s.running as) =
      State.running (.driveDc true :: .loadTransfer (.lit (List.replicate (min left 64) color))
        (lengthOf (min left 64)) :: .driveCs true ::
        ((if left - min left 64 = 0 then [] else [.fillBlocks (left - min left 64)]) ++ as))
        (s.driveCs false) := by
    have e : doAction (.fillBlocks left) (s.running as) =
      State.running (.driveDc true :: .loadTransfer (.lit (s.fillBuf.toList.take (min left 64)))
        (lengthOf (min left 64)) :: .driveCs true ::
        ((if left - min left 64 = 0 then [] else [.fillBlocks (left - min left 64)]) ++ as))
        (s.driveCs false) := rfl
    rw [e, hb, take_replicate _ _ _ (by omega)]
  refine State.Reaches.head ((State.engineStep_running _ as s (by simp)).trans hstep) ?_
  have hgs : ∀ k, k ≤ min left 64 → goesByDma s.cfg k = false :=
    fun k hk => goesByDma_mono hg (by omega)
  refine (State.reaches_dataTail (s := s) (.lit (List.replicate (min left 64) color)) (lengthOf (min left 64)) _
    hdma (by rw [lengthOf_toNat hlen]; exact hx.mono le_rfl (by omega))
    (.inr (.inr (by rw [lengthOf_toNat hlen]; exact hgs))) (fun j _ => State.lit_isSome _ j s)).trans ?_
  rw [blockSizes_pos h0, State.blocksSent_cons]
  have hu := s.dataWritten_uses_none (.lit (List.replicate (min left 64) color)) (lengthOf (min left 64))
    (by rw [lengthOf_toNat hlen]; exact hgs)
  rw [lengthOf_toNat hlen] at hu
  have hbase := s.dataWritten_base (.lit (List.replicate (min left 64) color)) (lengthOf (min left 64))
  have hfb := s.dataWritten_fillBuf (.lit (List.replicate (min left 64) color)) (lengthOf (min left 64))
  generalize s.dataWritten (.lit (List.replicate (min left 64) color)) (lengthOf (min left 64)) = a at *
  by_cases hl : left - min left 64 = 0
  · rw [if_pos hl, hl]
    exact State.Reaches.refl _
  · rw [if_neg hl]
    refine ih (left - min left 64) (by omega) (s := a) (by omega) (hfb.trans hb) (hbase.dma.trans hdma) ?_ ?_
    · rw [hbase.cfg]; exact goesByDma_mono hg (by omega)
    · exact (hu.ok_left hx (by omega) (by omega)).mono (by omega) le_rfl

theorem State.pixelsFilled_base (count : Nat) (color : Half) (s : State) :
    SameBase s (s.pixelsFilled count color) := by
  unfold State.pixelsFilled
  split
  · have h1 := (s.widthSet_base .w16).trans (State.dmaModeSet_base false .w16 _)
    have h2 : SameBase ((s.widthSet .w16).dmaModeSet false .w16)
      { (s.widthSet .w16).dmaModeSet false .w16 with fillColor := color } := ⟨rfl, rfl, rfl, rfl, rfl⟩
    exact (h1.trans h2).trans (State.dataWritten_base _ _ _)
  · have h1 : SameBase s { s with fillBuf := Vector.replicate 64 color } := ⟨rfl, rfl, rfl, rfl, rfl⟩
    exact (h1.trans (State.widthSet_base .w16 _)).trans (State.blocksSent_base _ _ _)

theorem State.pixelsFilled_uses (count : Nat) (color : Half) (hc : count < 2 ^ 32) (s : State) :
    Uses 3 count s (s.pixelsFilled count color) := by
  unfold State.pixelsFilled
  split
  · have h1 := (s.widthSet_uses .w16).trans (State.dmaModeSet_uses false .w16 _)
    have h2 : Uses 0 0 ((s.widthSet .w16).dmaModeSet false .w16)
      { (s.widthSet .w16).dmaModeSet false .w16 with fillColor := color } := Uses.of_eq rfl rfl
    have h3 := (h1.trans h2).trans (State.dataWritten_uses (.rep color) (lengthOf count) _)
    rw [lengthOf_toNat hc] at h3
    simpa using h3
  · next hg =>
    have h1 : Uses 0 0 s { s with fillBuf := Vector.replicate 64 color } := Uses.of_eq rfl rfl
    have h2 := h1.trans (State.widthSet_uses .w16 _)
    have hcfg := (State.widthSet_base .w16 { s with fillBuf := Vector.replicate 64 color }).cfg
    have h3 := h2.trans (State.blocksSent_uses color (blockSizes count) _ (by
      intro k hk
      have := blockSizes_le count k hk
      refine ⟨by omega, ?_⟩
      rw [hcfg]
      exact goesByDma_mono (by simpa using hg) this.2.2))
    rw [blockSizes_sum] at h3
    rw [Nat.zero_add, Nat.zero_add] at h3
    exact h3.mono (by omega)

theorem State.widthSet_fillBuf (w : Width) (s : State) : (s.widthSet w).fillBuf = s.fillBuf := by
  unfold State.widthSet; split <;> rfl

/-- WRITE_DATA of the colour register (44_pixel_stream.md R242). -/
theorem State.reaches_writeFill (len : Word) (as : List Action) (hdma : s.dma = .ready)
    (hx : s.OkDraws 1 len.toNat) :
    (s.running ([.driveCs false, .driveDc true, .loadFill len, .driveCs true] ++ as)).Reaches
      ((s.dataWritten (.rep s.fillColor) len).running as) := by
  refine State.Reaches.head (State.engineStep_running (.driveCs false) _ s (by simp)) ?_
  refine State.Reaches.head (State.engineStep_running (.driveDc true)
    (.loadFill len :: .driveCs true :: as) (s.driveCs false) (by simp)) ?_
  refine State.Reaches.head (State.engineStep_running (.loadFill len)
    (.driveCs true :: as) ((s.driveCs false).driveDc true) (by simp)) ?_
  have e : (s.driveCs false).driveDc true =
      { s with csN := false, dc := true, trace := s.trace ++ [.csN false, .dc true] } := by
    simp [State.driveCs, State.driveDc]
  change (State.loadTransfer (.rep s.fillColor) len
    (State.running (.driveCs true :: as) ((s.driveCs false).driveDc true))).Reaches _
  rw [e]
  refine (State.reaches_loaded
    (s := { s with csN := false, dc := true, trace := s.trace ++ [.csN false, .dc true] })
    (.rep s.fillColor) len (.driveCs true :: as) hdma (hx.mono (by omega) le_rfl)
    (.inl (hx.mono le_rfl (by omega))) (fun j _ => State.rep_isSome _ j _)).trans ?_
  exact State.reaches_action (by simp) rfl

theorem State.reaches_fillPixels (count : Nat) (color : Half) (as : List Action) (hc : count < 2 ^ 32)
    (hdma : s.dma = .ready) (h : s.OkDraws 3 count) :
    (s.running (callFillPixels s.cfg count color ++ as)).Reaches ((s.pixelsFilled count color).running as) := by
  unfold callFillPixels State.pixelsFilled
  cases hg : goesByDma s.cfg count
  · simp only [Bool.false_eq_true, if_false]
    unfold fillByBuffer
    simp only [List.append_assoc]
    refine (State.reaches_fillBuf color _ s).trans ?_
    have hA : ({ s with fillBuf := Vector.replicate 64 color } : State).fillBuf = Vector.replicate 64 color := rfl
    have hAc : ({ s with fillBuf := Vector.replicate 64 color } : State).cfg = s.cfg := rfl
    replace h : ({ s with fillBuf := Vector.replicate 64 color } : State).OkDraws 3 count := h
    replace hdma : ({ s with fillBuf := Vector.replicate 64 color } : State).dma = .ready := hdma
    generalize ({ s with fillBuf := Vector.replicate 64 color } : State) = a at *
    refine (State.reaches_setWidth .w16 _ fun _ => h.mono (by omega) (by omega)).trans ?_
    have hB := (a.widthSet_fillBuf .w16).trans hA
    have hbase := a.widthSet_base .w16
    have hu := (a.widthSet_uses .w16).ok_left h (by omega) (by omega)
    generalize a.widthSet .w16 = b at *
    by_cases h0 : count = 0
    · subst h0
      exact State.Reaches.refl _
    · rw [if_neg h0]
      refine State.reaches_fillBlocks count color as (by omega) hB (hbase.dma.trans hdma) ?_
        (hu.mono (by omega) (by omega))
      rw [hbase.cfg, hAc]; exact hg
  · simp only [if_true]
    have hen : s.cfg.dmaEnabled = true := by
      unfold goesByDma at hg; simp only [Bool.and_eq_true] at hg; exact hg.1
    refine (State.reaches_setWidth .w16 _ fun _ => h.mono (by omega) (by omega)).trans ?_
    have h1 := (s.widthSet_uses .w16).ok_left h (by omega) (by omega)
    have hb1 := s.widthSet_base .w16
    generalize s.widthSet .w16 = a at *
    refine (State.reaches_setDmaMode false .w16 _ (by rw [hb1.cfg]; exact hen)
      fun _ => h1.mono (by omega) (by omega)).trans ?_
    have h2 := (a.dmaModeSet_uses false .w16).ok_left h1 (by omega) (by omega)
    have hb2 := hb1.trans (a.dmaModeSet_base false .w16)
    generalize a.dmaModeSet false .w16 = b at *
    refine State.Reaches.head (State.engineStep_running (.setFillColor color) _ _ (by simp)) ?_
    change (State.running ([.driveCs false, .driveDc true, .loadFill (lengthOf count), .driveCs true] ++ as)
      { b with fillColor := color }).Reaches _
    have hx : ({ b with fillColor := color } : State).OkDraws (3 - 1 - 1) (count - 0 - 0) := h2
    have hd : ({ b with fillColor := color } : State).dma = .ready := hb2.dma.trans hdma
    have hf : ({ b with fillColor := color } : State).fillColor = color := rfl
    generalize ({ b with fillColor := color } : State) = d at *
    have hw := State.reaches_writeFill (s := d) (lengthOf count) as hd
      (by rw [lengthOf_toNat hc]; exact hx.mono (by omega) (by omega))
    rw [hf] at hw
    exact hw

end Sys2Proof.Machine
end

