-- ==== Sys2Proof/Laws/Drawing.lean ====
section
/-! SUPPORT. The drawing operations and INIT with draws that are OK: what each run of actions leads to and what it uses. -/

namespace Sys2Proof.Machine

variable {s t u : State}

/-! ## FILL_RECT, DRAW_PIXEL, DRAW_IMAGE (44_pixel_stream.md R244, R248, R250) -/

theorem State.rectFilled_base (x0 y0 x1 y1 color : Half) (s : State) :
    SameBase s (s.rectFilled x0 y0 x1 y1 color) :=
  (s.windowSet_base x0 y0 x1 y1).trans (State.pixelsFilled_base _ _ _)

theorem State.rectFilled_uses (x0 y0 x1 y1 color : Half) (s : State)
    (h : rectCount x0 y0 x1 y1 < 2 ^ 32) :
    Uses 8 (11 + rectCount x0 y0 x1 y1) s (s.rectFilled x0 y0 x1 y1 color) :=
  (s.windowSet_uses x0 y0 x1 y1).trans (State.pixelsFilled_uses _ _ h _)

theorem State.reaches_rect (x0 y0 x1 y1 color : Half) (as : List Action) (hr : s.rotSet = true)
    (hw : windowValid s.cfg x0 y0 x1 y1 = true) (hdma : s.dma = .ready)
    (h : s.OkDraws 8 (11 + rectCount x0 y0 x1 y1)) :
    (s.running (callWindow s.cfg x0 y0 x1 y1 ++ callFillPixels s.cfg (rectCount x0 y0 x1 y1) color ++ as)).Reaches
      ((s.rectFilled x0 y0 x1 y1 color).running as) := by
  rw [List.append_assoc]
  refine (State.reaches_window x0 y0 x1 y1 _ hr hw hdma (h.mono (by omega) (by omega))).trans ?_
  have hb := s.windowSet_base x0 y0 x1 y1
  have hu := (s.windowSet_uses x0 y0 x1 y1).ok_left h (by omega) (by omega)
  have key := State.reaches_fillPixels (s := s.windowSet x0 y0 x1 y1) (rectCount x0 y0 x1 y1) color as
    (rectCount_le s.cfg hw).2 (hb.ready hdma) (hu.mono (by omega) (by omega))
  rw [hb.cfg] at key
  exact key

theorem planRect_runs (c : Config) {x0 y0 x1 y1 color : Half} (hw : windowValid c x0 y0 x1 y1 = true) :
    planRect c x0 y0 x1 y1 color =
      .runs (callWindow c x0 y0 x1 y1 ++ callFillPixels c (rectCount x0 y0 x1 y1) color) := by
  unfold windowValid at hw
  simp only [Bool.and_eq_true, Bool.not_eq_true'] at hw
  unfold planRect
  simp [hw.1, hw.2]

theorem State.reaches_checkReady (as : List Action) (hr : s.rotSet = true) :
    (s.running (.checkReady :: as)).Reaches (s.running as) := by
  refine State.reaches_action (by simp) ?_
  unfold doAction
  dsimp only
  rw [show (s.running as).rotSet = true from hr]
  rfl

theorem State.reaches_fillRect (x0 y0 x1 y1 color : Half) (as : List Action) (hr : s.rotSet = true)
    (hw : windowValid s.cfg x0 y0 x1 y1 = true) (hdma : s.dma = .ready)
    (h : s.OkDraws 8 (11 + rectCount x0 y0 x1 y1)) :
    (s.running (callFillRect s.cfg x0 y0 x1 y1 color ++ as)).Reaches
      ((s.rectFilled x0 y0 x1 y1 color).running as) := by
  unfold callFillRect
  rw [planRect_runs s.cfg hw]
  exact (State.reaches_checkReady _ hr).trans (State.reaches_rect x0 y0 x1 y1 color as hr hw hdma h)

theorem State.reaches_pixel (x y color : Half) (as : List Action) (hr : s.rotSet = true)
    (hp : pointInside s.cfg x y = true) (hdma : s.dma = .ready) (h : s.OkDraws 6 13) :
    (s.running (callWindow s.cfg x y x y ++ callWriteBytes (pixelBytes color) ++ as)).Reaches
      ((s.pixelDrawn x y color).running as) := by
  rw [List.append_assoc]
  refine (State.reaches_window x y x y _ hr (pointWindow_valid s.cfg hp) hdma
    (h.mono (by omega) (by omega))).trans ?_
  have hb := s.windowSet_base x y x y
  have hu := (s.windowSet_uses x y x y).ok_left h (by omega) (by omega)
  exact State.reaches_bytes (s := s.windowSet x y x y) (pixelBytes color) as (by simp [pixelBytes])
    (hb.ready hdma) (hu.mono (by omega) (by simp [pixelBytes]))

theorem State.reaches_image (x y bw bh : Half) (addr : Word) (as : List Action) (hr : s.rotSet = true)
    (hi : imageInside s.cfg x y bw bh = true) (hw : bw ≠ 0) (hh : bh ≠ 0) (hdma : s.dma = .ready)
    (h : s.OkDraws 8 (11 + bw.toNat * bh.toNat)) (hm : s.Readable .w16 (.mem addr) (bw.toNat * bh.toNat)) :
    (s.running (imageActions s.cfg x y bw bh addr ++ as)).Reaches
      ((s.imageDrawn x y bw bh addr).running as) := by
  have hlen := imageCount_lt s.cfg hi hw hh
  have hv := imageWindow_valid s.cfg hi hw hh
  unfold imageActions State.imageDrawn
  generalize lastCoord x bw = x1 at *
  generalize lastCoord y bh = y1 at *
  simp only [List.append_assoc]
  refine (State.reaches_window x y x1 y1 _ hr hv hdma (h.mono (by omega) (by omega))).trans ?_
  have hb := s.windowSet_base x y x1 y1
  have hu := (s.windowSet_uses x y x1 y1).ok_left h (by omega) (by omega)
  generalize s.windowSet x y x1 y1 = a at *
  refine (State.reaches_setWidth .w16 _ fun _ => hu.mono (by omega) (by omega)).trans ?_
  have hu := (a.widthSet_uses .w16).ok_left hu (by omega) (by omega)
  have hb := hb.trans (a.widthSet_base .w16)
  have hw16 := a.widthSet_busWidth .w16
  generalize a.widthSet .w16 = b at *
  have hrd : ∀ d : State, SameBase s d → d.busWidth = .w16 → ∀ j, j < (lengthOf (bw.toNat * bh.toNat)).toNat →
      (d.word (.mem addr) j).isSome = true := by
    intro d hd hdw j hj
    rw [lengthOf_toNat hlen] at hj
    have e := State.word_congr (t := d) (s := { s with busWidth := .w16 }) (.mem addr) j hd.cfg hd.mem hdw
    rw [e]
    exact hm j hj
  cases hd : s.cfg.dmaEnabled
  · simp only [Bool.false_eq_true, if_false, List.nil_append]
    exact State.reaches_writeData _ _ as (hb.ready hdma)
      (by rw [lengthOf_toNat hlen]; exact hu.mono (by omega) (by omega))
      (.inl (hu.mono (by omega) (by omega))) (hrd b hb hw16)
  · simp only [if_true, List.singleton_append]
    refine (State.reaches_setDmaMode true .w16 _ (by rw [hb.cfg]; exact hd)
      fun _ => hu.mono (by omega) (by omega)).trans ?_
    have hu := (b.dmaModeSet_uses true .w16).ok_left hu (by omega) (by omega)
    have hb := hb.trans (b.dmaModeSet_base true .w16)
    have hw16 := (b.dmaModeSet_busWidth true .w16).trans hw16
    exact State.reaches_writeData _ _ as (hb.ready hdma)
      (by rw [lengthOf_toNat hlen]; exact hu.mono (by omega) (by omega))
      (.inl (hu.mono (by omega) (by omega))) (hrd _ hb hw16)

/-! ## INIT (45_init.md R290) -/

/-- The frames of an initialization table: one for each command and one for each data byte. -/
def tableFrames (es : List (Byte × List Byte)) : Nat := (es.map fun e => 1 + e.2.length).sum

/-- One entry. -/
def State.entrySent (e : Byte × List Byte) (s : State) : State :=
  if e.2.length = 0 then s.byteSent false e.1 else (s.byteSent false e.1).bytesWritten e.2

theorem State.tableSent_cons (e : Byte × List Byte) (es : List (Byte × List Byte)) (s : State) :
    s.tableSent (e :: es) = State.tableSent es (s.entrySent e) := rfl

theorem State.entrySent_base (e : Byte × List Byte) (s : State) : SameBase s (s.entrySent e) := by
  unfold State.entrySent
  split
  · exact s.byteSent_base _ _
  · exact (s.byteSent_base _ _).trans (State.bytesWritten_base _ _)

theorem State.entrySent_uses (e : Byte × List Byte) (he : e.2.length < 2 ^ 32) (s : State) :
    Uses 2 (1 + e.2.length) s (s.entrySent e) := by
  unfold State.entrySent
  split
  · next h => rw [h]; exact (s.byteSent_uses _ _).mono (by omega)
  · exact (s.byteSent_uses _ _).trans (State.bytesWritten_uses _ he _)

theorem State.tableSent_base (es : List (Byte × List Byte)) (s : State) : SameBase s (s.tableSent es) := by
  induction es generalizing s with
  | nil => exact SameBase.refl s
  | cons e es ih => rw [State.tableSent_cons]; exact (s.entrySent_base e).trans (ih _)

theorem State.tableSent_uses (es : List (Byte × List Byte)) (he : ∀ e ∈ es, e.2.length < 2 ^ 32) (s : State) :
    Uses (2 * es.length) (tableFrames es) s (s.tableSent es) := by
  induction es generalizing s with
  | nil => exact Uses.refl s
  | cons e es ih =>
    rw [State.tableSent_cons]
    have h := (s.entrySent_uses e (he e (by simp))).trans (ih (fun e' h' => he e' (by simp [h'])) _)
    rw [show tableFrames (e :: es) = 1 + e.2.length + tableFrames es by simp [tableFrames]]
    exact h.mono (by simp only [List.length_cons]; omega)

theorem State.reaches_entry (e : Byte × List Byte) (as : List Action) (he : e.2.length < 2 ^ 32)
    (hdma : s.dma = .ready) (h : s.OkDraws 2 (1 + e.2.length)) :
    (s.running (tableEntryActions e ++ as)).Reaches ((s.entrySent e).running as) := by
  unfold tableEntryActions State.entrySent
  rw [List.append_assoc]
  refine (State.reaches_command _ _ (h.mono (by omega) (by omega))).trans ?_
  by_cases h0 : e.2.length = 0
  · rw [if_pos h0, if_pos h0]; exact State.Reaches.refl _
  · rw [if_neg h0, if_neg h0]
    have hu := (s.byteSent_uses false e.1).ok_left h (by omega) (by omega)
    exact State.reaches_bytes _ as he ((s.byteSent_base false e.1).ready hdma) (hu.mono (by omega) (by omega))

theorem State.reaches_table (es : List (Byte × List Byte)) (as : List Action)
    (he : ∀ e ∈ es, e.2.length < 2 ^ 32) (hdma : s.dma = .ready)
    (h : s.OkDraws (2 * es.length) (tableFrames es)) :
    (s.running (tableActions es ++ as)).Reaches ((s.tableSent es).running as) := by
  induction es generalizing s with
  | nil => exact State.Reaches.refl _
  | cons e es ih =>
    have hf : tableFrames (e :: es) = 1 + e.2.length + tableFrames es := by simp [tableFrames]
    rw [hf] at h
    have hl : (e :: es).length = es.length + 1 := rfl
    rw [hl] at h
    have ht : tableActions (e :: es) = tableEntryActions e ++ tableActions es := rfl
    rw [ht, List.append_assoc, State.tableSent_cons]
    refine (State.reaches_entry e _ (he e (by simp)) hdma (h.mono (by omega) (by omega))).trans ?_
    have hu := (s.entrySent_uses e (he e (by simp))).ok_left h (by omega) (by omega)
    exact ih (fun e' h' => he e' (by simp [h'])) ((s.entrySent_base e).ready hdma)
      (hu.mono (by omega) (by omega))

/-- The most reconfigurations INIT draws. -/
def initReconfigs (c : Config) : Nat := 2 * c.initTableA.length + 2 + 2 * c.initTableB.length + 12

/-- The frames INIT sends. -/
def initFrames (c : Config) : Nat :=
  tableFrames c.initTableA + 2 + tableFrames c.initTableB + 3 +
    (11 + rectCount 0 0 (c.geo.w - 1) (c.geo.h - 1)) + 1

theorem State.reaches_init (as : List Action) (hdma : s.dma = .ready)
    (h : s.OkDraws (initReconfigs s.cfg) (initFrames s.cfg)) :
    (s.running (initActions s.cfg ++ as)).Reaches (s.initialized.running as) := by
  have hA : ∀ e ∈ s.cfg.initTableA, e.2.length < 2 ^ 32 := fun e he =>
    s.cfg.table_length e (List.mem_append.mpr (.inl he))
  have hB : ∀ e ∈ s.cfg.initTableB, e.2.length < 2 ^ 32 := fun e he =>
    s.cfg.table_length e (List.mem_append.mpr (.inr he))
  have hscreen := screenWindow_valid s.cfg
  unfold initReconfigs initFrames at h
  unfold initActions State.initialized
  have hrot : (planRotation s.cfg s.cfg.rotationCfg).asCall = rotationActions s.cfg s.cfg.rotationCfg := by
    unfold planRotation; simp [Plan.asCall]
  rw [hrot]
  simp only [List.append_assoc]
  generalize hc : s.cfg = c at *
  have e : ∀ l : List Action, (s.running (resetPulse ++ l)).Reaches (s.pulsed.running l) := by
    intro l
    refine ⟨5, ?_⟩
    have : State.engineRun 5 (s.running (resetPulse ++ l)) = State.running l
      { s with
        csN := true
        rstN := true
        trace := ((((s.trace ++ [.csN true]) ++ [.rstN false]) ++ [.delay 1]) ++ [.rstN true]) ++ [.delay 120] } := rfl
    rw [this]
    unfold State.pulsed
    simp only [List.append_assoc, List.cons_append, List.nil_append]
  refine (e _).trans ?_
  have hd0 : s.pulsed.dma = .ready := hdma
  have hc0 : s.pulsed.cfg = c := hc
  replace h : s.pulsed.OkDraws _ _ := h
  generalize s.pulsed = a at *
  refine (State.reaches_table _ _ hA hd0 (h.mono (by omega) (by omega))).trans ?_
  have hu := (a.tableSent_uses _ hA).ok_left h (by omega) (by omega)
  have hb := a.tableSent_base c.initTableA
  have hd := hb.ready hd0
  have hcb := hb.cfg.trans hc0
  generalize a.tableSent c.initTableA = b at *
  have hrun := State.reaches_rotation (s := b) c.rotationCfg (tableActions c.initTableB ++ (callWriteCommand c.cmdInvon ++ (callWriteCommand c.cmdSlpout ++ (callWriteCommand c.cmdNoron ++ (callFillRect c 0 0 (c.geo.w - 1) (c.geo.h - 1) c.bgColor ++ (callWriteCommand c.cmdDispon ++ ([Action.setInitDone] ++ as))))))) (hu.mono (by omega) (by omega))
  rw [hcb] at hrun
  refine hrun.trans ?_
  have hu := (b.rotationSet_uses c.rotationCfg).ok_left hu (by omega) (by omega)
  have hcb := (b.rotationSet_cfg c.rotationCfg).trans hcb
  have hd := (b.rotationSet_dma c.rotationCfg).trans hd
  have hrs : (b.rotationSet c.rotationCfg).rotSet = true := rfl
  generalize b.rotationSet c.rotationCfg = d at *
  refine (State.reaches_table _ _ hB hd (hu.mono (by omega) (by omega))).trans ?_
  have hu := (d.tableSent_uses _ hB).ok_left hu (by omega) (by omega)
  have hb := d.tableSent_base c.initTableB
  have hcb := hb.cfg.trans hcb
  have hd := hb.ready hd
  have hrs := hb.rotSet.trans hrs
  generalize d.tableSent c.initTableB = f at *
  refine (State.reaches_command _ _ (hu.mono (by omega) (by omega))).trans ?_
  have hu := (f.byteSent_uses false c.cmdInvon).ok_left hu (by omega) (by omega)
  have hb := f.byteSent_base false c.cmdInvon
  have hcb := hb.cfg.trans hcb
  have hd := hb.ready hd
  have hrs := hb.rotSet.trans hrs
  generalize f.byteSent false c.cmdInvon = g at *
  refine (State.reaches_command _ _ (hu.mono (by omega) (by omega))).trans ?_
  have hu := (g.byteSent_uses false c.cmdSlpout).ok_left hu (by omega) (by omega)
  have hb := g.byteSent_base false c.cmdSlpout
  have hcb := hb.cfg.trans hcb
  have hd := hb.ready hd
  have hrs := hb.rotSet.trans hrs
  generalize g.byteSent false c.cmdSlpout = i at *
  refine (State.reaches_command _ _ (hu.mono (by omega) (by omega))).trans ?_
  have hu := (i.byteSent_uses false c.cmdNoron).ok_left hu (by omega) (by omega)
  have hb := i.byteSent_base false c.cmdNoron
  have hcb := hb.cfg.trans hcb
  have hd := hb.ready hd
  have hrs := hb.rotSet.trans hrs
  generalize i.byteSent false c.cmdNoron = k at *
  have hrect := State.reaches_fillRect (s := k) 0 0 (c.geo.w - 1) (c.geo.h - 1) c.bgColor
    (callWriteCommand c.cmdDispon ++ ([Action.setInitDone] ++ as)) hrs (by rw [hcb]; exact hscreen) hd
    (hu.mono (by omega) (by omega))
  rw [hcb] at hrect
  refine hrect.trans ?_
  have hu := (k.rectFilled_uses 0 0 (c.geo.w - 1) (c.geo.h - 1) c.bgColor (rectCount_le c hscreen).2).ok_left
    hu (by omega) (by omega)
  generalize k.rectFilled 0 0 (c.geo.w - 1) (c.geo.h - 1) c.bgColor = l at *
  refine (State.reaches_command _ _ (hu.mono (by omega) (by omega))).trans ?_
  exact ⟨1, rfl⟩

/-- INIT leaves the configured orientation set, and `init_done` (45_init.md R290). -/
theorem State.initialized_rotation (s : State) :
    s.initialized.rotSet = true ∧ s.initialized.rot = s.cfg.rotationCfg ∧ s.initialized.initDone = true := by
  have h : ∀ d : State, SameBase d { ((((d.tableSent s.cfg.initTableB).byteSent false s.cfg.cmdInvon).byteSent
      false s.cfg.cmdSlpout).byteSent false s.cfg.cmdNoron |>.rectFilled 0 0 (s.cfg.geo.w - 1) (s.cfg.geo.h - 1)
      s.cfg.bgColor).byteSent false s.cfg.cmdDispon with initDone := true } := by
    intro d
    have hb := (((((d.tableSent_base s.cfg.initTableB).trans (State.byteSent_base false s.cfg.cmdInvon _)).trans
      (State.byteSent_base false s.cfg.cmdSlpout _)).trans (State.byteSent_base false s.cfg.cmdNoron _)).trans
      (State.rectFilled_base 0 0 (s.cfg.geo.w - 1) (s.cfg.geo.h - 1) s.cfg.bgColor _)).trans
      (State.byteSent_base false s.cfg.cmdDispon _)
    exact ⟨hb.1, hb.2, hb.3, hb.4, hb.5⟩
  have hd := h ((s.pulsed.tableSent s.cfg.initTableA).rotationSet s.cfg.rotationCfg)
  exact ⟨hd.rotSet, hd.rot, rfl⟩

end Sys2Proof.Machine
end

