-- ==== Sys2Proof/Laws/Encoding.lean ====
section
/-! SUPPORT. Fields of packed words, each read back (30_encoding.md R102, R103). -/

namespace Sys2Proof

theorem extract_low {n m : Nat} (a : BitVec n) (b : BitVec m) : (a ++ b).extractLsb' 0 m = b := by
  apply BitVec.eq_of_getLsbD_eq
  intro i hi
  simp [hi, BitVec.getLsbD_append]

theorem extract_high {n m : Nat} (a : BitVec n) (b : BitVec m) : (a ++ b).extractLsb' m n = a := by
  apply BitVec.eq_of_getLsbD_eq
  intro i hi
  simp [hi, BitVec.getLsbD_append]

theorem highBits_requestWord (b : Byte) : highBitsOf (requestWord b) = 0 := extract_high 0#24 b

theorem opcode_requestWord (b : Byte) : opcodeOf (requestWord b) = b := extract_low 0#24 b

@[simp] theorem lowHalf_pack (lo hi : Half) : lowHalf (packHalves lo hi) = lo := extract_low hi lo

@[simp] theorem highHalf_pack (lo hi : Half) : highHalf (packHalves lo hi) = hi := extract_high hi lo

theorem bit_one (r : BitVec 31) (w : Bool) : bitOf (r ++ BitVec.ofBool w : BitVec 32) 0 = w := by
  unfold bitOf
  rw [BitVec.getLsbD_append]
  simp

theorem bit_two_low (r : BitVec 30) (i w : Bool) :
    bitOf (r ++ (BitVec.ofBool i ++ BitVec.ofBool w) : BitVec 32) 0 = w := by
  unfold bitOf
  rw [BitVec.getLsbD_append, BitVec.getLsbD_append]
  simp

theorem bit_two_high (r : BitVec 30) (i w : Bool) :
    bitOf (r ++ (BitVec.ofBool i ++ BitVec.ofBool w) : BitVec 32) 1 = i := by
  unfold bitOf
  rw [BitVec.getLsbD_append, BitVec.getLsbD_append]
  simp

end Sys2Proof
end

