-- ==== Sys2Proof/Laws/Frames.lean ====
section
/-! SUPPORT. What an operation leaves unchanged in every run of the agents, whatever the draws: one class of actions for each group of registers. -/

namespace Sys2Proof.Machine

variable {α : Type}

/-- A field of the state that draws, faults, results and the flow of the sequencer do not touch. -/
structure Insensitive (f : State → α) : Prop where
  draw : ∀ (s : State) tr xs rs ix ms,
    f { s with trace := tr, xferDraws := xs, reconfigDraws := rs, freeIx := ix, mseq := ms } = f s
  flow : ∀ (s : State) r e o fs d ms,
    f { s with result := r, errCode := e, errOp := o, fsm := fs, dma := d, mseq := ms } = f s

namespace Insensitive

variable {f : State → α}

theorem raise (h : Insensitive f) (e : ErrCode) (s : State) : f (s.raise e) = f s := h.flow s _ _ _ _ _ _

theorem finish (h : Insensitive f) (r : ResultCode) (s : State) : f (s.finish r) = f s :=
  h.flow s r s.errCode s.errOp .idle s.dma []

theorem emit (h : Insensitive f) (e : Event) (s : State) : f (s.emit e) = f s :=
  h.draw s (s.trace ++ [e]) s.xferDraws s.reconfigDraws s.freeIx s.mseq

theorem push (h : Insensitive f) (as : List Action) (s : State) : f (s.pushActions as) = f s :=
  h.draw s s.trace s.xferDraws s.reconfigDraws s.freeIx _

theorem seq (h : Insensitive f) (s : State) (as : List Action) : f { s with mseq := as } = f s :=
  h.draw s s.trace s.xferDraws s.reconfigDraws s.freeIx as

theorem run (h : Insensitive f) (s : State) : f { s with fsm := .run } = f s :=
  h.flow s s.result s.errCode s.errOp .run s.dma s.mseq

theorem channel (h : Insensitive f) (d : DmaState) (s : State) : f { s with dma := d } = f s :=
  h.flow s s.result s.errCode s.errOp s.fsm d s.mseq

theorem issue (h : Insensitive f) (off n : Nat) (s : State) : f (s.issueDma off n) = f s :=
  h.flow s s.result s.errCode s.errOp .waitDma (.active s.src off n) s.mseq

theorem drawn (h : Insensitive f) (s : State) (tr : List Event) (xs : List XferOutcome) (ix : Nat) :
    f { s with trace := tr, xferDraws := xs, freeIx := ix } = f s :=
  h.draw s tr xs s.reconfigDraws ix s.mseq

theorem send (h : Insensitive f) (v : Half) (s : State) : f (s.send v) = f s :=
  (h.emit _ _).trans (h.push _ _)

theorem frameOutcome (h : Insensitive f) (s : State) : f s.frameOutcome = f s := by
  obtain ⟨xs, ix, hs⟩ := s.frameOutcome_cases
  have hd := h.drawn s s.trace xs ix
  rcases hs with hs | hs | hs <;> rw [hs]
  · exact hd
  · exact (h.raise _ _).trans hd
  · exact (h.push _ _).trans hd

theorem reconfigOutcome (h : Insensitive f) (s : State) : f s.reconfigOutcome = f s := by
  obtain ⟨rs, ix, hs⟩ := s.reconfigOutcome_cases
  have hd := h.draw s s.trace s.xferDraws rs ix s.mseq
  rcases hs with hs | hs <;> rw [hs]
  · exact hd
  · exact (h.raise _ _).trans hd

theorem sendChunk (h : Insensitive f) (off n : Nat) (s : State) : f (s.sendChunk off n) = f s := by
  rcases sendChunk_cases off n s with e | e | ⟨v, -, m, -, e⟩ <;> rw [e]
  · exact h.raise _ _
  · exact (h.send _ _).trans (h.push _ _)

theorem checkReady (h : Insensitive f) (s : State) : f (doAction .checkReady s) = f s := by
  unfold doAction
  dsimp only
  split
  · rfl
  · exact h.raise _ _

theorem dmaStep (h : Insensitive f) (s t : State) (hs : s.dmaStep = some t) : f t = f s := by
  rcases dmaStep_cases hs with ⟨_, _, -, e⟩ | ⟨source, k, n, -, ⟨-, e⟩ | ⟨v, xs, ix, -, e | e | e⟩⟩ <;> rw [e]
  · exact h.channel _ _
  · exact h.raise _ _
  · exact (h.channel _ _).trans (h.drawn s _ xs ix)
  · exact (h.raise _ _).trans (h.drawn s _ xs ix)
  · exact (h.channel _ _).trans (h.drawn s _ xs ix)

theorem setWidth (h : Insensitive f) (hw : ∀ (s : State) w, f { s with busWidth := w } = f s) (w : Width)
    (s : State) : f (s.setWidth w) = f s := by
  rcases s.setWidth_cases w with ⟨-, e⟩ | ⟨-, e⟩ <;> rw [e]
  exact (h.seq { s with busWidth := w } _).trans (hw s w)

theorem setDmaMode (h : Insensitive f) (hm : ∀ (s : State) i, f { s with dmaInc := i } = f s)
    (i : Bool) (w : Width) (s : State) : f (s.setDmaMode i w) = f s := by
  rcases s.setDmaMode_cases i w with ⟨-, e⟩ | ⟨-, -, e⟩ | ⟨-, -, e⟩ <;> rw [e]
  · exact h.raise _ _
  · exact (h.seq { s with dmaInc := i } _).trans (hm s i)

/-- A register that only actions outside a closed class write keeps its value in every run. -/
theorem engineRun (h : Insensitive f) {p : Action → Bool} (hp : Closed p)
    (hact : ∀ a (s : State), p a = true → f (doAction a s) = f s) (n : Nat) (s : State)
    (hs : s.mseq.all p = true) : f (s.engineRun n) = f s :=
  (engineRun_field p hp f hact h.seq h.run h.dmaStep n s hs).1

end Insensitive

/-! ## The classes -/

/-- Not a window register. -/
def keepsWindow : Action → Bool
  | .setWinXs _ => false
  | .setWinXe _ => false
  | .setWinYs _ => false
  | .setWinYe _ => false
  | _ => true

def keepsRotation : Action → Bool
  | .setRot _ => false
  | .setRotSet => false
  | _ => true

def keepsInit : Action → Bool
  | .setInitDone => false
  | .driveRst _ => false
  | _ => true

def keepsFill : Action → Bool
  | .setFillColor _ => false
  | .fillEntry _ _ => false
  | _ => true

def keepsLines : Action → Bool
  | .driveCs _ => false
  | .driveDc _ => false
  | .fillBlocks _ => false
  | _ => true

def keepsWidth : Action → Bool
  | .setWidth _ => false
  | _ => true

def keepsTransfer : Action → Bool
  | .loadTransfer _ _ => false
  | .loadFill _ => false
  | .setRem _ => false
  | .issueDma _ _ => false
  | .startChunk _ => false
  | .endChunk _ => false
  | .fillBlocks _ => false
  | _ => true

def keepsDmaMode : Action → Bool
  | .setDmaMode _ _ => false
  | .setDmaWidth _ => false
  | .loadTransfer _ _ => false
  | .loadFill _ => false
  | .setRem _ => false
  | .startChunk _ => false
  | .endChunk _ => false
  | .fillBlocks _ => false
  | _ => true

theorem closed_window : Closed keepsWindow := by
  intro a b k h
  cases b <;> first | rfl | (cases a <;> exact absurd h Bool.false_ne_true)
theorem closed_rotation : Closed keepsRotation := by
  intro a b k h
  cases b <;> first | rfl | (cases a <;> exact absurd h Bool.false_ne_true)
theorem closed_init : Closed keepsInit := by
  intro a b k h
  cases b <;> first | rfl | (cases a <;> exact absurd h Bool.false_ne_true)
theorem closed_fill : Closed keepsFill := by
  intro a b k h
  cases b <;> first | rfl | (cases a <;> exact absurd h Bool.false_ne_true)
theorem closed_lines : Closed keepsLines := by
  intro a b k h
  cases b <;> first | rfl | (cases a <;> first | exact absurd h Bool.false_ne_true | exact absurd k Bool.false_ne_true)
theorem closed_width : Closed keepsWidth := by
  intro a b k h
  cases b <;> first | rfl | (cases a <;> exact absurd h Bool.false_ne_true)
theorem closed_transfer : Closed keepsTransfer := by
  intro a b k h
  cases b <;> first | rfl | (cases a <;> first | exact absurd h Bool.false_ne_true | exact absurd k Bool.false_ne_true)
theorem closed_dmaMode : Closed keepsDmaMode := by
  intro a b k h
  cases b <;> first | rfl | (cases a <;> first | exact absurd h Bool.false_ne_true | exact absurd k Bool.false_ne_true)

theorem ins_window : Insensitive fun s => (s.winXs, s.winXe, s.winYs, s.winYe) := ⟨fun _ _ _ _ _ _ => rfl, fun _ _ _ _ _ _ _ => rfl⟩
theorem ins_rotation : Insensitive fun s => (s.rot, s.rotSet) := ⟨fun _ _ _ _ _ _ => rfl, fun _ _ _ _ _ _ _ => rfl⟩
theorem ins_init : Insensitive fun s => (s.initDone, s.rstN) := ⟨fun _ _ _ _ _ _ => rfl, fun _ _ _ _ _ _ _ => rfl⟩
theorem ins_fill : Insensitive fun s => (s.fillBuf, s.fillColor) := ⟨fun _ _ _ _ _ _ => rfl, fun _ _ _ _ _ _ _ => rfl⟩
theorem ins_lines : Insensitive fun s => (s.csN, s.dc) := ⟨fun _ _ _ _ _ _ => rfl, fun _ _ _ _ _ _ _ => rfl⟩
theorem ins_width : Insensitive fun s => s.busWidth := ⟨fun _ _ _ _ _ _ => rfl, fun _ _ _ _ _ _ _ => rfl⟩
theorem ins_transfer : Insensitive fun s => (s.src, s.rem, s.chunk) := ⟨fun _ _ _ _ _ _ => rfl, fun _ _ _ _ _ _ _ => rfl⟩
theorem ins_dmaMode : Insensitive fun s => (s.dmaInc, s.dmaWidth) := ⟨fun _ _ _ _ _ _ => rfl, fun _ _ _ _ _ _ _ => rfl⟩

theorem act_window (a : Action) (s : State) (h : keepsWindow a = true) :
    ((doAction a s).winXs, (doAction a s).winXe, (doAction a s).winYs, (doAction a s).winYe) =
      (s.winXs, s.winXe, s.winYs, s.winYe) := by
  cases a <;> first
    | (simp [keepsWindow] at h; done)
    | exact ins_window.send _ s
    | exact ins_window.sendChunk _ _ s
    | exact ins_window.frameOutcome s
    | exact ins_window.reconfigOutcome s
    | exact ins_window.checkReady s
    | exact ins_window.setWidth (fun _ _ => rfl) _ s
    | exact ins_window.setDmaMode (fun _ _ => rfl) _ _ s
    | rfl

theorem act_rotation (a : Action) (s : State) (h : keepsRotation a = true) :
    ((doAction a s).rot, (doAction a s).rotSet) = (s.rot, s.rotSet) := by
  cases a <;> first
    | (simp [keepsRotation] at h; done)
    | exact ins_rotation.send _ s
    | exact ins_rotation.sendChunk _ _ s
    | exact ins_rotation.frameOutcome s
    | exact ins_rotation.reconfigOutcome s
    | exact ins_rotation.checkReady s
    | exact ins_rotation.setWidth (fun _ _ => rfl) _ s
    | exact ins_rotation.setDmaMode (fun _ _ => rfl) _ _ s
    | rfl

theorem act_init (a : Action) (s : State) (h : keepsInit a = true) :
    ((doAction a s).initDone, (doAction a s).rstN) = (s.initDone, s.rstN) := by
  cases a <;> first
    | (simp [keepsInit] at h; done)
    | exact ins_init.send _ s
    | exact ins_init.sendChunk _ _ s
    | exact ins_init.frameOutcome s
    | exact ins_init.reconfigOutcome s
    | exact ins_init.checkReady s
    | exact ins_init.setWidth (fun _ _ => rfl) _ s
    | exact ins_init.setDmaMode (fun _ _ => rfl) _ _ s
    | rfl

theorem act_fill (a : Action) (s : State) (h : keepsFill a = true) :
    ((doAction a s).fillBuf, (doAction a s).fillColor) = (s.fillBuf, s.fillColor) := by
  cases a <;> first
    | (simp [keepsFill] at h; done)
    | exact ins_fill.send _ s
    | exact ins_fill.sendChunk _ _ s
    | exact ins_fill.frameOutcome s
    | exact ins_fill.reconfigOutcome s
    | exact ins_fill.checkReady s
    | exact ins_fill.setWidth (fun _ _ => rfl) _ s
    | exact ins_fill.setDmaMode (fun _ _ => rfl) _ _ s
    | rfl

theorem act_lines (a : Action) (s : State) (h : keepsLines a = true) :
    ((doAction a s).csN, (doAction a s).dc) = (s.csN, s.dc) := by
  cases a <;> first
    | (simp [keepsLines] at h; done)
    | exact ins_lines.send _ s
    | exact ins_lines.sendChunk _ _ s
    | exact ins_lines.frameOutcome s
    | exact ins_lines.reconfigOutcome s
    | exact ins_lines.checkReady s
    | exact ins_lines.setWidth (fun _ _ => rfl) _ s
    | exact ins_lines.setDmaMode (fun _ _ => rfl) _ _ s
    | rfl

theorem act_width (a : Action) (s : State) (h : keepsWidth a = true) :
    (doAction a s).busWidth = s.busWidth := by
  cases a <;> first
    | (simp [keepsWidth] at h; done)
    | exact ins_width.send _ s
    | exact ins_width.sendChunk _ _ s
    | exact ins_width.frameOutcome s
    | exact ins_width.reconfigOutcome s
    | exact ins_width.checkReady s
    | exact ins_width.setDmaMode (fun _ _ => rfl) _ _ s
    | rfl

theorem act_transfer (a : Action) (s : State) (h : keepsTransfer a = true) :
    ((doAction a s).src, (doAction a s).rem, (doAction a s).chunk) = (s.src, s.rem, s.chunk) := by
  cases a <;> first
    | (simp [keepsTransfer] at h; done)
    | exact ins_transfer.send _ s
    | exact ins_transfer.sendChunk _ _ s
    | exact ins_transfer.frameOutcome s
    | exact ins_transfer.reconfigOutcome s
    | exact ins_transfer.checkReady s
    | exact ins_transfer.setWidth (fun _ _ => rfl) _ s
    | exact ins_transfer.setDmaMode (fun _ _ => rfl) _ _ s
    | rfl

theorem act_dmaMode (a : Action) (s : State) (h : keepsDmaMode a = true) :
    ((doAction a s).dmaInc, (doAction a s).dmaWidth) = (s.dmaInc, s.dmaWidth) := by
  cases a <;> first
    | (simp [keepsDmaMode] at h; done)
    | exact ins_dmaMode.send _ s
    | exact ins_dmaMode.sendChunk _ _ s
    | exact ins_dmaMode.frameOutcome s
    | exact ins_dmaMode.reconfigOutcome s
    | exact ins_dmaMode.checkReady s
    | exact ins_dmaMode.setWidth (fun _ _ => rfl) _ s
    | rfl

/-! ## The micro-sequences of the operations -/

theorem all_entries {p : Action → Bool} (hp : ∀ i c, p (.fillEntry i c) = true) (c : Half) (l : List (Fin 64)) :
    (l.map fun i => Action.fillEntry i c).all p = true := by
  simp [hp]

/-- A class holds of an operation's micro-sequence if it holds of what the checks lead to. -/
theorem Plan.asRequest_all {p : Action → Bool} (hfin : ∀ r, p (.finish r) = true) (hraise : ∀ f, p (.raise f) = true)
    {q : Plan} (h : ∀ as, q = .runs as → as.all p = true) : q.asRequest.all p = true := by
  cases q with
  | faults f => simp [Plan.asRequest, hraise]
  | ends r => simp [Plan.asRequest, hfin]
  | runs as => simp only [Plan.asRequest, List.all_append, h as rfl]; simp [hfin]

theorem all_fill {p : Action → Bool} (hp : ∀ i c, p (.fillEntry i c) = true)
    (h1 : ∀ n c, (fillByDma n c).all p = true) (h2 : p (.setWidth .w16) = true) (h3 : ∀ n, p (.fillBlocks n) = true)
    (c : Config) (n : Nat) (color : Half) : (callFillPixels c n color).all p = true := by
  unfold callFillPixels
  split
  · exact h1 _ _
  · unfold fillByBuffer
    rw [List.all_append, List.all_append, all_entries hp]
    split <;> simp [h2, h3]

/-! ## Which class each operation's actions are in -/

/-- Actions of the protocol layer and of a window, in a class. -/
structure Basic (p : Action → Bool) : Prop where
  cs : ∀ v, p (.driveCs v) = true
  dc : ∀ v, p (.driveDc v) = true
  byte : ∀ b, p (.sendByte b) = true
  width : ∀ w, p (.setWidth w) = true
  load : ∀ a b, p (.loadTransfer a b) = true
  ready : p .checkReady = true
  raise : ∀ f, p (.raise f) = true

namespace Basic

variable {p : Action → Bool}

theorem bytes (h : Basic p) (l : List Byte) : (callWriteBytes l).all p = true := by
  unfold callWriteBytes callWriteData
  simp [h.cs, h.dc, h.load]

theorem command (h : Basic p) (b : Byte) : (callWriteCommand b).all p = true := by
  unfold callWriteCommand
  simp [h.cs, h.dc, h.byte, h.width]

theorem windowActions (h : Basic p)
    (hw : ∀ a, p (.setWinXs a) = true ∧ p (.setWinXe a) = true ∧ p (.setWinYs a) = true ∧ p (.setWinYe a) = true)
    (c : Config) (x y z w : Half) : (windowActions c x y z w).all p = true := by
  unfold Sys2Proof.Machine.windowActions
  simp only [List.all_append, h.command, h.bytes]
  simp [hw]

theorem window (h : Basic p)
    (hw : ∀ a, p (.setWinXs a) = true ∧ p (.setWinXe a) = true ∧ p (.setWinYs a) = true ∧ p (.setWinYe a) = true)
    (c : Config) (x y z w : Half) : (callWindow c x y z w).all p = true := by
  unfold callWindow planWindow
  split
  · rw [Plan.asCall, List.all_cons, h.ready, h.windowActions hw]; rfl
  · simp [Plan.asCall, h.ready, h.raise]

theorem rect (h : Basic p)
    (hw : ∀ a, p (.setWinXs a) = true ∧ p (.setWinXe a) = true ∧ p (.setWinYs a) = true ∧ p (.setWinYe a) = true)
    (hf : ∀ c n k, (callFillPixels c n k).all p = true) (c : Config) (x y z w k : Half) :
    ∀ as, planRect c x y z w k = .runs as → as.all p = true := by
  intro as e
  unfold planRect at e
  split at e
  · simp at e
  · split at e
    · simp at e
    · cases e
      rw [List.all_append, hf, h.window hw]; rfl

end Basic

theorem basic_rotation : Basic keepsRotation :=
  ⟨fun _ => rfl, fun _ => rfl, fun _ => rfl, fun _ => rfl, fun _ _ => rfl, rfl, fun _ => rfl⟩
theorem basic_init : Basic keepsInit :=
  ⟨fun _ => rfl, fun _ => rfl, fun _ => rfl, fun _ => rfl, fun _ _ => rfl, rfl, fun _ => rfl⟩
theorem basic_fill : Basic keepsFill :=
  ⟨fun _ => rfl, fun _ => rfl, fun _ => rfl, fun _ => rfl, fun _ _ => rfl, rfl, fun _ => rfl⟩

section

variable (c : Config) (w : Width) (a b : Bool)

theorem runs_keepsRotation (i : Instr) (hi : writesRotation i = false) :
    ∀ as, opActions c w a b i = .runs as → as.all keepsRotation = true := by
  have hwin : ∀ a, keepsRotation (.setWinXs a) = true ∧ keepsRotation (.setWinXe a) = true ∧
      keepsRotation (.setWinYs a) = true ∧ keepsRotation (.setWinYe a) = true := fun _ => ⟨rfl, rfl, rfl, rfl⟩
  have hf := all_fill (p := keepsRotation) (fun _ _ => rfl) (fun _ _ => rfl) rfl (fun _ => rfl)
  have hr := basic_rotation.rect hwin hf
  intro as h
  cases i
  all_goals first | (simp [writesRotation] at hi; done) | (unfold opActions at h; dsimp only at h)
  case setWordWidth => unfold planSetWordWidth at h; split at h <;> cases h; rfl
  case setDmaMode => unfold planSetDmaMode at h; (repeat' (split at h)) <;> cases h; rfl
  case writeCommand => unfold planWriteCommand at h; split at h <;> cases h; rfl
  case writeSmallData => unfold planWriteSmallData at h; split at h <;> cases h; rfl
  case writeData => unfold planWriteData at h; split at h <;> cases h; rfl
  case transmit => unfold planTransmit at h; split at h <;> cases h; rfl
  case setAddressWindow =>
    unfold planSetAddressWindow planWindow at h
    (repeat' (split at h)) <;> cases h
    exact basic_rotation.windowActions hwin _ _ _ _ _
  case fillPixels => unfold planFillPixels at h; split at h <;> cases h; exact hf _ _ _
  case fillRect => unfold planFillRect at h; (repeat' (split at h)) <;> first | exact hr _ _ _ _ _ _ _ h | cases h
  case drawLine =>
    unfold planDrawLine planLine at h
    (repeat' (split at h)) <;> first | exact hr _ _ _ _ _ _ _ h | cases h
  case drawPixel =>
    unfold planDrawPixel at h
    (repeat' (split at h)) <;> cases h
    rw [List.all_append, basic_rotation.window hwin, basic_rotation.bytes]; rfl
  case drawImage =>
    unfold planDrawImage at h
    (repeat' (split at h)) <;> cases h
    unfold imageActions callWriteData
    rw [List.all_append, List.all_append, List.all_append, basic_rotation.window hwin]
    split <;> rfl

theorem runs_keepsInit (i : Instr) (hi : writesInit i = false) :
    ∀ as, opActions c w a b i = .runs as → as.all keepsInit = true := by
  have hwin : ∀ a, keepsInit (.setWinXs a) = true ∧ keepsInit (.setWinXe a) = true ∧
      keepsInit (.setWinYs a) = true ∧ keepsInit (.setWinYe a) = true := fun _ => ⟨rfl, rfl, rfl, rfl⟩
  have hf := all_fill (p := keepsInit) (fun _ _ => rfl) (fun _ _ => rfl) rfl (fun _ => rfl)
  have hr := basic_init.rect hwin hf
  intro as h
  cases i
  all_goals first | (simp [writesInit] at hi; done) | (unfold opActions at h; dsimp only at h)
  case setWordWidth => unfold planSetWordWidth at h; split at h <;> cases h; rfl
  case setDmaMode => unfold planSetDmaMode at h; (repeat' (split at h)) <;> cases h; rfl
  case writeCommand => unfold planWriteCommand at h; split at h <;> cases h; rfl
  case writeSmallData => unfold planWriteSmallData at h; split at h <;> cases h; rfl
  case writeData => unfold planWriteData at h; split at h <;> cases h; rfl
  case transmit => unfold planTransmit at h; split at h <;> cases h; rfl
  case setAddressWindow =>
    unfold planSetAddressWindow planWindow at h
    (repeat' (split at h)) <;> cases h
    exact basic_init.windowActions hwin _ _ _ _ _
  case setRotation => unfold planSetRotation planRotation at h; (repeat' (split at h)) <;> cases h; rfl
  case fillPixels => unfold planFillPixels at h; split at h <;> cases h; exact hf _ _ _
  case fillRect => unfold planFillRect at h; (repeat' (split at h)) <;> first | exact hr _ _ _ _ _ _ _ h | cases h
  case drawLine =>
    unfold planDrawLine planLine at h
    (repeat' (split at h)) <;> first | exact hr _ _ _ _ _ _ _ h | cases h
  case drawPixel =>
    unfold planDrawPixel at h
    (repeat' (split at h)) <;> cases h
    rw [List.all_append, basic_init.window hwin, basic_init.bytes]; rfl
  case drawImage =>
    unfold planDrawImage at h
    (repeat' (split at h)) <;> cases h
    unfold imageActions callWriteData
    rw [List.all_append, List.all_append, List.all_append, basic_init.window hwin]
    split <;> rfl

theorem runs_keepsFill (i : Instr) (hi : writesFill i = false) :
    ∀ as, opActions c w a b i = .runs as → as.all keepsFill = true := by
  have hwin : ∀ a, keepsFill (.setWinXs a) = true ∧ keepsFill (.setWinXe a) = true ∧
      keepsFill (.setWinYs a) = true ∧ keepsFill (.setWinYe a) = true := fun _ => ⟨rfl, rfl, rfl, rfl⟩
  intro as h
  cases i
  all_goals first | (simp [writesFill] at hi; done) | (unfold opActions at h; dsimp only at h)
  case setWordWidth => unfold planSetWordWidth at h; split at h <;> cases h; rfl
  case setDmaMode => unfold planSetDmaMode at h; (repeat' (split at h)) <;> cases h; rfl
  case writeCommand => unfold planWriteCommand at h; split at h <;> cases h; rfl
  case writeSmallData => unfold planWriteSmallData at h; split at h <;> cases h; rfl
  case writeData => unfold planWriteData at h; split at h <;> cases h; rfl
  case transmit => unfold planTransmit at h; split at h <;> cases h; rfl
  case setAddressWindow =>
    unfold planSetAddressWindow planWindow at h
    (repeat' (split at h)) <;> cases h
    exact basic_fill.windowActions hwin _ _ _ _ _
  case setRotation => unfold planSetRotation planRotation at h; (repeat' (split at h)) <;> cases h; rfl
  case drawPixel =>
    unfold planDrawPixel at h
    (repeat' (split at h)) <;> cases h
    rw [List.all_append, basic_fill.window hwin, basic_fill.bytes]; rfl
  case drawImage =>
    unfold planDrawImage at h
    (repeat' (split at h)) <;> cases h
    unfold imageActions callWriteData
    rw [List.all_append, List.all_append, List.all_append, basic_fill.window hwin]
    split <;> rfl

theorem runs_keepsWindow (i : Instr) (hi : writesWindow i = false) :
    ∀ as, opActions c w a b i = .runs as → as.all keepsWindow = true := by
  intro as h
  cases i
  all_goals first | (simp [writesWindow] at hi; done) | (unfold opActions at h; dsimp only at h)
  case setWordWidth => unfold planSetWordWidth at h; split at h <;> cases h; rfl
  case setDmaMode => unfold planSetDmaMode at h; (repeat' (split at h)) <;> cases h; rfl
  case writeCommand => unfold planWriteCommand at h; split at h <;> cases h; rfl
  case writeSmallData => unfold planWriteSmallData at h; split at h <;> cases h; rfl
  case writeData => unfold planWriteData at h; split at h <;> cases h; rfl
  case transmit => unfold planTransmit at h; split at h <;> cases h; rfl
  case setRotation => unfold planSetRotation planRotation at h; (repeat' (split at h)) <;> cases h; rfl
  case fillPixels =>
    unfold planFillPixels at h
    split at h <;> cases h
    exact all_fill (p := keepsWindow) (fun _ _ => rfl) (fun _ _ => rfl) rfl (fun _ => rfl) _ _ _

theorem runs_keepsTransfer (i : Instr) (hi : writesTransfer i = false) :
    ∀ as, opActions c w a b i = .runs as → as.all keepsTransfer = true := by
  intro as h
  cases i
  all_goals first | (simp [writesTransfer] at hi; done) | (unfold opActions at h; dsimp only at h)
  case setWordWidth => unfold planSetWordWidth at h; split at h <;> cases h; rfl
  case setDmaMode => unfold planSetDmaMode at h; (repeat' (split at h)) <;> cases h; rfl
  case writeCommand => unfold planWriteCommand at h; split at h <;> cases h; rfl
  case writeSmallData => unfold planWriteSmallData at h; split at h <;> cases h; rfl
  case setRotation => unfold planSetRotation planRotation at h; (repeat' (split at h)) <;> cases h; rfl

theorem runs_keepsDmaMode (i : Instr) (hi : writesDmaMode i = false) :
    ∀ as, opActions c w a b i = .runs as → as.all keepsDmaMode = true := by
  intro as h
  cases i
  all_goals first | (simp [writesDmaMode] at hi; done) | (unfold opActions at h; dsimp only at h)
  case setWordWidth => unfold planSetWordWidth at h; split at h <;> cases h; rfl
  case writeCommand => unfold planWriteCommand at h; split at h <;> cases h; rfl
  case writeSmallData => unfold planWriteSmallData at h; split at h <;> cases h; rfl
  case setRotation => unfold planSetRotation planRotation at h; (repeat' (split at h)) <;> cases h; rfl

theorem runs_keepsLines (i : Instr) (hi : drivesLines i = false) :
    ∀ as, opActions c w a b i = .runs as → as.all keepsLines = true := by
  intro as h
  cases i
  all_goals first | (simp [drivesLines] at hi; done) | (unfold opActions at h; dsimp only at h)
  case setWordWidth => unfold planSetWordWidth at h; split at h <;> cases h; rfl
  case setDmaMode => unfold planSetDmaMode at h; (repeat' (split at h)) <;> cases h; rfl
  case transmit => unfold planTransmit at h; split at h <;> cases h; rfl

theorem runs_keepsWidth (i : Instr) (hi : writesWidth i = false) :
    ∀ as, opActions c w a b i = .runs as → as.all keepsWidth = true := by
  intro as h
  cases i
  all_goals first | (simp [writesWidth] at hi; done) | (unfold opActions at h; dsimp only at h)
  case setDmaMode => unfold planSetDmaMode at h; (repeat' (split at h)) <;> cases h; rfl
  case writeData => unfold planWriteData at h; split at h <;> cases h; rfl
  case transmit => unfold planTransmit at h; split at h <;> cases h; rfl

end

end Sys2Proof.Machine
end

