-- ==== Sys2Proof/Laws/Memory.lean ====
section
/-! SUPPORT. System memory: every operation keeps the canonical form, and what a read gives after a write. -/

namespace Sys2Proof.Machine

@[simp] theorem Memory.read_nil (x : Nat) : Memory.read [] x = Memory.default := rfl

theorem Memory.read_cons (a : Nat) (b : Byte) (m : Memory) (x : Nat) :
    Memory.read ((a, b) :: m) x = if x = a then b else Memory.read m x := rfl

@[simp] theorem Memory.wfFrom_nil (lo : Nat) : Memory.wfFrom lo [] = true := rfl

@[simp] theorem Memory.wfFrom_cons (lo a : Nat) (b : Byte) (m : Memory) :
    Memory.wfFrom lo ((a, b) :: m) = true ↔
      lo ≤ a ∧ a < 2 ^ 32 ∧ b ≠ Memory.default ∧ Memory.wfFrom (a + 1) m = true := by
  simp [Memory.wfFrom, and_assoc]

theorem Memory.wfFrom_mono {lo lo' : Nat} {m : Memory} (h : Memory.wfFrom lo m = true) (hl : lo' ≤ lo) :
    Memory.wfFrom lo' m = true := by
  cases m with
  | nil => rfl
  | cons c m =>
    obtain ⟨a, b⟩ := c
    rw [Memory.wfFrom_cons] at h ⊢
    exact ⟨by omega, h.2⟩

/-- Below the bound nothing is listed. -/
theorem Memory.read_below {lo : Nat} {m : Memory} (h : Memory.wfFrom lo m = true) {x : Nat} (hx : x < lo) :
    m.read x = Memory.default := by
  induction m generalizing lo with
  | nil => rfl
  | cons c m ih =>
    obtain ⟨a, b⟩ := c
    rw [Memory.wfFrom_cons] at h
    rw [Memory.read_cons, if_neg (by omega)]
    exact ih h.2.2.2 (by omega)

theorem Memory.write_wfFrom {lo : Nat} {m : Memory} (h : Memory.wfFrom lo m = true) {x : Nat} (v : Byte)
    (hlo : lo ≤ x) (hx : x < 2 ^ 32) : Memory.wfFrom lo (m.write x v) = true := by
  induction m generalizing lo with
  | nil =>
    unfold Memory.write
    split
    · rfl
    · rw [Memory.wfFrom_cons]; exact ⟨hlo, hx, by assumption, rfl⟩
  | cons c m ih =>
    obtain ⟨a, b⟩ := c
    have h' := h
    rw [Memory.wfFrom_cons] at h
    obtain ⟨h1, h2, h3, h4⟩ := h
    unfold Memory.write
    split
    · split
      · exact h'
      · simp only [Memory.wfFrom_cons]
        exact ⟨hlo, hx, by assumption, by omega, h2, h3, h4⟩
    · split
      · split
        · exact Memory.wfFrom_mono h4 (by omega)
        · rw [Memory.wfFrom_cons]
          exact ⟨hlo, hx, by assumption, by subst x; exact h4⟩
      · rw [Memory.wfFrom_cons]
        exact ⟨h1, h2, h3, ih h4 (by omega)⟩

/-- A write keeps the canonical form. -/
theorem Memory.write_wf {m : Memory} (h : m.wf = true) (a : Word) (v : Byte) :
    (m.write a.toNat v).wf = true :=
  Memory.write_wfFrom h v (Nat.zero_le _) a.isLt

theorem Memory.read_write_from {lo : Nat} {m : Memory} (h : Memory.wfFrom lo m = true) (x y : Nat) (v : Byte) :
    (m.write x v).read y = if y = x then v else m.read y := by
  induction m generalizing lo with
  | nil =>
    unfold Memory.write
    split <;> simp_all [Memory.read_cons]
  | cons c m ih =>
    obtain ⟨a, b⟩ := c
    rw [Memory.wfFrom_cons] at h
    obtain ⟨h1, h2, h3, h4⟩ := h
    have hb : ∀ z, z ≤ a → Memory.read m z = Memory.default := fun z hz =>
      Memory.read_below (m := m) h4 (by omega)
    unfold Memory.write
    split
    · split
      · next hv =>
        rw [Memory.read_cons]
        by_cases hy : y = x
        · rw [if_pos hy, if_neg (by omega), hb y (by omega), hv]
        · rw [if_neg hy]
      · rw [Memory.read_cons]
    · split
      · next hx =>
        subst hx
        split
        · next hv =>
          rw [Memory.read_cons]
          by_cases hy : y = x
          · rw [if_pos hy, hy, hb x (by omega), hv]
          · rw [if_neg hy, if_neg hy]
        · rw [Memory.read_cons, Memory.read_cons]
          by_cases hy : y = x <;> simp [hy]
      · rw [Memory.read_cons, Memory.read_cons, ih h4]
        by_cases hy : y = a
        · subst hy; rw [if_pos rfl, if_pos rfl, if_neg (by omega)]
        · rw [if_neg hy, if_neg hy]

/-- A read after a write gives the value written there, and what was there before elsewhere. -/
theorem Memory.read_write {m : Memory} (h : m.wf = true) (x y : Nat) (v : Byte) :
    (m.write x v).read y = if y = x then v else m.read y :=
  Memory.read_write_from h x y v

theorem Memory.wfFrom_ext {lo : Nat} {m m' : Memory} (h : Memory.wfFrom lo m = true)
    (h' : Memory.wfFrom lo m' = true) (he : ∀ x, m.read x = m'.read x) : m = m' := by
  induction m generalizing lo m' with
  | nil =>
    cases m' with
    | nil => rfl
    | cons c m' =>
      obtain ⟨a, b⟩ := c
      rw [Memory.wfFrom_cons] at h'
      have := he a
      rw [Memory.read_cons, if_pos rfl] at this
      exact absurd this.symm h'.2.2.1
  | cons c m ih =>
    obtain ⟨a, b⟩ := c
    rw [Memory.wfFrom_cons] at h
    obtain ⟨h1, h2, h3, h4⟩ := h
    cases m' with
    | nil =>
      have := he a
      rw [Memory.read_cons, if_pos rfl] at this
      exact absurd this h3
    | cons c' m' =>
      obtain ⟨a', b'⟩ := c'
      rw [Memory.wfFrom_cons] at h'
      obtain ⟨k1, k2, k3, k4⟩ := h'
      have haa : a = a' := by
        have ea := he a
        have ea' := he a'
        rw [Memory.read_cons, Memory.read_cons, if_pos rfl] at ea
        rw [Memory.read_cons, Memory.read_cons, if_pos (rfl : a' = a')] at ea'
        by_contra hne
        rw [if_neg hne] at ea
        rw [if_neg (Ne.symm hne)] at ea'
        rcases Nat.lt_or_gt_of_ne hne with hl | hl
        · rw [Memory.read_below k4 (by omega)] at ea; exact h3 ea
        · rw [Memory.read_below h4 (by omega)] at ea'; exact k3 ea'.symm
      subst haa
      have hbb : b = b' := by simpa [Memory.read_cons] using he a
      subst hbb
      congr 1
      refine ih h4 k4 fun x => ?_
      have ex := he x
      rw [Memory.read_cons, Memory.read_cons] at ex
      by_cases hx : x = a
      · subst hx
        rw [Memory.read_below h4 (by omega), Memory.read_below k4 (by omega)]
      · simpa [hx] using ex

/-- Two memories in canonical form that read the same are the same list. -/
theorem Memory.wf_ext {m m' : Memory} (h : m.wf = true) (h' : m'.wf = true)
    (he : ∀ x, m.read x = m'.read x) : m = m' :=
  Memory.wfFrom_ext h h' he

end Sys2Proof.Machine
end

