-- ==== Sys2Proof/Laws/Invariant.lean ====
section
/-! SUPPORT. The invariant of the machine, agent by agent: what an action, a step of the DMA channel, a request and a reset keep. -/

namespace Sys2Proof.Machine

variable {s t : State}

/-- The part of the invariant that no fault can break. -/
structure State.Base (s : State) : Prop where
  memory : s.mem.wf = true
  noDma : s.cfg.dmaEnabled = false → s.dmaInc = true ∧ s.dmaWidth = .w8
  rotation : s.rotSet = true → s.rot = s.cfg.rotationCfg

theorem State.Inv.base (h : s.Inv) : s.Base := ⟨h.memory, fun hd => (h.noDma hd).2, h.rotation⟩

/-- The part of the invariant that holds while the sequencer runs the actions `as`. -/
structure State.Running (as : List Action) (s : State) : Prop where
  base : s.Base
  ends : as.getLast?.map isEnd = some true
  actions : as.all (actionOk s.cfg) = true
  ready : s.dma = .ready
  clear : s.errCode = .none
  unfaulted : s.result ≠ .fault
  deselects : endsDeselected s.csN as = true
  rotations : rotOrdered (s.rot == s.cfg.rotationCfg) as = true

theorem State.Inv.raiseAt (h : s.Base) {f : ErrCode} (hf : f ≠ .none) (o : Byte) : (s.raiseAt f o).Inv where
  memory := h.memory
  quiet := fun _ => rfl
  ends := by simp [State.busy, State.raiseAt]
  actions := rfl
  channel := fun _ => rfl
  count := by simp
  noDma := fun hd => ⟨rfl, h.noDma hd⟩
  error := ⟨fun _ => rfl, fun _ => hf⟩
  result := ⟨fun _ => rfl, fun _ => rfl⟩
  deselected := by simp
  deselects := by simp [State.busy, State.raiseAt]
  rotation := h.rotation
  rotations := rfl

theorem State.Inv.raise (h : s.Base) {f : ErrCode} (hf : f ≠ .none) : (s.raise f).Inv :=
  State.Inv.raiseAt h hf _

/-- A running state meets the invariant. -/
theorem State.Running.inv {as : List Action} (h : s.Running as) : ({ s with mseq := as, fsm := .run } : State).Inv where
  memory := h.base.memory
  quiet := by simp [State.busy]
  ends := fun _ => h.ends
  actions := h.actions
  channel := fun _ => h.ready
  count := by intro source k n hd; exact absurd (h.ready.symm.trans hd) (by simp)
  noDma := fun hd => ⟨h.ready, h.base.noDma hd⟩
  error := ⟨fun hn => absurd h.clear hn, fun hf => by simp at hf⟩
  result := ⟨fun hr => absurd hr h.unfaulted, fun hf => by simp at hf⟩
  deselected := by simp
  deselects := fun _ => h.deselects
  rotation := h.base.rotation
  rotations := h.rotations

/-- A state of the invariant in RUN is a running state. -/
theorem State.Inv.running (h : s.Inv) (hf : s.fsm = .run) : s.Running s.mseq where
  base := h.base
  ends := h.ends (by simp [State.busy, hf])
  actions := h.actions
  ready := h.channel (by simp [hf])
  clear := by
    by_contra hn
    have := h.error.mp hn
    rw [hf] at this
    simp at this
  unfaulted := fun hr => by
    have := h.result.mp hr
    rw [hf] at this
    simp at this
  deselects := h.deselects (by simp [State.busy, hf])
  rotations := h.rotations

/-- Actions put in front, and fields that the invariant does not read, or reads and finds as before. -/
theorem State.Running.next {as pre : List Action} (h : s.Running as) (hb : t.Base)
    (hc : t.cfg = s.cfg) (hd : t.dma = .ready) (he : t.errCode = s.errCode) (hr : t.result = s.result)
    (hpre : pre.all (actionOk s.cfg) = true) (hne : as ≠ [])
    (hcs : endsDeselected t.csN (pre ++ as) = true)
    (hrot : rotOrdered (t.rot == s.cfg.rotationCfg) (pre ++ as) = true) : t.Running (pre ++ as) where
  base := hb
  ends := by rw [List.getLast?_append_of_ne_nil _ hne]; exact h.ends
  actions := by rw [hc, List.all_append, hpre, h.actions]; rfl
  ready := hd
  clear := he.trans h.clear
  unfaulted := by rw [hr]; exact h.unfaulted
  deselects := hcs
  rotations := by rw [hc]; exact hrot

theorem State.inv_eta (s : State) (hm : s.mseq = as) (hf : s.fsm = .run)
    (h : ({ s with mseq := as, fsm := .run } : State).Inv) : s.Inv := by
  have : s = { s with mseq := as, fsm := .run } := by rw [← hm, ← hf]
  rw [this]; exact h

/-- What remains after a first action that is not an end. -/
theorem State.Running.tail {a : Action} {rest : List Action} (h : s.Running (a :: rest)) (ha : isEnd a = false) :
    rest ≠ [] ∧ rest.getLast?.map isEnd = some true ∧ actionOk s.cfg a = true ∧
      rest.all (actionOk s.cfg) = true := by
  have hne : rest ≠ [] := by
    rintro rfl
    have := h.ends
    simp [ha] at this
  have hact := h.actions
  rw [List.all_cons, Bool.and_eq_true] at hact
  refine ⟨hne, ?_, hact.1, hact.2⟩
  have := h.ends
  rwa [List.getLast?_cons_of_ne_nil hne] at this

/-- What remains of a running state after a step, or a fault. -/
theorem State.Running.keeps {as : List Action} (h : s.Running as) (hne : as ≠ []) {pre : List Action}
    (hb : t.Base) (hc : t.cfg = s.cfg) (hd : t.dma = .ready) (he : t.errCode = s.errCode)
    (hr : t.result = s.result) (hpre : pre.all (actionOk s.cfg) = true)
    (hcs : endsDeselected t.csN (pre ++ as) = true)
    (hrot : rotOrdered (t.rot == s.cfg.rotationCfg) (pre ++ as) = true)
    (hm : t.mseq = pre ++ as) (hf : t.fsm = .run) : t.Inv :=
  State.inv_eta t hm hf (h.next hb hc hd he hr hpre hne hcs hrot).inv

/-- The end of an operation (60_exceptions.md R312). -/
theorem State.Inv.finished (h : s.Base) (hd : s.dma = .ready) (he : s.errCode = .none) (hc : s.csN = true)
    {r : ResultCode} (hr : r ≠ .fault) : (s.finish r).Inv where
  memory := h.memory
  quiet := fun _ => rfl
  ends := by simp [State.busy, State.finish]
  actions := rfl
  channel := fun _ => hd
  count := by intro source k n hn; exact absurd (hd.symm.trans hn) (by simp)
  noDma := fun hn => ⟨hd, h.noDma hn⟩
  error := ⟨fun hn => absurd he hn, fun hf => by simp [State.finish] at hf⟩
  result := ⟨fun h => absurd h hr, fun hf => by simp [State.finish] at hf⟩
  deselected := fun _ => hc
  deselects := by simp [State.busy, State.finish]
  rotation := h.rotation
  rotations := rfl

/-- One action keeps the invariant. -/
theorem inv_action {a : Action} {rest : List Action} (h : s.Running (a :: rest)) (hf : s.fsm = .run)
    (hh : a ≠ .hung) : (doAction a { s with mseq := rest }).Inv := by
  cases hend : isEnd a
  case true =>
    have hact := h.actions
    rw [List.all_cons, Bool.and_eq_true] at hact
    cases a <;> simp [isEnd] at hend
    case finish r =>
      have hr : r ≠ .fault := by simpa [actionOk] using hact.1
      exact State.Inv.finished ⟨h.base.1, h.base.2, h.base.3⟩ h.ready h.clear h.deselects hr
    case raise f =>
      have hne : f ≠ .none := by simpa [actionOk] using hact.1
      exact State.Inv.raise (s := { s with mseq := rest }) ⟨h.base.1, h.base.2, h.base.3⟩ hne
  case false =>
    obtain ⟨hne, hlast, hok, hrest⟩ := h.tail hend
    have hcs := h.deselects
    have hrot := h.rotations
    have hb : s.Base := h.base
    -- an action that changes nothing the invariant reads
    have quiet : ∀ t : State, t.Base → t.cfg = s.cfg → t.dma = .ready → t.errCode = s.errCode →
        t.result = s.result → ∀ pre : List Action, pre.all (actionOk s.cfg) = true →
        endsDeselected t.csN (pre ++ rest) = true →
        rotOrdered (t.rot == s.cfg.rotationCfg) (pre ++ rest) = true →
        t.mseq = pre ++ rest → t.fsm = .run → t.Inv := by
      intro t tb tc td te tr pre tp tcs trot tm tf
      exact State.inv_eta t tm tf (State.Running.inv
        ⟨tb, by rw [List.getLast?_append_of_ne_nil _ hne]; exact hlast,
          by rw [tc, List.all_append, tp, hrest]; rfl, td, te.trans h.clear,
          by rw [tr]; exact h.unfaulted, tcs, by rw [tc]; exact trot⟩)
    cases a
    case finish => simp [isEnd] at hend
    case raise => simp [isEnd] at hend
    case hung => exact absurd rfl hh
    case driveCs v => exact quiet _ ⟨hb.1, hb.2, hb.3⟩ rfl h.ready rfl rfl [] rfl hcs hrot rfl hf
    case sendByte b => exact quiet _ ⟨hb.1, hb.2, hb.3⟩ rfl h.ready rfl rfl [.drawXfer] rfl hcs hrot rfl hf
    case drawXfer =>
      change (State.frameOutcome { s with mseq := rest }).Inv
      obtain ⟨xs, ix, e⟩ := State.frameOutcome_cases { s with mseq := rest }
      rcases e with e | e | e <;> rw [e]
      · exact quiet _ ⟨hb.1, hb.2, hb.3⟩ rfl h.ready rfl rfl [] rfl hcs hrot rfl hf
      · refine State.Inv.raise ?_ (by decide)
        exact ⟨hb.1, hb.2, hb.3⟩
      · exact quiet _ ⟨hb.1, hb.2, hb.3⟩ rfl h.ready rfl rfl [.hung] rfl hcs hrot rfl hf
    case drawReconfig =>
      change (State.reconfigOutcome { s with mseq := rest }).Inv
      obtain ⟨rs, ix, e⟩ := State.reconfigOutcome_cases { s with mseq := rest }
      rcases e with e | e <;> rw [e]
      · exact quiet _ ⟨hb.1, hb.2, hb.3⟩ rfl h.ready rfl rfl [] rfl hcs hrot rfl hf
      · refine State.Inv.raise ?_ (by decide)
        exact ⟨hb.1, hb.2, hb.3⟩
    case setWidth w =>
      change (State.setWidth w { s with mseq := rest }).Inv
      rcases State.setWidth_cases w { s with mseq := rest } with ⟨-, e⟩ | ⟨-, e⟩ <;> rw [e]
      · exact quiet _ ⟨hb.1, hb.2, hb.3⟩ rfl h.ready rfl rfl [] rfl hcs hrot rfl hf
      · exact quiet _ ⟨hb.1, hb.2, hb.3⟩ rfl h.ready rfl rfl [.emitWidth w, .drawReconfig] rfl hcs hrot rfl hf
    case setDmaMode inc w =>
      change (State.setDmaMode inc w { s with mseq := rest }).Inv
      rcases State.setDmaMode_cases inc w { s with mseq := rest } with ⟨-, e⟩ | ⟨-, -, e⟩ | ⟨hen, -, e⟩ <;> rw [e]
      · exact State.Inv.raise ⟨hb.1, hb.2, hb.3⟩ (by decide)
      · exact quiet _ ⟨hb.1, hb.2, hb.3⟩ rfl h.ready rfl rfl [] rfl hcs hrot rfl hf
      · have hen' : s.cfg.dmaEnabled = true := hen
        exact quiet _ ⟨hb.1, fun hd => absurd (hen.symm.trans hd) (by simp), hb.3⟩ rfl h.ready rfl rfl
          [.setDmaWidth w, .emitDmaCfg inc w, .drawReconfig] (by simp [actionOk, hen']) hcs hrot rfl hf
    case setDmaWidth w =>
      have hen : s.cfg.dmaEnabled = true := hok
      exact quiet _ ⟨hb.1, fun hd => absurd (hen.symm.trans hd) (by simp), hb.3⟩ rfl h.ready rfl rfl [] rfl hcs hrot
        rfl hf
    case sendChunk off n =>
      change (State.sendChunk off n { s with mseq := rest }).Inv
      rcases sendChunk_cases off n { s with mseq := rest } with e | e | ⟨v, -, m, -, e⟩ <;> rw [e]
      · exact quiet _ ⟨hb.1, hb.2, hb.3⟩ rfl h.ready rfl rfl [] rfl hcs hrot rfl hf
      · exact State.Inv.raise ⟨hb.1, hb.2, hb.3⟩ (by decide)
      · refine quiet _ ⟨hb.1, hb.2, hb.3⟩ rfl h.ready rfl rfl
          (.drawXfer :: (if m = 0 then [] else [.sendChunk (off + 1) m])) ?_ ?_ ?_ rfl hf <;> split <;> assumption
    case checkReady =>
      unfold doAction
      dsimp only
      split
      · exact quiet _ ⟨hb.1, hb.2, hb.3⟩ rfl h.ready rfl rfl [] rfl hcs hrot rfl hf
      · exact State.Inv.raise ⟨hb.1, hb.2, hb.3⟩ (by decide)
    case loadTransfer source len =>
      exact quiet _ ⟨hb.1, hb.2, hb.3⟩ rfl h.ready rfl rfl [.setRem len] rfl hcs hrot rfl hf
    case loadFill len => exact quiet _ ⟨hb.1, hb.2, hb.3⟩ rfl h.ready rfl rfl [.setRem len] rfl hcs hrot rfl hf
    case setRem len =>
      refine quiet _ ⟨hb.1, hb.2, hb.3⟩ rfl h.ready rfl rfl (if len = 0 then [] else [.startChunk 0]) ?_ ?_ ?_ rfl hf <;>
        split <;> first | rfl | assumption
    case startChunk off =>
      cases hg : goesByDma s.cfg (chunkSize s.rem)
      · refine quiet _ ⟨hb.1, hb.2, hb.3⟩ rfl h.ready rfl rfl [.emitChunk .blk (chunkSize s.rem),
          .sendChunk off (chunkSize s.rem), .endChunk off] rfl hcs hrot ?_ hf
        simp [doAction, State.startChunk, State.pushActions, hg]
      · have hen : s.cfg.dmaEnabled = true := by
          unfold goesByDma at hg; simp only [Bool.and_eq_true] at hg; exact hg.1
        have hle : chunkSize s.rem ≤ 65535 := by unfold chunkSize Config.maxChunk; omega
        refine quiet _ ⟨hb.1, hb.2, hb.3⟩ rfl h.ready rfl rfl [.setDmaMode (!s.src.isRep) s.busWidth,
          .emitChunk .dma (chunkSize s.rem), .issueDma off (chunkSize s.rem), .endChunk off] ?_ hcs hrot ?_ hf
        · simp [actionOk, hen, hle]
        · simp [doAction, State.startChunk, State.pushActions, hg]
    case issueDma off n =>
      have hok' : s.cfg.dmaEnabled = true ∧ n ≤ 65535 := by simpa [actionOk] using hok
      exact {
        memory := hb.1
        quiet := by simp [doAction, State.issueDma, State.busy]
        ends := fun _ => hlast
        actions := hrest
        channel := by simp [doAction, State.issueDma]
        count := by
          intro source k m hd
          have : n = m := by simpa [doAction, State.issueDma] using congrArg (fun d => match d with | DmaState.active _ _ n => n | _ => 0) hd
          omega
        noDma := fun hd => absurd (hok'.1.symm.trans hd) (by simp)
        error := ⟨fun hn => absurd h.clear hn, fun hf => by simp [doAction, State.issueDma] at hf⟩
        result := ⟨fun hr => absurd hr h.unfaulted, fun hf => by simp [doAction, State.issueDma] at hf⟩
        deselected := by simp [doAction, State.issueDma]
        deselects := fun _ => hcs
        rotation := hb.3
        rotations := hrot }
    case endChunk off =>
      by_cases h0 : s.rem - BitVec.ofNat 32 s.chunk.toNat = 0
      · refine quiet _ ⟨hb.1, hb.2, hb.3⟩ rfl h.ready rfl rfl [] rfl hcs hrot ?_ hf
        change (if s.rem - BitVec.ofNat 32 s.chunk.toNat = 0 then [] else _) ++ rest = _
        rw [if_pos h0]
      · refine quiet _ ⟨hb.1, hb.2, hb.3⟩ rfl h.ready rfl rfl [.startChunk (advance s.src off s.chunk.toNat)]
          rfl hcs hrot ?_ hf
        change (if s.rem - BitVec.ofNat 32 s.chunk.toNat = 0 then [] else _) ++ rest = _
        rw [if_neg h0]
    case fillBlocks left =>
      have hm : ∀ l, (doAction (.fillBlocks left) { s with mseq := l }).mseq =
          ([.driveDc true, .loadTransfer (.lit (s.fillBuf.toList.take (min left Config.fillBufLen)))
            (lengthOf (min left Config.fillBufLen)), .driveCs true] ++
          (if left - min left Config.fillBufLen = 0 then []
            else [.fillBlocks (left - min left Config.fillBufLen)])) ++ l := fun _ => rfl
      refine quiet _ ⟨hb.1, hb.2, hb.3⟩ rfl h.ready rfl rfl _ ?_ ?_ ?_ (hm rest) hf
      · split <;> rfl
      · split <;> exact hcs
      · split <;> exact hrot
    case setRot m =>
      have hm : m = s.cfg.rotationCfg := by simpa [actionOk] using hok
      refine quiet _ ⟨hb.1, hb.2, fun _ => hm⟩ rfl h.ready rfl rfl [] rfl hcs ?_ rfl hf
      have : (m == s.cfg.rotationCfg) = true := by rw [hm]; simp
      change rotOrdered (m == s.cfg.rotationCfg) rest = true
      rw [this]
      exact hrot
    case setRotSet =>
      have hr : (s.rot == s.cfg.rotationCfg) = true ∧ rotOrdered (s.rot == s.cfg.rotationCfg) rest = true := by
        have := hrot
        simpa [rotOrdered] using this
      exact quiet _ ⟨hb.1, hb.2, fun _ => (by simpa using hr.1 : s.rot = s.cfg.rotationCfg)⟩ rfl h.ready rfl rfl [] rfl hcs hr.2 rfl hf
    all_goals exact quiet _ ⟨hb.1, hb.2, hb.3⟩ rfl h.ready rfl rfl [] rfl hcs hrot rfl hf

/-- A step of the sequencer keeps the invariant. -/
theorem inv_seqStep (h : s.Inv) (hs : s.seqStep = some t) : t.Inv := by
  rcases seqStep_cases hs with ⟨hf, hd, rfl⟩ | ⟨hf, a, rest, hm, hh, rfl⟩
  · have hbusy : s.busy = true := by simp [State.busy, hf]
    refine State.Running.inv (s := s) ⟨h.base, h.ends hbusy, h.actions, hd, ?_, ?_, h.deselects hbusy, h.rotations⟩
    · by_contra hn; have := h.error.mp hn; rw [hf] at this; simp at this
    · intro hr; have := h.result.mp hr; rw [hf] at this; simp at this
  · have hr := h.running hf
    rw [hm] at hr
    exact inv_action hr hf hh

/-- A step of the DMA channel keeps the invariant. -/
theorem inv_dmaStep (h : s.Inv) (hs : s.dmaStep = some t) : t.Inv := by
  have hb := h.base
  have hen : (∃ source k n, s.dma = .active source k n) → s.cfg.dmaEnabled = true ∧ s.fsm = .waitDma := by
    rintro ⟨source, k, n, hd⟩
    constructor
    · by_contra hc
      have := (h.noDma (by simpa using hc)).1
      rw [hd] at this; simp at this
    · by_contra hc
      have := h.channel hc
      rw [hd] at this; simp at this
  have keep : ∀ (tr : List Event) (xs : List XferOutcome) (ix : Nat) (d : DmaState),
      s.cfg.dmaEnabled = true → s.fsm = .waitDma → (∀ source k n, d = .active source k n → n ≤ 65535) →
      ({ s with trace := tr, xferDraws := xs, freeIx := ix, dma := d } : State).Inv := by
    intro tr xs ix d he hf hn
    exact ⟨h.memory, h.quiet, h.ends, h.actions, fun hc => absurd hf hc, hn,
      fun hd => absurd (he.symm.trans hd) (by simp), h.error, h.result, h.deselected, h.deselects, h.rotation,
      h.rotations⟩
  rcases dmaStep_cases hs with ⟨source, k, hd, rfl⟩ |
    ⟨source, k, n, hd, ⟨-, rfl⟩ | ⟨v, xs, ix, -, rfl | rfl | rfl⟩⟩
  · obtain ⟨he, hf⟩ := hen ⟨_, _, _, hd⟩
    exact keep s.trace s.xferDraws s.freeIx .ready he hf (by simp)
  · exact State.Inv.raise hb (by decide)
  · obtain ⟨he, hf⟩ := hen ⟨_, _, _, hd⟩
    have hc := h.count _ _ _ hd
    exact keep _ xs ix _ he hf (by
      intro source' k' n' hd'
      have : n = n' := by injection hd'
      omega)
  · refine State.Inv.raise ?_ (by decide)
    exact ⟨hb.1, hb.2, hb.3⟩
  · obtain ⟨he, hf⟩ := hen ⟨_, _, _, hd⟩
    exact keep _ xs ix .hung he hf (by simp)

/-- A turn of the agents keeps the invariant. -/
theorem inv_engineStep (h : s.Inv) : s.engineStep.Inv := by
  rcases engineStep_cases s with e | ⟨-, e⟩ | ⟨-, -, e⟩
  · exact inv_seqStep h e
  · exact inv_dmaStep h e
  · rw [e]; exact h

/-- Fields the invariant does not read. -/
theorem State.Inv.irrelevant (h : s.Inv) (op : Word) (arg : Args) (lOp : Byte) (lArg : Args) (is : List Input)
    (ix : Nat) (r : HostResp) :
    ({ s with op := op, arg := arg, lOp := lOp, lArg := lArg, inputs := is, freeIx := ix, resp := r } : State).Inv :=
  ⟨h.1, h.2, h.3, h.4, h.5, h.6, h.7, h.8, h.9, h.10, h.11, h.12, h.13⟩

theorem inv_idleTurn (h : s.Inv) : s.idleTurn.Inv := by
  have hi : ({ s with freeIx := s.freeIx + 1 } : State).Inv :=
    h.irrelevant s.op s.arg s.lOp s.lArg s.inputs (s.freeIx + 1) s.resp
  rcases idleTurn_cases s with e | ⟨-, e | e⟩ <;> rw [e]
  · exact inv_engineStep h
  · exact hi
  · exact inv_engineStep hi

/-- Starting an operation on an idle engine keeps the invariant. -/
theorem inv_exec (h : s.Inv) (hf : s.fsm = .idle) (i : Instr) (he : exec i s = .next t) : t.Inv := by
  rw [exec_eq] at he
  injection he with he
  subst he
  have hs := (good_op s.cfg s.busWidth s.rotSet s.initDone i).sound
  refine State.Running.inv ⟨h.base, hs.ends, hs.ok, h.channel (by simp [hf]), ?_, ?_, ?_, hs.ordered _⟩
  · by_contra hn; have := h.error.mp hn; rw [hf] at this; simp at this
  · intro hr; have := h.result.mp hr; rw [hf] at this; simp at this
  · rw [h.deselected hf]; exact hs.deselects

/-- A request keeps the invariant. -/
theorem inv_startRequest (h : s.Inv) (he : s.startRequest = .next t) : t.Inv := by
  unfold State.startRequest at he
  split at he
  · injection he with he; subst he; exact h
  · injection he with he; subst he; exact State.Inv.raiseAt h.base (by decide) _
  · injection he with he; subst he; exact State.Inv.raiseAt h.base (by decide) _
  · next hf =>
    split at he
    · have hl : s.latch.Inv := h.irrelevant s.op s.arg _ _ s.inputs s.freeIx s.resp
      exact inv_exec hl hf _ he
    · injection he with he; subst he; exact State.Inv.raiseAt h.base (by decide) _

/-- A state after reset meets the invariant, whatever its trace, plan and draws; memory is as before. -/
theorem inv_reset (c : Config) (m : Memory) (hm : m.wf = true) (tr : List Event) (is : List Input)
    (rs : List ReconfigOutcome) (xs : List XferOutcome) (ix : Nat) (r : HostResp) :
    ({ State.resetWith c with
        trace := tr, mem := m, inputs := is, reconfigDraws := rs, xferDraws := xs, freeIx := ix, resp := r } : State).Inv :=
  ⟨hm, fun _ => rfl, by simp [State.busy, State.resetWith], rfl, fun _ => rfl, by simp [State.resetWith],
    fun _ => ⟨rfl, rfl, rfl⟩, by simp [State.resetWith], by simp [State.resetWith], fun _ => rfl,
    by simp [State.busy, State.resetWith], by simp [State.resetWith], rfl⟩

end Sys2Proof.Machine
end

