-- ==== Sys2Proof/Laws/PerInstr.lean ====
section
/-! SUPPORT. Statements made of every operation, one lemma each: the request word of an encoded operation. -/

namespace Sys2Proof.Laws.EncodeOpcode

/-- The request word of an encoded operation is its opcode with bits [31:8] 0 (30_encoding.md R102, R107). -/
def Statement (i : Instr) : Prop := opcodeOf (encode i).op = i.opcode ∧ highBitsOf (encode i).op = 0

theorem setWordWidth (w16 : Bool) (rsvd : BitVec 31) : Statement (.setWordWidth w16 rsvd) :=
  ⟨opcode_requestWord _, highBits_requestWord _⟩

theorem setDmaMode (w16 inc : Bool) (rsvd : BitVec 30) : Statement (.setDmaMode w16 inc rsvd) :=
  ⟨opcode_requestWord _, highBits_requestWord _⟩

theorem writeCommand (b : Byte) (rsvd : BitVec 24) : Statement (.writeCommand b rsvd) :=
  ⟨opcode_requestWord _, highBits_requestWord _⟩

theorem writeSmallData (b : Byte) (rsvd : BitVec 24) : Statement (.writeSmallData b rsvd) :=
  ⟨opcode_requestWord _, highBits_requestWord _⟩

theorem writeData (addr len : Word) : Statement (.writeData addr len) :=
  ⟨opcode_requestWord _, highBits_requestWord _⟩

theorem transmit (addr len : Word) : Statement (.transmit addr len) :=
  ⟨opcode_requestWord _, highBits_requestWord _⟩

theorem setAddressWindow (x0 y0 x1 y1 : Half) : Statement (.setAddressWindow x0 y0 x1 y1) :=
  ⟨opcode_requestWord _, highBits_requestWord _⟩

theorem setRotation (m : BitVec 2) (rsvd : BitVec 30) : Statement (.setRotation m rsvd) :=
  ⟨opcode_requestWord _, highBits_requestWord _⟩

theorem fillPixels (count : Word) (color rsvd : Half) : Statement (.fillPixels count color rsvd) :=
  ⟨opcode_requestWord _, highBits_requestWord _⟩

theorem fillRect (x0 y0 x1 y1 color rsvd : Half) : Statement (.fillRect x0 y0 x1 y1 color rsvd) :=
  ⟨opcode_requestWord _, highBits_requestWord _⟩

theorem drawLine (x0 y0 x1 y1 color rsvd : Half) : Statement (.drawLine x0 y0 x1 y1 color rsvd) :=
  ⟨opcode_requestWord _, highBits_requestWord _⟩

theorem drawPixel (x y color rsvd : Half) : Statement (.drawPixel x y color rsvd) :=
  ⟨opcode_requestWord _, highBits_requestWord _⟩

theorem drawImage (x y bw bh : Half) (bpp : Byte) (addr : Word) (rsvd : BitVec 24) : Statement (.drawImage x y bw bh bpp addr rsvd) :=
  ⟨opcode_requestWord _, highBits_requestWord _⟩

theorem init : Statement .init :=
  ⟨opcode_requestWord _, highBits_requestWord _⟩

end Sys2Proof.Laws.EncodeOpcode
end

