-- ==== Sys2Proof/Laws/Wire.lean ====
section
/-! SUPPORT. What the controller receives: the bytes each effect puts on the wire, and the controller view of a trace that grows by them. -/

namespace Sys2Proof.Machine

variable {s t u : State}

/-! ## The view of a trace that grows -/

/-- An event that closes no transaction (20_memory.md R83). -/
def keepsView : Event → Bool
  | .reset => false
  | .rstN false => false
  | _ => true

theorem View.event_keeps (v : View) (e : Event) (h : keepsView e = true) :
    v.event e = (eventBytes e).foldl View.byte v := by
  cases e with
  | rstN b => cases b <;> first | rfl | simp [keepsView] at h
  | reset => simp [keepsView] at h
  | _ => rfl

theorem viewFrom_append (v : View) (a b : List Event) : viewFrom v (a ++ b) = viewFrom (viewFrom v a) b := by
  unfold viewFrom; rw [List.foldl_append]

/-- The view grows by the bytes on the wire. -/
theorem viewFrom_bytes (v : View) (es : List Event) (h : es.all keepsView = true) :
    viewFrom v es = (wireBytes es).foldl View.byte v := by
  induction es generalizing v with
  | nil => rfl
  | cons e es ih =>
    simp only [List.all_cons, Bool.and_eq_true] at h
    have hw : wireBytes (e :: es) = eventBytes e ++ wireBytes es := rfl
    rw [hw, List.foldl_append, ← View.event_keeps v e h.1]
    exact ih _ h.2

/-- The transactions of a view. -/
def View.all (v : View) : List Txn := v.closed ++ v.current.toList

theorem ctrl_eq (t : List Event) : ctrl t = (viewFrom ⟨[], none⟩ t).all := rfl

/-- Transactions already closed stay in front, whatever follows. -/
theorem View.foldl_byte_closed (c c' : List Txn) (o : Option Txn) (l : List (Bool × Byte)) :
    l.foldl View.byte ⟨c ++ c', o⟩ =
      ⟨c ++ (l.foldl View.byte ⟨c', o⟩).closed, (l.foldl View.byte ⟨c', o⟩).current⟩ := by
  induction l generalizing c' o with
  | nil => rfl
  | cons p l ih =>
    obtain ⟨d, b⟩ := p
    rw [List.foldl_cons, List.foldl_cons]
    cases d with
    | false =>
      have h : View.byte ⟨c ++ c', o⟩ (false, b) = ⟨c ++ (c' ++ o.toList), some (.cmd b [])⟩ := by
        simp [View.byte]
      rw [h]; exact ih _ _
    | true => rcases o with _ | _ | _ <;> exact ih _ _

theorem viewFrom_closed (c c' : List Txn) (o : Option Txn) (t : List Event) :
    viewFrom ⟨c ++ c', o⟩ t = ⟨c ++ (viewFrom ⟨c', o⟩ t).closed, (viewFrom ⟨c', o⟩ t).current⟩ := by
  induction t generalizing c' o with
  | nil => rfl
  | cons e t ih =>
    have h : View.event ⟨c ++ c', o⟩ e =
        ⟨c ++ (View.event ⟨c', o⟩ e).closed, (View.event ⟨c', o⟩ e).current⟩ := by
      by_cases hk : keepsView e = true
      · rw [View.event_keeps _ _ hk, View.event_keeps _ _ hk]; exact View.foldl_byte_closed _ _ _ _
      · cases e with
        | rstN b => cases b <;> simp [keepsView, View.event, View.close] at hk ⊢
        | reset => simp [View.event, View.close]
        | _ => simp [keepsView] at hk
    change viewFrom (View.event ⟨c ++ c', o⟩ e) t = _
    rw [h]
    exact ih _ _

/-- The view of what follows a point at which nothing is open (20_memory.md R83). -/
theorem viewFrom_all_closed (c : List Txn) (t : List Event) : (viewFrom ⟨c, none⟩ t).all = c ++ ctrl t := by
  have h := viewFrom_closed c [] none t
  rw [List.append_nil] at h
  rw [h, ctrl_eq]
  simp [View.all]

/-- An event that closes starts a new view after it (20_memory.md R83, 70_reset_and_hazards.md R352). -/
theorem ctrl_close (a b : List Event) (e : Event) (h : keepsView e = false) :
    ctrl (a ++ e :: b) = ctrl a ++ ctrl b := by
  have he : ∀ v : View, v.event e = v.close := by
    intro v
    cases e with
    | rstN b => cases b <;> first | rfl | simp [keepsView] at h
    | reset => rfl
    | _ => simp [keepsView] at h
  rw [ctrl_eq, viewFrom_append]
  change (viewFrom (View.event _ e) b).all = _
  rw [he]
  exact viewFrom_all_closed _ _

theorem View.byte_cmd (v : View) (b : Byte) : v.byte (false, b) = ⟨v.all, some (.cmd b [])⟩ := rfl

theorem View.foldl_data (c : List Txn) (b : Byte) (ds l : List Byte) :
    (l.map fun x => (true, x)).foldl View.byte ⟨c, some (.cmd b ds)⟩ = ⟨c, some (.cmd b (ds ++ l))⟩ := by
  induction l generalizing ds with
  | nil => simp
  | cons x l ih =>
    rw [List.map_cons, List.foldl_cons]
    have : View.byte ⟨c, some (.cmd b ds)⟩ (true, x) = ⟨c, some (.cmd b (ds ++ [x]))⟩ := rfl
    rw [this, ih, List.append_assoc, List.singleton_append]

/-- The (d, b) pairs of whole transactions. -/
def txnBytes (l : List (Byte × List Byte)) : List (Bool × Byte) :=
  l.flatMap fun p => (false, p.1) :: p.2.map fun x => (true, x)

theorem txnBytes_append (a b : List (Byte × List Byte)) : txnBytes (a ++ b) = txnBytes a ++ txnBytes b := by
  unfold txnBytes; rw [List.flatMap_append]

/-- Whole transactions are added to the view as they are, whatever was open. -/
theorem View.all_txns (v : View) (l : List (Byte × List Byte)) :
    ((txnBytes l).foldl View.byte v).all = v.all ++ l.map fun p => Txn.cmd p.1 p.2 := by
  induction l generalizing v with
  | nil => simp [txnBytes]
  | cons p l ih =>
    have h : txnBytes (p :: l) = ((false, p.1) :: p.2.map fun x => (true, x)) ++ txnBytes l := rfl
    rw [h, List.foldl_append, List.foldl_cons, View.byte_cmd, View.foldl_data, ih, List.nil_append]
    simp [View.all]

/-! ## What an effect sends -/

/-- From `s` to `t` the trace grows by events that close no transaction and carry these bytes. -/
def Sends (bs : List (Bool × Byte)) (s t : State) : Prop :=
  ∃ es, t.trace = s.trace ++ es ∧ es.all keepsView = true ∧ wireBytes es = bs

theorem wireBytes_append (a b : List Event) : wireBytes (a ++ b) = wireBytes a ++ wireBytes b := by
  unfold wireBytes; rw [List.flatMap_append]

theorem Sends.refl (s : State) : Sends [] s s := ⟨[], by simp, rfl, rfl⟩

theorem Sends.of_eq (h : t.trace = s.trace) : Sends [] s t := ⟨[], by simp [h], rfl, rfl⟩

theorem Sends.trans {a b : List (Bool × Byte)} (h : Sends a s t) (h' : Sends b t u) : Sends (a ++ b) s u := by
  obtain ⟨es, h1, h2, h3⟩ := h
  obtain ⟨fs, k1, k2, k3⟩ := h'
  refine ⟨es ++ fs, by rw [k1, h1, List.append_assoc], by rw [List.all_append, h2, k2]; rfl, ?_⟩
  rw [wireBytes_append, h3, k3]

theorem Sends.one {bs : List (Bool × Byte)} (es : List Event) (h : t.trace = s.trace ++ es)
    (h2 : es.all keepsView = true) (h3 : wireBytes es = bs) : Sends bs s t := ⟨es, h, h2, h3⟩

/-- The controller view after whole transactions. -/
theorem Sends.ctrl {l : List (Byte × List Byte)} (h : Sends (txnBytes l) s t) :
    ctrl t.trace = ctrl s.trace ++ l.map fun p => Txn.cmd p.1 p.2 := by
  obtain ⟨es, h1, h2, h3⟩ := h
  rw [ctrl_eq, ctrl_eq, h1, viewFrom_append, viewFrom_bytes _ _ h2, h3, View.all_txns]

/-- The controller view after data bytes that follow a command. -/
theorem Sends.ctrl_data {l ds : List Byte} {c : List Txn} {b : Byte}
    (h : Sends (l.map fun x => (true, x)) s t)
    (hv : viewFrom ⟨[], none⟩ s.trace = ⟨c, some (.cmd b ds)⟩) :
    viewFrom ⟨[], none⟩ t.trace = ⟨c, some (.cmd b (ds ++ l))⟩ := by
  obtain ⟨es, h1, h2, h3⟩ := h
  rw [h1, viewFrom_append, viewFrom_bytes _ _ h2, h3, hv, View.foldl_data]

theorem State.widthSet_sends (w : Width) (s : State) : Sends [] s (s.widthSet w) := by
  unfold State.widthSet
  split
  · exact Sends.refl s
  · exact ⟨[.spiWidth w], rfl, rfl, rfl⟩

theorem State.dmaModeSet_sends (inc : Bool) (w : Width) (s : State) : Sends [] s (s.dmaModeSet inc w) := by
  unfold State.dmaModeSet
  split
  · exact Sends.refl s
  · exact ⟨[.dmaCfg inc w], rfl, rfl, rfl⟩

/-- A framed byte is one byte to the controller (41_protocol.md R160, R162). -/
theorem State.byteSent_sends (d : Bool) (b : Byte) (s : State) : Sends [(d, b)] s (s.byteSent d b) := by
  refine (s.widthSet_sends .w8).trans (t := s.widthSet .w8)
    ⟨[.csN false, .dc d, .frame false d .w8 (b.setWidth 16), .csN true], rfl, rfl, ?_⟩
  unfold wireBytes eventBytes
  simp only [List.flatMap_cons, List.nil_append, List.flatMap_nil, List.append_nil, frameBytes, List.map_cons,
    List.map_nil]
  have : (b.setWidth 16).extractLsb' 0 8 = b := by
    apply BitVec.eq_of_toNat_eq
    have := b.isLt
    simp only [BitVec.extractLsb'_toNat, BitVec.toNat_setWidth]
    omega
  rw [this]

/-- The bytes of `n` frames from frame `off` of a source, at the current width. -/
def State.sourceBytes (source : Source) (off n : Nat) (s : State) : List Byte :=
  (List.range n).flatMap fun i =>
    frameBytes s.busWidth (frameValue s.busWidth (s.sourceValue source (off + i)))

theorem State.sourceBytes_congr (source : Source) (off n : Nat) (hc : t.cfg = s.cfg) (hm : t.mem = s.mem)
    (hw : t.busWidth = s.busWidth) : t.sourceBytes source off n = s.sourceBytes source off n := by
  unfold State.sourceBytes
  simp only [State.sourceValue_congr source _ hc hm hw, hw]

theorem State.sourceBytes_add (source : Source) (off n m : Nat) (s : State) :
    s.sourceBytes source off (n + m) = s.sourceBytes source off n ++ s.sourceBytes source (off + n) m := by
  unfold State.sourceBytes
  rw [List.range_add, List.flatMap_append, List.flatMap_map]
  simp only [Nat.add_assoc]

theorem State.sourceBytes_advance (source : Source) (off n m : Nat) (s : State) :
    s.sourceBytes source (advance source off n) m = s.sourceBytes source (off + n) m := by
  cases source <;> rfl

theorem wireBytes_frames (source : Source) (off n : Nat) (s : State) (hc : s.csN = false) (hd : s.dc = true) :
    wireBytes (s.framesFrom source off n) = (s.sourceBytes source off n).map fun x => (true, x) := by
  unfold wireBytes State.framesFrom State.sourceBytes
  rw [List.flatMap_map, List.map_flatMap, hc, hd]
  rfl

theorem framesFrom_keeps (source : Source) (off n : Nat) (s : State) :
    (s.framesFrom source off n).all keepsView = true := by
  unfold State.framesFrom
  simp [keepsView]

theorem State.chunkSent_sends (source : Source) (off n : Nat) (s : State) (hc : s.csN = false) (hd : s.dc = true) :
    Sends ((s.sourceBytes source off n).map fun x => (true, x)) s (s.chunkSent source off n) := by
  have h : ∀ (tr : Transport) (a : State), Sends [] s a →
      Sends ((s.sourceBytes source off n).map fun x => (true, x)) s
        { a with
          chunk := BitVec.ofNat 16 n
          trace := a.trace ++ .chunk tr n :: s.framesFrom source off n
          xferDraws := a.xferDraws.drop n } := by
    intro tr a ha
    refine ha.trans (t := a) ⟨.chunk tr n :: s.framesFrom source off n, rfl, ?_, ?_⟩
    · rw [List.all_cons, framesFrom_keeps]; rfl
    · rw [← wireBytes_frames source off n s hc hd]; rfl
  unfold State.chunkSent
  split
  · exact h _ _ (s.dmaModeSet_sends _ _)
  · exact h _ _ (Sends.refl s)

theorem State.chunksSent_sends (source : Source) (ns : List Nat) (off : Nat) (s : State)
    (hc : s.csN = false) (hd : s.dc = true) :
    Sends ((s.sourceBytes source off ns.sum).map fun x => (true, x)) s (s.chunksSent source ns off) := by
  induction ns generalizing off s with
  | nil => exact Sends.refl s
  | cons n ns ih =>
    rw [List.sum_cons, State.sourceBytes_add, List.map_append]
    have hl := s.chunkSent_lines source off n
    have hb := s.chunkSent_base source off n
    refine (s.chunkSent_sends source off n hc hd).trans ?_
    have h := ih (advance source off n) (s.chunkSent source off n) (hl.1.trans hc) (hl.2.1.trans hd)
    rw [State.sourceBytes_advance, State.sourceBytes_congr (s := s) source _ _ hb.cfg hb.mem hl.2.2.2.2.1] at h
    exact h

/-- WRITE_DATA sends its frames' bytes as data (41_protocol.md R164). -/
theorem State.dataWritten_sends (source : Source) (len : Word) (s : State) :
    Sends ((s.sourceBytes source 0 len.toNat).map fun x => (true, x)) s (s.dataWritten source len) := by
  unfold State.dataWritten State.transferred
  have h := State.chunksSent_sends source (chunkSizes len.toNat) 0
    { s with csN := false, dc := true, trace := s.trace ++ [.csN false, .dc true], src := source, rem := 0 } rfl rfl
  rw [chunkSizes_sum] at h
  have h0 : Sends [] s
    { s with csN := false, dc := true, trace := s.trace ++ [.csN false, .dc true], src := source, rem := 0 } :=
    ⟨[.csN false, .dc true], rfl, rfl, rfl⟩
  have key : ∀ a : State, Sends [] a { a with csN := true, trace := a.trace ++ [.csN true] } :=
    fun a => ⟨[.csN true], rfl, rfl, rfl⟩
  have h2 := (h0.trans h).trans (key _)
  rw [List.nil_append, List.append_nil] at h2
  exact h2

/-! ## The bytes of the sources the engine builds -/

theorem flatMap_range_eq {α β : Type} (f : Nat → List β) (g : α → List β) (l : List α)
    (h : ∀ i (hi : i < l.length), f i = g l[i]) : (List.range l.length).flatMap f = l.flatMap g := by
  induction l generalizing f with
  | nil => rfl
  | cons a l ih =>
    rw [List.length_cons, List.range_succ_eq_map, List.flatMap_cons, List.flatMap_map, List.flatMap_cons]
    have h0 := h 0 (by simp)
    simp only [List.getElem_cons_zero] at h0
    rw [h0]
    congr 1
    refine ih _ fun i hi => ?_
    have := h (i + 1) (by simpa using hi)
    simpa using this

theorem State.sourceBytes_list (l : List Byte) (s : State) (hw : s.busWidth = .w8) :
    s.sourceBytes (byteSource l) 0 l.length = l := by
  unfold State.sourceBytes
  rw [hw, flatMap_range_eq _ (fun b => [b]) l]
  · simp
  · intro i hi
    have hv : s.sourceValue (byteSource l) (0 + i) = l[i].setWidth 16 := by
      simp [State.sourceValue, State.word, byteSource, hi]
    rw [hv, frameValue_byte]
    change [(l[i].setWidth 16).extractLsb' 0 8] = [l[i]]
    congr 1
    apply BitVec.eq_of_toNat_eq
    have := l[i].isLt
    simp only [BitVec.extractLsb'_toNat, BitVec.toNat_setWidth]
    omega

theorem State.bytesWritten_sends (l : List Byte) (hl : l.length < 2 ^ 32) (s : State) (hw : s.busWidth = .w8) :
    Sends (l.map fun x => (true, x)) s (s.bytesWritten l) := by
  have h := s.dataWritten_sends (byteSource l) (lengthOf l.length)
  rw [lengthOf_toNat hl, State.sourceBytes_list l s hw] at h
  exact h

theorem pixelData_replicate_add (n m : Nat) (c : Half) :
    pixelData (List.replicate (n + m) c) = pixelData (List.replicate n c) ++ pixelData (List.replicate m c) := by
  unfold pixelData; rw [List.replicate_add, List.flatMap_append]

theorem State.sourceBytes_pixels (source : Source) (n : Nat) (c : Half) (s : State) (hw : s.busWidth = .w16)
    (h : ∀ j, j < n → s.sourceValue source j = c) :
    s.sourceBytes source 0 n = pixelData (List.replicate n c) := by
  unfold State.sourceBytes pixelData
  have hl : (List.replicate n c).length = n := List.length_replicate
  rw [hw]
  conv => lhs; rw [← hl]
  refine flatMap_range_eq _ (frameBytes .w16) (List.replicate n c) fun i hi => ?_
  rw [hl] at hi
  rw [Nat.zero_add, h i hi, List.getElem_replicate]
  rfl

/-- A called window is three transactions (43_addressing.md R210). -/
theorem State.windowSet_sends (x0 y0 x1 y1 : Half) (s : State) :
    Sends (txnBytes [(s.cfg.cmdCaset, bounds (x0 + s.cfg.geo.sx) (x1 + s.cfg.geo.sx)),
      (s.cfg.cmdRaset, bounds (y0 + s.cfg.geo.sy) (y1 + s.cfg.geo.sy)), (s.cfg.cmdRamwr, [])])
      s (s.windowSet x0 y0 x1 y1) := by
  have h0 : Sends [] s (s.windowLatched x0 y0 x1 y1) := Sends.of_eq rfl
  have h1 := h0.trans (State.byteSent_sends false s.cfg.cmdCaset (s.windowLatched x0 y0 x1 y1))
  have w1 := State.byteSent_busWidth false s.cfg.cmdCaset (s.windowLatched x0 y0 x1 y1)
  have h2 := h1.trans (State.bytesWritten_sends (bounds (x0 + s.cfg.geo.sx) (x1 + s.cfg.geo.sx))
    (by simp [bounds]) _ w1)
  have h3 := h2.trans (State.byteSent_sends false s.cfg.cmdRaset _)
  have h4 := h3.trans (State.bytesWritten_sends (bounds (y0 + s.cfg.geo.sy) (y1 + s.cfg.geo.sy))
    (by simp [bounds]) _ (State.byteSent_busWidth false s.cfg.cmdRaset _))
  exact h4.trans (State.byteSent_sends false s.cfg.cmdRamwr _)

theorem State.rotationSet_sends (m : BitVec 2) (s : State) :
    Sends (txnBytes [(s.cfg.cmdMadctl, [s.cfg.rotPattern m])]) s (s.rotationSet m) :=
  (State.byteSent_sends false s.cfg.cmdMadctl s).trans
    ((State.byteSent_sends true (s.cfg.rotPattern m) (s.byteSent false s.cfg.cmdMadctl)).trans (Sends.of_eq rfl))

theorem State.blocksSent_sends (c : Half) (ns : List Nat) (h : ∀ k ∈ ns, k < 2 ^ 32) (s : State)
    (hw : s.busWidth = .w16) :
    Sends ((pixelData (List.replicate ns.sum c)).map fun x => (true, x)) s (s.blocksSent c ns) := by
  induction ns generalizing s with
  | nil => exact Sends.refl s
  | cons n ns ih =>
    rw [List.sum_cons, pixelData_replicate_add, List.map_append, State.blocksSent_cons]
    have h1 := s.dataWritten_sends (.lit (List.replicate n c)) (lengthOf n)
    rw [lengthOf_toNat (h n (by simp)), State.sourceBytes_pixels _ n c s hw (by
      intro j hj
      simp [State.sourceValue, State.word, hj])] at h1
    exact h1.trans (ih (fun k hk => h k (by simp [hk])) _ ((s.dataWritten_busWidth _ _).trans hw))

/-- A fill adds pixels of its colour and no command byte (44_pixel_stream.md R243). -/
theorem State.pixelsFilled_sends (count : Nat) (c : Half) (hc : count < 2 ^ 32) (s : State) :
    Sends ((pixelData (List.replicate count c)).map fun x => (true, x)) s (s.pixelsFilled count c) := by
  unfold State.pixelsFilled
  split
  · have h1 := (s.widthSet_sends .w16).trans (State.dmaModeSet_sends false .w16 _)
    have h2 := h1.trans (Sends.of_eq (t := { (s.widthSet .w16).dmaModeSet false .w16 with fillColor := c }) rfl)
    have hw : ({ (s.widthSet .w16).dmaModeSet false .w16 with fillColor := c } : State).busWidth = .w16 :=
      (State.dmaModeSet_busWidth _ _ _).trans (s.widthSet_busWidth .w16)
    have h3 := State.dataWritten_sends (.rep c) (lengthOf count)
      { (s.widthSet .w16).dmaModeSet false .w16 with fillColor := c }
    rw [lengthOf_toNat hc, State.sourceBytes_pixels _ count c _ hw (fun j _ => rfl)] at h3
    exact h2.trans h3
  · have h1 : Sends [] s { s with fillBuf := Vector.replicate 64 c } := Sends.of_eq rfl
    have h2 := h1.trans (State.widthSet_sends .w16 _)
    have h3 := State.blocksSent_sends c (blockSizes count) (fun k hk => by
      have := blockSizes_le count k hk; omega)
      (State.widthSet .w16 { s with fillBuf := Vector.replicate 64 c }) (State.widthSet_busWidth _ _)
    rw [blockSizes_sum] at h3
    exact h2.trans h3

theorem State.rectFilled_sends (x0 y0 x1 y1 c : Half) (hc : rectCount x0 y0 x1 y1 < 2 ^ 32) (s : State) :
    Sends (txnBytes [(s.cfg.cmdCaset, bounds (x0 + s.cfg.geo.sx) (x1 + s.cfg.geo.sx)),
      (s.cfg.cmdRaset, bounds (y0 + s.cfg.geo.sy) (y1 + s.cfg.geo.sy)),
      (s.cfg.cmdRamwr, pixelData (List.replicate (rectCount x0 y0 x1 y1) c))])
      s (s.rectFilled x0 y0 x1 y1 c) := by
  have h := (s.windowSet_sends x0 y0 x1 y1).trans (State.pixelsFilled_sends (rectCount x0 y0 x1 y1) c hc _)
  unfold State.rectFilled
  simpa [txnBytes] using h

theorem State.pixelDrawn_sends (x y c : Half) (s : State) :
    Sends (txnBytes [(s.cfg.cmdCaset, bounds (x + s.cfg.geo.sx) (x + s.cfg.geo.sx)),
      (s.cfg.cmdRaset, bounds (y + s.cfg.geo.sy) (y + s.cfg.geo.sy)), (s.cfg.cmdRamwr, pixelBytes c)])
      s (s.pixelDrawn x y c) := by
  have h := (s.windowSet_sends x y x y).trans (State.bytesWritten_sends (pixelBytes c) (by simp [pixelBytes]) _
    (s.windowSet_busWidth x y x y))
  unfold State.pixelDrawn
  simpa [txnBytes] using h

/-- The pixels of a bitmap in memory (44_pixel_stream.md R251). -/
def imagePixels (c : Config) (m : Memory) (addr : Word) (n : Nat) : List Half :=
  (List.range n).map fun j => memRead c m (addr + BitVec.ofNat 32 (2 * j)) .w16

theorem State.word_mem (a : Word) (j : Nat) (s : State) : s.word (.mem a) j =
    if memAdmits s.cfg (frameAddr a s.busWidth j) s.busWidth = true
    then some (memRead s.cfg s.mem (frameAddr a s.busWidth j) s.busWidth) else none := rfl

theorem State.sourceBytes_image (addr : Word) (n : Nat) (s : State) (hw : s.busWidth = .w16)
    (hr : ∀ j, j < n → (s.word (.mem addr) j).isSome = true) :
    s.sourceBytes (.mem addr) 0 n = pixelData (imagePixels s.cfg s.mem addr n) := by
  unfold State.sourceBytes pixelData imagePixels
  rw [List.flatMap_map]
  refine List.flatMap_congr fun j hj => ?_
  rw [List.mem_range] at hj
  have h := hr j hj
  have e := State.word_mem addr j s
  rw [hw] at e
  have hv : s.sourceValue (.mem addr) (0 + j) = memRead s.cfg s.mem (addr + BitVec.ofNat 32 (2 * j)) .w16 := by
    unfold State.sourceValue
    rw [Nat.zero_add, e]
    by_cases ha : memAdmits s.cfg (frameAddr addr .w16 j) .w16 = true
    · rw [if_pos ha, Nat.mul_comm 2 j]; rfl
    · rw [e, if_neg ha] at h; simp at h
  rw [hv, hw]
  rfl

theorem State.imageDrawn_sends (x y bw bh : Half) (addr : Word) (s : State)
    (hn : bw.toNat * bh.toNat < 2 ^ 32) (hm : s.Readable .w16 (.mem addr) (bw.toNat * bh.toNat)) :
    Sends (txnBytes [(s.cfg.cmdCaset, bounds (x + s.cfg.geo.sx) (lastCoord x bw + s.cfg.geo.sx)),
      (s.cfg.cmdRaset, bounds (y + s.cfg.geo.sy) (lastCoord y bh + s.cfg.geo.sy)),
      (s.cfg.cmdRamwr, pixelData (imagePixels s.cfg s.mem addr (bw.toNat * bh.toNat)))])
      s (s.imageDrawn x y bw bh addr) := by
  have h1 := (s.windowSet_sends x y (lastCoord x bw) (lastCoord y bh)).trans (State.widthSet_sends .w16 _)
  have hb := (s.windowSet_base x y (lastCoord x bw) (lastCoord y bh)).trans (State.widthSet_base .w16 _)
  have key : ∀ d : State, Sends [] ((s.windowSet x y (lastCoord x bw) (lastCoord y bh)).widthSet .w16) d →
      SameBase s d → d.busWidth = .w16 →
      Sends (txnBytes [(s.cfg.cmdCaset, bounds (x + s.cfg.geo.sx) (lastCoord x bw + s.cfg.geo.sx)),
        (s.cfg.cmdRaset, bounds (y + s.cfg.geo.sy) (lastCoord y bh + s.cfg.geo.sy)),
        (s.cfg.cmdRamwr, pixelData (imagePixels s.cfg s.mem addr (bw.toNat * bh.toNat)))])
        s (d.dataWritten (.mem addr) (lengthOf (bw.toNat * bh.toNat))) := by
    intro d hd hbd hw
    have h2 := d.dataWritten_sends (.mem addr) (lengthOf (bw.toNat * bh.toNat))
    rw [lengthOf_toNat hn, State.sourceBytes_image addr _ d hw (by
      intro j hj
      have e := State.word_congr (t := d) (s := { s with busWidth := .w16 }) (.mem addr) j hbd.cfg hbd.mem hw
      rw [e]
      exact hm j hj), hbd.cfg, hbd.mem] at h2
    have h3 := (h1.trans hd).trans h2
    simpa [txnBytes] using h3
  unfold State.imageDrawn
  dsimp only
  split
  · exact key _ (State.dmaModeSet_sends _ _ _) (hb.trans (State.dmaModeSet_base _ _ _))
      ((State.dmaModeSet_busWidth _ _ _).trans (State.widthSet_busWidth _ _))
  · exact key _ (Sends.refl _) hb (State.widthSet_busWidth _ _)

/-! ## INIT (45_init.md R290) -/

theorem State.tableSent_sends (es : List (Byte × List Byte)) (he : ∀ e ∈ es, e.2.length < 2 ^ 32) (s : State) :
    Sends (txnBytes es) s (s.tableSent es) := by
  induction es generalizing s with
  | nil => exact Sends.refl s
  | cons e es ih =>
    rw [State.tableSent_cons]
    have h1 : Sends ((false, e.1) :: e.2.map fun x => (true, x)) s (s.entrySent e) := by
      unfold State.entrySent
      split
      · next h =>
        rw [List.length_eq_zero_iff.mp h]
        exact s.byteSent_sends false e.1
      · exact (s.byteSent_sends false e.1).trans
          (State.bytesWritten_sends e.2 (he e (by simp)) _ (s.byteSent_busWidth false e.1))
    exact h1.trans (ih (fun e' h' => he e' (by simp [h'])) _)

/-- The transactions of INIT (45_init.md R290). -/
def initTxns (c : Config) : List (Byte × List Byte) :=
  c.initTableA ++ [(c.cmdMadctl, [c.rotPattern c.rotationCfg])] ++ c.initTableB ++
    [(c.cmdInvon, []), (c.cmdSlpout, []), (c.cmdNoron, []),
     (c.cmdCaset, bounds c.geo.sx (c.geo.w - 1 + c.geo.sx)),
     (c.cmdRaset, bounds c.geo.sy (c.geo.h - 1 + c.geo.sy)),
     (c.cmdRamwr, pixelData (List.replicate (c.geo.w.toNat * c.geo.h.toNat) c.bgColor)),
     (c.cmdDispon, [])]

theorem rectCount_screen (c : Config) :
    rectCount 0 0 (c.geo.w - 1) (c.geo.h - 1) = c.geo.w.toNat * c.geo.h.toNat := by
  have hc := c.sizes
  have hw : (c.geo.w - 1).toNat = c.geo.w.toNat - 1 := by rw [BitVec.toNat_sub]; simp; omega
  have hh : (c.geo.h - 1).toNat = c.geo.h.toNat - 1 := by rw [BitVec.toNat_sub]; simp; omega
  unfold rectCount
  rw [hw, hh]
  have : (0 : Half).toNat = 0 := rfl
  rw [this]
  congr 1 <;> omega

/-- INIT sends its transactions after the pulse. -/
theorem State.initialized_sends (s : State) : Sends (txnBytes (initTxns s.cfg)) s.pulsed s.initialized := by
  have hA : ∀ e ∈ s.cfg.initTableA, e.2.length < 2 ^ 32 := fun e he =>
    s.cfg.table_length e (List.mem_append.mpr (.inl he))
  have hB : ∀ e ∈ s.cfg.initTableB, e.2.length < 2 ^ 32 := fun e he =>
    s.cfg.table_length e (List.mem_append.mpr (.inr he))
  have hcount := (rectCount_le s.cfg (screenWindow_valid s.cfg)).2
  unfold State.initialized
  dsimp only
  have hcfg : s.pulsed.cfg = s.cfg := rfl
  generalize s.cfg = c at *
  generalize s.pulsed = a at *
  have h := a.tableSent_sends _ hA
  have hc := (a.tableSent_base c.initTableA).cfg.trans hcfg
  generalize a.tableSent c.initTableA = b at *
  have hr := b.rotationSet_sends c.rotationCfg
  rw [hc] at hr
  have h := h.trans hr
  have hc := (b.rotationSet_cfg c.rotationCfg).trans hc
  generalize b.rotationSet c.rotationCfg = d at *
  have h := h.trans (d.tableSent_sends _ hB)
  have hc := (d.tableSent_base c.initTableB).cfg.trans hc
  generalize d.tableSent c.initTableB = f at *
  have h := h.trans (f.byteSent_sends false c.cmdInvon)
  have hc := (f.byteSent_base false c.cmdInvon).cfg.trans hc
  generalize f.byteSent false c.cmdInvon = g at *
  have h := h.trans (g.byteSent_sends false c.cmdSlpout)
  have hc := (g.byteSent_base false c.cmdSlpout).cfg.trans hc
  generalize g.byteSent false c.cmdSlpout = i at *
  have h := h.trans (i.byteSent_sends false c.cmdNoron)
  have hc := (i.byteSent_base false c.cmdNoron).cfg.trans hc
  generalize i.byteSent false c.cmdNoron = k at *
  have hrect := k.rectFilled_sends 0 0 (c.geo.w - 1) (c.geo.h - 1) c.bgColor hcount
  rw [hc, rectCount_screen, zero_add, zero_add] at hrect
  have h := h.trans hrect
  generalize k.rectFilled 0 0 (c.geo.w - 1) (c.geo.h - 1) c.bgColor = l at *
  have h := (h.trans (l.byteSent_sends false c.cmdDispon)).trans
    (Sends.of_eq (t := { l.byteSent false c.cmdDispon with initDone := true }) rfl)
  have e : txnBytes (initTxns c) = txnBytes c.initTableA ++
      txnBytes [(c.cmdMadctl, [c.rotPattern c.rotationCfg])] ++ txnBytes c.initTableB ++ [(false, c.cmdInvon)] ++
      [(false, c.cmdSlpout)] ++ [(false, c.cmdNoron)] ++
      txnBytes [(c.cmdCaset, bounds c.geo.sx (c.geo.w - 1 + c.geo.sx)),
        (c.cmdRaset, bounds c.geo.sy (c.geo.h - 1 + c.geo.sy)),
        (c.cmdRamwr, pixelData (List.replicate (c.geo.w.toNat * c.geo.h.toNat) c.bgColor))] ++
      [(false, c.cmdDispon)] ++ [] := by
    unfold initTxns
    simp [txnBytes]
  rw [e]
  exact h

/-! ## Bytes and pixels -/

/-- A pixel is its two bytes, most significant first. -/
theorem pixel_of_bytes (c : Half) : (c.extractLsb' 8 8 ++ c.extractLsb' 0 8 : Half) = c := by
  apply BitVec.eq_of_toNat_eq
  have := c.isLt
  rw [BitVec.toNat_append, ← Nat.shiftLeft_add_eq_or_of_lt (BitVec.isLt _)]
  simp [Nat.shiftRight_eq_div_pow, Nat.shiftLeft_eq]
  omega

/-- The pixel stream of the data of pixels is those pixels (20_memory.md R84). -/
theorem pixelStream_pixelData (l : List Half) : pixelStream (pixelData l) = l := by
  induction l with
  | nil => rfl
  | cons c l ih =>
    show pixelStream (c.extractLsb' 8 8 :: c.extractLsb' 0 8 :: pixelData l) = c :: l
    unfold pixelStream
    rw [ih, pixel_of_bytes]

/-- A pixel is two bytes. -/
theorem pixelData_length (l : List Half) : (pixelData l).length = 2 * l.length := by
  induction l with
  | nil => rfl
  | cons c l ih =>
    have h : (pixelData (c :: l)).length = 2 + (pixelData l).length := by
      simp [pixelData, frameBytes]; omega
    rw [h, ih, List.length_cons]; omega

/-- The bounds of an axis as exact sums split in two bytes (43_addressing.md R211). -/
theorem bounds_bigEndian (a b : Half) : bounds a b = bigEndian a.toNat ++ bigEndian b.toNat := by
  have key : ∀ x : Half, bigEndian x.toNat = [x.extractLsb' 8 8, x.extractLsb' 0 8] := by
    intro x
    have h1 : BitVec.ofNat 8 (x.toNat / 256) = x.extractLsb' 8 8 := by
      apply BitVec.eq_of_toNat_eq
      simp [Nat.shiftRight_eq_div_pow]
    have h2 : BitVec.ofNat 8 (x.toNat % 256) = x.extractLsb' 0 8 := by
      apply BitVec.eq_of_toNat_eq
      simp
    unfold bigEndian
    rw [h1, h2]
  rw [key, key]
  rfl

end Sys2Proof.Machine
end

