-- ==== Sys2Proof/Tests/Slice0.lean ====
section
/-! SUPPORT. Small tests on single steps, with expected results from the spec (its vectors E<n> and V<n> of 95_test_vectors.md, and its encoding tables), and the witnesses: for each statement with hypotheses, states and operands that meet them. -/

namespace Sys2Proof.Tests

open Sys2Proof.Machine

/-! ## Helpers -/

/-- Configuration G3 without DMA (95_test_vectors.md). -/
def g3 : Config := ⟨{ Params.candidate with dmaEnabled := false }, by decide⟩

/-- Configuration G3 with DMA and `DMA_MIN_SIZE` = 16. -/
def g3Dma : Config := Config.candidate

/-- A panel of 3 by 2 pixels, shifts 5 and 7, no DMA. -/
def small : Config :=
  ⟨{ Params.candidate with
      dmaEnabled := false
      panelVariant := .other 0
      rotationCfg := 0
      geometry := [⟨.other 0, ⟨3, 2, 5, 7⟩, ⟨2, 3, 7, 5⟩, ⟨3, 2, 5, 7⟩, ⟨2, 3, 7, 5⟩⟩] }, by decide⟩

/-- The same panel with DMA from one frame on. -/
def smallDma : Config := ⟨{ small.toParams with dmaEnabled := true, dmaMinSize := 1 }, by decide⟩

/-- After reset, with draws that are OK. -/
def fresh (c : Config) (r x : Nat) : State :=
  { State.resetWith c with reconfigDraws := List.replicate r .ok, xferDraws := List.replicate x .ok }

/-- The same with the orientation set. -/
def ready (c : Config) (r x : Nat) : State := { fresh c r x with rot := c.rotationCfg, rotSet := true }

/-- A state whose host's next action is `i`. -/
def told (i : Input) (s : State) : State := { s with inputs := [i] }

/-- The next state, where there is one. -/
def nextOf : Outcome → Option State
  | .next t => some t
  | .fault _ => none
  | .refused _ => none

/-- The micro-sequence an operation starts with. -/
def starts (i : Instr) (s : State) : Option (List Action) := (nextOf (exec i s)).map (·.mseq)

/-- The fault or result of an operation that ends in its first action. -/
def endsAtOnce (i : Instr) (s : State) : Option (ResultCode × Word × Nat) :=
  (nextOf (exec i s)).map fun t => (t.engineStep.result, t.engineStep.errWord, t.engineStep.trace.length)

theorem okDraws_fresh (c : Config) (r x : Nat) : (fresh c r x).OkDraws r x := by
  refine ⟨?_, ?_, ?_, ?_⟩ <;> simp [fresh]

theorem okDraws_ready (c : Config) (r x : Nat) : (ready c r x).OkDraws r x := okDraws_fresh c r x

/-! ## Decoding: words written out from the tables of R102, R103 and R107 -/

theorem test_decode_set_word_width :
    decode ⟨0b00000000000000000000000000000001, 0b00000000000000000000000000000001, 0, 0, 0⟩ =
      .ok (.setWordWidth true 0) := by decide

theorem test_decode_set_dma_mode :
    decode ⟨0b00000000000000000000000000000010, 0b00000000000000000000000000000010, 0, 0, 0⟩ =
      .ok (.setDmaMode false true 0) := by decide

theorem test_decode_write_command :
    decode ⟨0b00000000000000000000000000010000, 0b00000000000000000000000100101100, 0, 0, 0⟩ =
      .ok (.writeCommand 0x2C 1) := by decide

theorem test_decode_write_small_data :
    decode ⟨0b00000000000000000000000000010001, 0b00000000000000000000000001100000, 0, 0, 0⟩ =
      .ok (.writeSmallData 0x60 0) := by decide

theorem test_decode_write_data :
    decode ⟨0b00000000000000000000000000010010, 0b00100000000000000000000000000000,
      0b00000000000000000000000000000010, 0, 0⟩ = .ok (.writeData 0x20000000 2) := by decide

theorem test_decode_transmit :
    decode ⟨0b00000000000000000000000000010011, 0b00100000000000000000000100000000,
      0b00000000000000000000000000010100, 0, 0⟩ = .ok (.transmit 0x20000100 20) := by decide

theorem test_decode_set_address_window :
    decode ⟨0b00000000000000000000000000100000, 0b00000000000000010000000000000010,
      0b00000000100001100000000011101111, 0, 0⟩ = .ok (.setAddressWindow 2 1 239 134) := by decide

theorem test_decode_set_rotation :
    decode ⟨0b00000000000000000000000000100001, 0b00000000000000000000000000000111, 0, 0, 0⟩ =
      .ok (.setRotation 3 1) := by decide

theorem test_decode_fill_pixels :
    decode ⟨0b00000000000000000000000000110000, 0b00000000000000000000000001000001, 0xFFFFFFFF,
      0b00000000000000000000011111100000, 0xFFFFFFFF⟩ = .ok (.fillPixels 65 0x07E0 0) := by decide

theorem test_decode_fill_rect :
    decode ⟨0b00000000000000000000000000110001, 0b00000000000001000000000000000011,
      0b00000000000001100000000000000101, 0b00000000000000000001001000110100, 0⟩ =
      .ok (.fillRect 3 4 5 6 0x1234 0) := by decide

theorem test_decode_draw_line :
    decode ⟨0b00000000000000000000000000110010, 0b00000000000001010000000000001001,
      0b00000000000001010000000000000010, 0b00000000000000000000000000000001, 0⟩ =
      .ok (.drawLine 9 5 2 5 1 0) := by decide

theorem test_decode_draw_pixel :
    decode ⟨0b00000000000000000000000000110011, 0b00000000001100100000000001100100, 0,
      0b00000000000000001111100000000000, 0⟩ = .ok (.drawPixel 100 50 0xF800 0) := by decide

theorem test_decode_draw_image :
    decode ⟨0b00000000000000000000000000110100, 0b00000000000000000000000011100110,
      0b00000000000100000000000000010000, 0b00000000000000000000000100010000,
      0b00100000000000000000000000000000⟩ = .ok (.drawImage 230 0 16 16 16 0x20000000 1) := by decide

theorem test_decode_init :
    decode ⟨0b00000000000000000000000001000000, 0xFFFFFFFF, 0, 0, 0⟩ = .ok .init := by decide

/-- R108: the words around the opcodes, and an opcode with a bit above [7:0]. -/
theorem test_decode_illegal :
    [0x00, 0x03, 0x0F, 0x14, 0x1F, 0x22, 0x2F, 0x35, 0x3F, 0x41, 0xFF, 0x101, 0x80000040].all
      (fun w => match decode ⟨w, 0, 0, 0, 0⟩ with | .ok _ => false | .error _ => true) = true := by decide

/-! ## WellFormed: an ill-formed term for each check -/

theorem test_ill_formed :
    [Instr.setWordWidth true 1, .setDmaMode true true 1, .writeCommand 0x2C 1, .writeSmallData 0x60 1,
      .setRotation 3 1, .fillPixels 1 0 1, .fillRect 0 0 0 0 0 1, .drawLine 0 0 0 0 0 1, .drawPixel 0 0 0 1,
      .drawImage 0 0 1 1 16 0 1].all (fun i => !i.wellFormed) = true := by decide

theorem test_well_formed :
    [Instr.setWordWidth true 0, .setDmaMode true true 0, .writeCommand 0xFF 0, .writeSmallData 0xFF 0,
      .writeData 0xFFFFFFFF 0xFFFFFFFF, .transmit 0xFFFFFFFF 0xFFFFFFFF,
      .setAddressWindow 0xFFFF 0xFFFF 0xFFFF 0xFFFF, .setRotation 3 0, .fillPixels 0xFFFFFFFF 0xFFFF 0,
      .fillRect 0xFFFF 0xFFFF 0xFFFF 0xFFFF 0xFFFF 0, .drawLine 0xFFFF 0xFFFF 0xFFFF 0xFFFF 0xFFFF 0,
      .drawPixel 0xFFFF 0xFFFF 0xFFFF 0, .drawImage 0xFFFF 0xFFFF 0xFFFF 0xFFFF 0xFF 0xFFFFFFFF 0,
      .init].all (fun i => i.wellFormed) = true := by decide

/-! ## One step of each operation -/

/-- V2, V5: the event, and the width that stands after a failed reconfiguration. -/
theorem test_set_word_width :
    let t := State.engineRun 3
      { fresh g3 0 0 with lOp := 0x01, reconfigDraws := [.fail], fsm := .run, mseq := [.setWidth .w16, .finish .ok] }
    t.trace = [.reset, .spiWidth .w16] ∧ t.busWidth = .w16 ∧ t.errWord = 0x0000010B ∧ t.statusWord = 0xF2 := by decide

/-- V7, V11: the event, `MODE`, and the width untouched. -/
theorem test_set_dma_mode :
    let t := State.engineRun 4
      { fresh g3Dma 1 0 with busWidth := .w16, fsm := .run, mseq := [.setDmaMode true .w16, .finish .ok] }
    t.trace = [.reset, .dmaCfg true .w16] ∧ t.busWidth = .w16 ∧ t.modeWord = 0x0F := by decide

/-- V9: NO_DMA comes before the reserved bits (60_exceptions.md R316). -/
theorem test_set_dma_mode_no_dma :
    endsAtOnce (.setDmaMode true true 1) { fresh g3 0 0 with lOp := 0x02 } = some (.fault, 0x00000203, 1) := by decide

/-- V15: the actions of a command, width first. -/
theorem test_write_command :
    starts (.writeCommand 0x29 0) (fresh g3 0 0) =
      some [.setWidth .w8, .driveCs false, .driveDc false, .sendByte 0x29, .driveCs true, .finish .ok] := by decide

/-- V24: the frame is in the trace, and the engine stays busy. -/
theorem test_write_command_hang :
    let t := State.engineRun 2
      { fresh g3 0 0 with csN := false, dc := false, fsm := .run, mseq := [.sendByte 0x11], xferDraws := [.hang] }
    t.trace = [.reset, .frame false false .w8 0x11] ∧ t.busy = true ∧ t.engineStep = t := by decide

/-- V16: the actions of a data byte. -/
theorem test_write_small_data :
    starts (.writeSmallData 0x60 0) (fresh g3 0 0) =
      some [.setWidth .w8, .driveCs false, .driveDc true, .sendByte 0x60, .driveCs true, .finish .ok] := by decide

/-- V19: a 16-bit frame of little-endian memory. -/
theorem test_write_data_frame :
    let t := doAction (.sendChunk 0 1)
      { fresh g3 0 1 with
        csN := false
        busWidth := .w16
        src := .mem 0x20000000
        mem := [(0x20000000, 0x12), (0x20000001, 0x34)] }
    t.trace = [.reset, .frame false true .w16 0x3412] ∧ wireBytes t.trace = [(true, 0x34), (true, 0x12)] := by decide

/-- V20: an odd address at width 16. -/
theorem test_write_data_misaligned :
    endsAtOnce (.writeData 0x20000001 1) { fresh g3 0 0 with busWidth := .w16, lOp := 0x12 } =
      some (.fault, 0x00001209, 1) := by decide

/-- V40: TRANSMIT drives no line; a deselected frame is not received. -/
theorem test_transmit :
    starts (.transmit 0x20000000 2) (fresh g3 0 0) = some [.loadTransfer (.mem 0x20000000) 2, .finish .ok] ∧
    ctrl [.frame true true .w8 0x12] = [] := by decide

/-- V41, V35: a DMA chunk sets the mode first; the last chunk of 65536 frames is blocking. -/
theorem test_transmit_chunks :
    (doAction (.startChunk 0) { fresh g3Dma 0 0 with busWidth := .w16, src := .mem 0, rem := 65536 }).mseq =
      [.setDmaMode true .w16, .emitChunk .dma 65535, .issueDma 0 65535, .endChunk 0] ∧
    (doAction (.startChunk 65535) { fresh g3Dma 0 0 with src := .mem 0, rem := 1 }).mseq =
      [.emitChunk .blk 1, .sendChunk 65535 1, .endChunk 65535] := by decide

/-- V45: the window registers and the bytes of the shifted bounds. -/
theorem test_set_address_window :
    (starts (.setAddressWindow 0 0 239 134) (ready g3 0 0)).map (fun as => as.filter fun a => match a with
      | .setWinXe _ => true
      | .setWinYe _ => true
      | .loadTransfer _ _ => true
      | _ => false) =
    some [.setWinXe 0x0117, .setWinYe 0x00BB, .loadTransfer (.lit [0x00, 0x28, 0x01, 0x17]) 4,
      .loadTransfer (.lit [0x00, 0x35, 0x00, 0xBB]) 4] := by decide

/-- V47, V48: out of the panel, and before any orientation is set. -/
theorem test_set_address_window_faults :
    endsAtOnce (.setAddressWindow 0 0 240 0) { ready g3 0 0 with lOp := 0x20 } = some (.fault, 0x00002006, 1) ∧
    endsAtOnce (.setAddressWindow 0 0 0 0) { fresh g3 0 0 with lOp := 0x20 } = some (.fault, 0x00002004, 1) := by decide

/-- V49: the command, the pattern, then `rot` and `rot_set`. -/
theorem test_set_rotation :
    (starts (.setRotation 3 0) (fresh g3 0 0)).map (fun as => as.filter fun a => match a with
      | .sendByte _ => true
      | .setRot _ => true
      | .setRotSet => true
      | _ => false) = some [.sendByte 0x36, .sendByte 0x60, .setRot 3, .setRotSet] := by decide

/-- V50, V51: the reserved bits are checked before the mismatch. -/
theorem test_set_rotation_faults :
    endsAtOnce (.setRotation 1 0) { fresh g3 0 0 with lOp := 0x21 } = some (.fault, 0x00002107, 1) ∧
    endsAtOnce (.setRotation 1 1) { fresh g3 0 0 with lOp := 0x21 } = some (.fault, 0x00002102, 1) := by decide

/-- V55, V57: a block of at most 64 pixels from the buffer, or one bulk transfer of the colour. -/
theorem test_fill_pixels :
    (doAction (.fillBlocks 65) { fresh small 0 0 with fillBuf := Vector.replicate 64 7 }).mseq =
      [.driveDc true, .loadTransfer (.lit (List.replicate 64 7)) 64, .driveCs true, .fillBlocks 1] ∧
    starts (.fillPixels 16 5 0) (fresh g3Dma 0 0) =
      some [.setWidth .w16, .setDmaMode false .w16, .setFillColor 5, .driveCs false, .driveDc true, .loadFill 16,
        .driveCs true, .finish .ok] := by decide

/-- E2: nine pixels after the window. -/
theorem test_fill_rect :
    (starts (.fillRect 3 4 5 6 0x1234 0) (ready g3 0 0)).map (fun as => as.filter fun a => match a with
      | .loadTransfer _ _ => true
      | .fillBlocks _ => true
      | _ => false) =
    some [.loadTransfer (.lit [0x00, 0x2B, 0x00, 0x2D]) 4, .loadTransfer (.lit [0x00, 0x39, 0x00, 0x3B]) 4,
      .fillBlocks 9] := by decide

/-- R244: beyond the panel is a rejection, reversed corners a fault that comes first. -/
theorem test_fill_rect_ends :
    endsAtOnce (.fillRect 0 0 240 0 5 0) (ready g3 0 0) = some (.rejectBounds, 0, 1) ∧
    endsAtOnce (.fillRect 240 0 0 0 5 0) { ready g3 0 0 with lOp := 0x31 } = some (.fault, 0x00003106, 1) := by decide

/-- E3: the endpoints of a straight line in either order, and a diagonal. -/
theorem test_draw_line :
    starts (.drawLine 9 5 2 5 1 0) (ready g3 0 0) = starts (.fillRect 2 5 9 5 1 0) (ready g3 0 0) ∧
    endsAtOnce (.drawLine 1 1 0 0 1 0) (ready g3 0 0) = some (.notHandled, 0, 1) := by decide

/-- E7: the pixel's two bytes, high byte first. -/
theorem test_draw_pixel :
    (starts (.drawPixel 239 134 0xF81F 0) (ready g3 0 0)).map (fun as => as.filter fun a => match a with
      | .loadTransfer _ _ => true
      | _ => false) =
    some [.loadTransfer (.lit [0x01, 0x17, 0x01, 0x17]) 4, .loadTransfer (.lit [0x00, 0xBB, 0x00, 0xBB]) 4,
      .loadTransfer (.lit [0xF8, 0x1F]) 2] := by decide

/-- E1: outside the panel, no event. -/
theorem test_draw_pixel_bounds :
    endsAtOnce (.drawPixel 240 0 1 0) (ready g3 0 0) = some (.rejectBounds, 0, 1) ∧
    endsAtOnce (.drawPixel 0xFFFF 0xFFFF 1 0) (ready g3 0 0) = some (.rejectBounds, 0, 1) := by decide

/-- R250: the window, the width, the DMA mode, then the buffer. -/
theorem test_draw_image :
    (starts (.drawImage 1 0 2 2 16 0x20000000 0) (ready smallDma 0 0)).map (fun as => as.drop 28) =
    some [.setWidth .w16, .setDmaMode true .w16, .driveCs false, .driveDc true,
      .loadTransfer (.mem 0x20000000) 4, .driveCs true, .finish .ok] := by decide

/-- E9, R250: rejected without an event; the bounds come before the format. -/
theorem test_draw_image_rejects :
    endsAtOnce (.drawImage 230 0 16 16 8 0x20000000 0) (ready g3 0 0) = some (.rejectBounds, 0, 1) ∧
    endsAtOnce (.drawImage 0 0 4 4 8 0x20000001 0) (ready g3 0 0) = some (.rejectFormat, 0, 1) := by decide

/-- R291: the pulse first. -/
theorem test_init :
    (starts .init (fresh small 0 0)).map (fun as => as.take 5) =
    some [.driveCs true, .driveRst false, .delay 1, .driveRst true, .delay 120] := by decide

/-- R290: INIT twice. -/
theorem test_init_twice :
    endsAtOnce .init { ready g3 0 0 with initDone := true, lOp := 0x40 } = some (.fault, 0x00004005, 1) := by decide

/-- E7: `GEOM` and `SHIFT`. -/
theorem test_geometry : (fresh g3 0 0).readReg 0x20 = 0x008700F0 ∧ (fresh g3 0 0).readReg 0x24 = 0x00350028 := by decide

/-- V42: a read that is not admitted frees the channel and sends no frame. -/
theorem test_dma_bus_error :
    let t := State.engineStep { fresh g3Dma 0 1 with
      fsm := .waitDma, dma := .active (.mem 0x2001FFFF) 1 1, lOp := 0x12 }
    t.dma = .ready ∧ t.trace = [.reset] ∧ t.errWord = 0x0000120A := by decide

/-! ## Witnesses: the hypotheses of the statements -/

theorem witness_EncodeOfDecode : ∃ i, decode ⟨0x40, 1, 2, 3, 4⟩ = .ok i ∧ i.namesArg 0 = false :=
  ⟨.init, by decide⟩

theorem witness_IllegalRequestWords :
    (fresh g3 0 0).fsm = .idle ∧
    (told (.host (.write 0x00 .word 0x41)) (fresh g3 0 0)).inputs = [.host (.write 0x00 .word 0x41)] ∧
    (0x41 : Word).toNat ∉ [0x01, 0x02, 0x10, 0x11, 0x12, 0x13, 0x20, 0x21, 0x30, 0x31, 0x32, 0x33, 0x34, 0x40] ∧
    (0x101 : Word).toNat ∉ [0x01, 0x02, 0x10, 0x11, 0x12, 0x13, 0x20, 0x21, 0x30, 0x31, 0x32, 0x33, 0x34, 0x40] ∧
    (0x40 : Word).toNat ∈ [0x01, 0x02, 0x10, 0x11, 0x12, 0x13, 0x20, 0x21, 0x30, 0x31, 0x32, 0x33, 0x34, 0x40] := by
  decide

theorem witness_StepRunsDecodedRequest :
    (fresh g3 0 0).fsm = .idle ∧
    (told (.host (.write 0x00 .word 0x40)) (fresh g3 0 0)).inputs = .host (.write 0x00 .word 0x40) :: [] ∧
    decode ⟨0x40, 0, 0, 0, 0⟩ = .ok .init ∧ decodeTableWord 8 0x40 = some .init ∧
    decodeTableWord 64 0x000000290000001000000010 = some (.writeCommand 0x10 0) := by decide

theorem witness_RequestStart :
    ({ fresh g3 0 0 with fsm := .faulted } : State).fsm = .faulted ∧
    ({ fresh g3 0 0 with fsm := .run } : State).busy = true ∧
    ({ fresh g3 0 0 with fsm := .waitDma } : State).busy = true ∧
    (decode ⟨0x00, 0, 0, 0, 0⟩ = .error .unknownOpcode) ∧ decode ⟨0x40, 0, 0, 0, 0⟩ = .ok .init := by decide

theorem witness_RegisterReads : (0x3C : Nat) < 0x40 ∧ 0x3C % 4 = 0 ∧
    (told (.host (.read 0x3C .word)) (fresh g3 0 0)).inputs = .host (.read 0x3C .word) :: [] := by decide

theorem witness_BusErrors :
    (0x3F : Nat) < 0x40 ∧ ¬((.word : AccessSize) = .word ∧ 0x3F % 4 = 0) ∧
    ¬((.half : AccessSize) = .word ∧ 0x00 % 4 = 0) ∧ (0x3C : Nat) % 4 = 0 ∧
    (told (.host (.write 0x3F .word 1)) (fresh g3 0 0)).inputs = .host (.write 0x3F .word 1) :: [] ∧
    (told (.host (.read 0x00 .half)) (fresh g3 0 0)).inputs = .host (.read 0x00 .half) :: [] := by decide

theorem witness_IgnoredWrites :
    0x3C ∈ [0x14, 0x18, 0x1C, 0x20, 0x24, 0x28, 0x2C, 0x30, 0x34, 0x38, 0x3C] ∧ 0x40 ≤ 0x40 ∧
    (told (.host (.write 0x3C .word 1)) (fresh g3 0 0)).inputs = .host (.write 0x3C .word 1) :: [] ∧
    (told (.host (.read 0x40 .byte)) (fresh g3 0 0)).inputs = .host (.read 0x40 .byte) :: [] := by decide

theorem witness_ArgWrites :
    (told (.host (.write 0x04 .word 1)) (fresh g3 0 0)).inputs = .host (.write 0x04 .word 1) :: [] ∧
    (told (.host (.write 0x10 .word 1)) { fresh g3 0 0 with fsm := .run }).inputs =
      .host (.write 0x10 .word 1) :: [] := by decide

theorem witness_AssembledLine :
    let s := { fresh g3 0 0 with inputs := (assemble (.drawPixel 1 2 3 0)).map Input.host ++ [Input.wait] }
    s.fsm = .idle ∧ s.inputs = (assemble (.drawPixel 1 2 3 0)).map Input.host ++ [Input.wait] ∧
    assemble (.drawPixel 1 2 3 0) =
      [.write 0x04 .word 0x00020001, .write 0x0C .word 0x00000003, .write 0x00 .word 0x00000033] := by decide

theorem witness_HostMemoryWrites :
    (told (.memWrite 0xFFFFFFFF 1) (fresh g3 0 0)).inputs = .memWrite 0xFFFFFFFF 1 :: [] ∧
    (fresh g3 0 0).busy = false ∧ (fresh g3 0 0).mem.wf = true ∧
    (told (.memWrite 0 1) { fresh g3 0 0 with fsm := .run }).busy = true := by decide

theorem witness_MemoryReads :
    let s := { fresh g3 0 0 with busWidth := .w16 }
    s.busWidth = .w16 ∧ (s.word (.mem 0x2001FFFC) 1).isSome = true ∧ g3.memByteOrder = .little ∧
    (Config.check { Params.candidate with memByteOrder := .big }).map (fun c => c.memByteOrder) = some .big := by decide

theorem witness_EngineNeverWritesMemory :
    (nextOf (step (fresh g3 0 0))).isSome = true ∧ (fresh g3 0 0).inputs.head? = none := by decide

theorem witness_ReadNotAdmitted :
    let s := fresh g3 0 1
    (1 : Nat) < 2 ∧ (∀ j, j < 1 → (s.word (.mem 0x2001FFFF) (0 + j)).isSome = true) ∧
    s.word (.mem 0x2001FFFF) (0 + 1) = none ∧
    ({ s with src := .mem 0x2001FFFF } : State).src = .mem 0x2001FFFF ∧
    (0 : Nat) < 1 ∧ s.word (.mem 0x20020000) 0 = none := by decide

theorem witness_ReadNotAdmitted_draws : (fresh g3 0 1).OkDraws 0 1 ∧ (fresh g3 0 1).OkDraws 0 0 :=
  ⟨okDraws_fresh g3 0 1, (okDraws_fresh g3 0 1).mono (by omega) (by omega)⟩

theorem witness_TraceAppendOnly :
    (nextOf (step (told .reset (fresh g3 0 0)))).isSome = true ∧
    (told .reset (fresh g3 0 0)).inputs.head? = some .reset := by decide

/-- Data of both widths among line events and frames of a chip that is not selected, before a command frame, a reset, a hardware reset, and the end; and events that close nothing. -/
theorem witness_ControllerViewAcrossReset :
    let data : List Event := [.csN true, .frame true false .w8 9, .csN false, .frame false true .w8 0x12, .spiWidth .w16,
      .rstN true, .frame false true .w16 0x3456]
    (∀ e ∈ data, e ≠ .reset ∧ e ≠ .rstN false ∧ ∀ w v, e ≠ .frame false false w v) ∧
    (wireBytes data).map Prod.snd = [0x12, 0x34, 0x56] ∧
    (∀ b ∈ [[], [Event.frame false false .w8 0x29], [.reset], [.rstN false]],
      ∀ e, b.head? = some e → e = .reset ∨ e = .rstN false ∨ ∃ w v, e = .frame false false w v) ∧
    (∀ e ∈ [Event.csN true, .rstN true, .chunk .dma 1, .frame true true .w8 9],
      e ≠ .reset ∧ e ≠ .rstN false ∧ ∀ d w v, e ≠ .frame false d w v) ∧ ([0x12] : List Byte) ≠ [] := by
  refine ⟨?_, by decide, ?_, ?_, by decide⟩ <;> simp

theorem witness_SequencerAdvances :
    let s := { fresh g3 0 0 with fsm := .run, mseq := [.driveCs false, .finish .ok] }
    let w := { fresh g3 0 0 with fsm := .waitDma, dma := .active (.rep 1) 0 1 }
    s.fsm = .run ∧ s.mseq = .driveCs false :: [.finish .ok] ∧ Action.driveCs false ≠ .hung ∧
    s.seqStep.isSome = true ∧ w.fsm = .waitDma ∧ w.dma ≠ .ready ∧
    ({ w with dma := .ready } : State).seqStep.isSome = true ∧
    (told .engine s).inputs = .engine :: [] ∧ (told .stall s).inputs = .stall :: [] := by decide

theorem witness_DmaWait :
    let s := { fresh g3 0 1 with fsm := .waitDma }
    s.fsm = .waitDma ∧ ({ s with dma := .hung } : State).dma ≠ .ready ∧ s.dma = .ready ∧
    (∀ j, j < 1 → (s.word (.rep 7) (0 + j)).isSome = true) := by decide

theorem witness_DmaChannelStep :
    let s := { fresh g3 0 0 with dma := .active (.rep 7) 0 1 }
    s.dma = .active (.rep 7) 0 (0 + 1) ∧ s.word (.rep 7) 0 = some 7 ∧ s.word (.mem 0) 0 = none ∧
    [XferOutcome.ok, .fail, .hang].map (fun d => ({ s with xferDraws := [d] } : State).drawXfer.1) =
      [.ok, .fail, .hang] := by decide

/-- The byte of a command, a frame of a chunk with more to come, its last frame, and a frame whose read is not admitted. -/
theorem witness_BlockingFrame :
    let s : State := { fresh g3 0 0 with fsm := .run, src := .rep 7, mseq := [.sendChunk 0 2, .finish .ok] }
    s.fsm = .run ∧ s.mseq = .sendChunk 0 (1 + 1) :: [.finish .ok] ∧ s.word s.src 0 = some 7 ∧
    ({ s with mseq := [.sendByte 0x29, .finish .ok] } : State).mseq = .sendByte 0x29 :: [.finish .ok] ∧
    ({ s with mseq := [.sendChunk 1 1, .endChunk 0] } : State).mseq = .sendChunk 1 (0 + 1) :: [.endChunk 0] ∧
    ({ s with src := .mem 0 } : State).word (.mem 0) 0 = none ∧ s.dma = .ready ∧
    [XferOutcome.ok, .fail, .hang].map (fun d => ({ s with xferDraws := [d] } : State).drawXfer.1) =
      [.ok, .fail, .hang] := by decide

/-- A change of width, a change of the DMA mode that leaves one field as it is, and each outcome of the draw. -/
theorem witness_ReconfigurationSteps :
    let s : State := { fresh g3Dma 0 0 with fsm := .run, mseq := [.setWidth .w16, .finish .ok] }
    let m : State := { s with mseq := [.setDmaMode false .w16, .finish .ok] }
    s.fsm = .run ∧ s.mseq = .setWidth .w16 :: [.finish .ok] ∧ s.busWidth ≠ .w16 ∧
    m.mseq = .setDmaMode false .w16 :: [.finish .ok] ∧ m.cfg.dmaEnabled = true ∧
    ¬(m.dmaInc = false ∧ m.dmaWidth = .w16) ∧ ¬(m.dmaInc = true ∧ m.dmaWidth = .w16) ∧
    ({ m with inputs := [.engine, .host (.read 0x1C .word)] } : State).inputs = .engine :: .host (.read 0x1C .word) :: [] ∧
    ({ m with inputs := [.engine, .host (.write 0x00 .word 1)] } : State).inputs =
      .engine :: .host (.write 0x00 .word 1) :: [] ∧
    ({ m with inputs := [.engine, .reset] } : State).inputs = .engine :: .reset :: [] ∧
    [ReconfigOutcome.ok, .fail].map (fun d => ({ s with reconfigDraws := [d] } : State).drawReconfig.1) =
      [.ok, .fail] := by decide

theorem witness_DmaHang :
    let s := { fresh g3Dma 0 0 with fsm := .waitDma, dma := .hung, inputs := [.host (.write 0x04 .word 1)] }
    s.fsm = .waitDma ∧ s.dma = .hung ∧ (nextOf (step s)).isSome = true ∧ s.inputs.head? ≠ some .reset := by decide

theorem witness_DmaHang_request (v : Word) :
    (told (.host (.write 0x04 .word 1)) (fresh g3Dma 0 0)).inputs.head? ≠ some (.host (.write 0x00 .word v)) := by
  simp [told]

theorem witness_FaultIsSticky :
    let s := { fresh g3 0 0 with fsm := .faulted, inputs := [.host (.write 0x00 .word 0x40)] }
    s.fsm = .faulted ∧ s.dma = .ready ∧ (nextOf (step s)).isSome = true ∧ s.inputs.head? ≠ some .reset ∧
    (nextOf (step { s with inputs := [.reset] })).isSome = true := by decide

theorem witness_ResetValues :
    (told .reset { fresh g3 0 0 with fsm := .waitDma, dma := .hung }).inputs = .reset :: [] := by decide

theorem witness_StepKeepsInvariant :
    (State.resetWith g3).Inv ∧ (nextOf (step (State.resetWith g3))).isSome = true :=
  ⟨inv_reset g3 [] rfl [.reset] [] [] [] 0 .none, by decide⟩

theorem witness_ReservedOperands :
    (Instr.setWordWidth true 1).wellFormed = false ∧ (fresh g3Dma 0 0).cfg.dmaEnabled = true ∧
    (Instr.setDmaMode true true 1).wellFormed = false ∧ (Instr.drawImage 0 0 1 1 16 0 1).wellFormed = false := by decide

theorem witness_ReservedOperands_noDma :
    (fresh g3 0 0).cfg.dmaEnabled = false ∧
    ∀ w16 inc rsvd, Instr.writeCommand 0 1 ≠ .setDmaMode w16 inc rsvd := ⟨by decide, by simp⟩

theorem witness_OperationFrame :
    (nextOf (exec (.writeCommand 0x2C 0) (fresh g3 1 1))).isSome = true ∧ writesWindow (.writeCommand 0x2C 0) = false ∧
    writesWidth (.transmit 0 0) = false ∧ drivesLines (.setDmaMode true true 0) = false ∧
    writesDmaMode (.setRotation 0 0) = false ∧ writesRotation (.fillRect 0 0 0 0 0 0) = false ∧
    writesInit (.drawLine 0 0 0 0 0 0) = false ∧ writesFill (.drawImage 0 0 1 1 16 0 0) = false ∧
    writesTransfer (.writeSmallData 0 0) = false := by decide

theorem witness_SetWordWidth :
    let s := fresh g3 0 0
    s.busWidth = .w8 ∧ s.busWidth ≠ .w16 ∧ (1 : BitVec 31) ≠ 0 ∧
    [ReconfigOutcome.ok, .fail].map (fun d => ({ s with reconfigDraws := [d] } : State).drawReconfig.1) =
      [.ok, .fail] := by decide

theorem witness_SetDmaMode :
    (fresh g3 0 0).cfg.dmaEnabled = false ∧ (fresh g3Dma 0 0).cfg.dmaEnabled = true ∧
    ((fresh g3Dma 0 0).dmaInc = true ∧ (fresh g3Dma 0 0).dmaWidth = .w8) ∧
    ¬((fresh g3Dma 0 0).dmaInc = true ∧ (fresh g3Dma 0 0).dmaWidth = .w16) ∧ (1 : BitVec 30) ≠ 0 := by decide

theorem witness_ReconfigurationIsIdempotent : (fresh g3Dma 1 0).OkDraws 1 0 ∧ g3Dma.dmaEnabled = true :=
  ⟨okDraws_fresh g3Dma 1 0, by decide⟩

theorem witness_WriteCommand_WriteSmallData :
    (fresh g3 0 1).OkDraws (if (fresh g3 0 1).busWidth = .w8 then 0 else 1) 1 ∧
    ({ fresh g3 1 1 with busWidth := .w16 } : State).OkDraws 1 1 :=
  ⟨okDraws_fresh g3 0 1, okDraws_fresh g3 1 1⟩

theorem witness_WriteData_Transmit :
    let s := fresh g3 1 2
    s.dma = .ready ∧ ¬(s.busWidth = .w16 ∧ 1 ≤ (2 : Word).toNat ∧ (0x20000001 : Word).toNat % 2 = 1) ∧
    s.OkDraws 1 (2 : Word).toNat ∧ s.Readable s.busWidth (.mem 0x20000001) (2 : Word).toNat :=
  ⟨rfl, by decide, okDraws_fresh g3 1 2, by unfold State.Readable; decide⟩

theorem witness_WriteData_Transmit_wide :
    let s := { fresh g3Dma 1 2 with busWidth := .w16 }
    s.dma = .ready ∧ ¬(s.busWidth = .w16 ∧ 1 ≤ (2 : Word).toNat ∧ (0x20000000 : Word).toNat % 2 = 1) ∧
    s.OkDraws 1 (2 : Word).toNat ∧ s.Readable s.busWidth (.mem 0x20000000) (2 : Word).toNat :=
  ⟨rfl, by decide, okDraws_fresh g3Dma 1 2, by unfold State.Readable; decide⟩

theorem witness_TransportChoice :
    g3Dma.dmaEnabled = true ∧ g3Dma.dmaMinSize ≤ min (16 : Word).toNat 65535 ∧
    ¬(g3Dma.dmaEnabled = true ∧ g3Dma.dmaMinSize ≤ min (15 : Word).toNat 65535) ∧
    (16 : Word) - BitVec.ofNat 32 (16 : Half).toNat = 0 ∧
    (65536 : Word) - BitVec.ofNat 32 (65535 : Half).toNat ≠ 0 := by decide

theorem witness_ChunkLaw :
    (fresh g3Dma 1 65536).dma = .ready ∧ (fresh g3Dma 1 65536).OkDraws 1 (65536 : Word).toNat ∧
    ∀ j, j < (65536 : Word).toNat → ((fresh g3Dma 1 65536).word (.rep 0x07E0) j).isSome = true :=
  ⟨rfl, okDraws_fresh g3Dma 1 65536, fun _ _ => rfl⟩

theorem witness_TransportIndependence :
    let s := fresh g3 1 20
    let s' := fresh g3Dma 1 20
    s.dma = .ready ∧ s'.dma = .ready ∧ s.OkDraws 1 (20 : Word).toNat ∧ s'.OkDraws 1 (20 : Word).toNat ∧
    (∀ j, j < (20 : Word).toNat → (s.word (.mem 0x20000000) j).isSome = true ∧
      s'.word (.mem 0x20000000) j = s.word (.mem 0x20000000) j) ∧
    s'.busWidth = s.busWidth ∧ s'.csN = s.csN ∧ s'.dc = s.dc :=
  ⟨rfl, rfl, okDraws_fresh g3 1 20, okDraws_fresh g3Dma 1 20, by decide, rfl, rfl, rfl⟩

theorem witness_SetAddressWindow_ShiftLaw :
    let s := ready small 5 11
    s.dma = .ready ∧ s.rotSet = true ∧ (0 : Half).toNat ≤ (2 : Half).toNat ∧ (2 : Half).toNat < s.cfg.geo.w.toNat ∧
    (1 : Half).toNat ≤ (1 : Half).toNat ∧ (1 : Half).toNat < s.cfg.geo.h.toNat ∧ s.OkDraws 5 11 :=
  ⟨by decide, by decide, by decide, by decide, by decide, by decide, okDraws_ready small 5 11⟩

theorem witness_SetRotation : (fresh small 2 2).OkDraws 2 2 := okDraws_fresh small 2 2

theorem witness_FillPixels :
    (fresh g3Dma 3 16).dma = .ready ∧ (fresh g3Dma 3 16).OkDraws 3 (16 : Word).toNat ∧
    (fresh g3 3 65).OkDraws 3 (65 : Word).toNat :=
  ⟨rfl, okDraws_fresh g3Dma 3 16, okDraws_fresh g3 3 65⟩

theorem witness_FillLaw :
    let s := { fresh small 3 2 with trace := [.csN false, .dc false, .frame false false .w8 0x2C, .csN true] }
    s.dma = .ready ∧ s.OkDraws 3 (2 : Word).toNat ∧ viewFrom ⟨[], none⟩ s.trace = ⟨[], some (.cmd 0x2C [])⟩ :=
  ⟨rfl, okDraws_fresh small 3 2, by decide⟩

theorem witness_FillRect_FillRectLaw :
    let s := ready small 8 17
    s.dma = .ready ∧ s.rotSet = true ∧ (0 : Half).toNat ≤ (2 : Half).toNat ∧ (2 : Half).toNat < s.cfg.geo.w.toNat ∧
    (0 : Half).toNat ≤ (1 : Half).toNat ∧ (1 : Half).toNat < s.cfg.geo.h.toNat ∧
    s.OkDraws 8 (11 + ((2 : Half).toNat - (0 : Half).toNat + 1) * ((1 : Half).toNat - (0 : Half).toNat + 1)) :=
  ⟨by decide, by decide, by decide, by decide, by decide, by decide, okDraws_ready small 8 17⟩

theorem witness_DrawLine :
    let s := ready small 8 14
    s.dma = .ready ∧ s.rotSet = true ∧ (2 : Half).toNat < s.cfg.geo.w.toNat ∧ (0 : Half).toNat < s.cfg.geo.w.toNat ∧
    (1 : Half).toNat < s.cfg.geo.h.toNat ∧ (0 : Half) ≠ 1 ∧
    s.OkDraws 8 (11 + (max (2 : Half).toNat (0 : Half).toNat - min (2 : Half).toNat (0 : Half).toNat + 1)) ∧
    s.OkDraws 8 (11 + (max (1 : Half).toNat (0 : Half).toNat - min (1 : Half).toNat (0 : Half).toNat + 1)) :=
  ⟨by decide, by decide, by decide, by decide, by decide, by decide, okDraws_ready small 8 14,
    (okDraws_ready small 8 14).mono (by decide) (by decide)⟩

/-- A diagonal line and a straight one beyond the panel, each ended after one turn. -/
theorem witness_LineLaw :
    let s := ready small 0 0
    s.rotSet = true ∧
    ((nextOf (exec (.drawLine 0 0 1 1 5 0) s)).map fun b => (b.engineRun 1).fsm) = some .idle ∧
    ((nextOf (exec (.drawLine 0 1 3 1 5 0) s)).map fun b => (b.engineRun 1).fsm) = some .idle := by decide

theorem witness_DrawPixel :
    let s := ready small 6 13
    s.dma = .ready ∧ s.rotSet = true ∧ (2 : Half).toNat < s.cfg.geo.w.toNat ∧ (1 : Half).toNat < s.cfg.geo.h.toNat ∧
    s.OkDraws 6 13 :=
  ⟨by decide, by decide, by decide, by decide, okDraws_ready small 6 13⟩

theorem witness_DrawImage_BlitLaw :
    let s := ready smallDma 8 15
    s.dma = .ready ∧ s.rotSet = true ∧ (2 : Half) ≠ 0 ∧ (2 : Half) ≠ 0 ∧
    (1 : Half).toNat + (2 : Half).toNat - 1 < s.cfg.geo.w.toNat ∧
    (0 : Half).toNat + (2 : Half).toNat - 1 < s.cfg.geo.h.toNat ∧ (0x20000000 : Word).toNat % 2 = 0 ∧
    s.Readable .w16 (.mem 0x20000000) ((2 : Half).toNat * (2 : Half).toNat) ∧
    s.OkDraws 8 (11 + (2 : Half).toNat * (2 : Half).toNat) :=
  ⟨by decide, by decide, by decide, by decide, by decide, by decide, by decide,
    by unfold State.Readable; decide, okDraws_ready smallDma 8 15⟩

theorem witness_BlitLaw_rejected :
    let s := ready small 0 0
    s.rotSet = true ∧ s.cfg.geo.w.toNat ≤ (2 : Half).toNat + (2 : Half).toNat - 1 ∧
    s.cfg.geo.h.toNat ≤ (1 : Half).toNat + (2 : Half).toNat - 1 ∧ (8 : Byte) ≠ 16 := by decide

theorem witness_Init_CommandOrder :
    let s := fresh small 38 80
    s.dma = .ready ∧ s.initDone = false ∧
    14 + 2 * (s.cfg.initTableA.length + s.cfg.initTableB.length) ≤ 38 ∧
    17 + ((s.cfg.initTableA ++ s.cfg.initTableB).map fun e => 1 + e.2.length).sum +
      s.cfg.geo.w.toNat * s.cfg.geo.h.toNat ≤ 80 ∧ s.OkDraws 38 80 :=
  ⟨by decide, by decide, by decide, by decide, okDraws_fresh small 38 80⟩

/-- Parameters that meet the constraints, at their bounds and beyond them (R7). -/
theorem witness_ConfigurationConstraints :
    (Config.check Params.candidate).isSome = true ∧
    (Config.check { Params.candidate with dmaMinSize := 1 }).isSome = true ∧
    (Config.check { Params.candidate with dmaMinSize := 65535 }).isSome = true ∧
    (Config.check { Params.candidate with dmaMinSize := 0 }).isSome = false ∧
    (Config.check { Params.candidate with dmaMinSize := 65536 }).isSome = false := by decide

theorem witness_GeometryReadBack :
    (fresh g3 0 0).cfg.panelVariant = .p135x240 ∧ (fresh g3 0 0).cfg.rotationCfg = 3 := by decide

end Sys2Proof.Tests
end

section
/-! PROOFS. The family 00_scope.md: what parameters meet when they are accepted (R7). -/

namespace Sys2Proof

/-- Parameters are accepted exactly when they meet the constraints (R7). -/
theorem Config.check_ne_none_iff (p : Params) : Config.check p ≠ none ↔ p.valid = true := by
  unfold Config.check
  split <;> simp_all

theorem VariantRows.swaps_iff (v : VariantRows) :
    v.swaps = true ↔ v.r1.w = v.r0.h ∧ v.r1.h = v.r0.w ∧ v.r2.w = v.r0.w ∧ v.r2.h = v.r0.h ∧
      v.r3.w = v.r1.w ∧ v.r3.h = v.r1.h := by
  simp only [VariantRows.swaps, Bool.and_eq_true, beq_iff_eq, and_assoc]

/-- In a configuration every variant of the table swaps width and height (R7). -/
theorem Config.geometry_swaps (c : Config) : ∀ v ∈ c.geometry, v.swaps = true := by
  have hvalid := c.ok
  unfold Params.valid Params.geometryOk at hvalid
  simp only [Bool.and_eq_true, List.all_eq_true] at hvalid
  obtain ⟨⟨⟨-, hgeometry⟩, -⟩, -⟩ := hvalid
  exact fun v hv => (hgeometry v hv).1

/-- Settles O57: accepted parameters are those of a configuration, which meets the size constraints and swaps width and height in every variant. -/
theorem configurationConstraints : Obligations.ConfigurationConstraints := by
  intro p haccepted
  let c : Config := ⟨p, (Config.check_ne_none_iff p).mp haccepted⟩
  obtain ⟨hw, hh, hx, hy, harea, hmin, hmax⟩ := c.sizes
  exact ⟨hw, hh, hx, hy, harea, hmin, hmax, fun v hv => v.swaps_iff.mp (c.geometry_swaps v hv)⟩

end Sys2Proof
end

section
/-! PROOFS. The family 20_memory.md: a memory read that is not admitted, in a blocking chunk and in a DMA chunk (R73), and the wire trace, to which every step appends (R79). -/

namespace Sys2Proof.Machine

variable {s t : State}

/-! ## The frames of a chunk before a read that is not admitted (20_memory.md R73) -/

@[simp] theorem State.afterFrames_zero (source : Source) (off : Nat) (s : State) : s.afterFrames source off 0 = s := by
  simp [State.afterFrames, State.framesFrom]

@[simp] theorem State.afterFrames_word (source source' : Source) (off n j : Nat) (s : State) :
    (s.afterFrames source off n).word source' j = s.word source' j :=
  State.word_congr source' j rfl rfl rfl

/-- One blocking frame of a chunk that has more frames to send. -/
theorem State.reaches_blockingFrame (off n : Nat) (as : List Action) (hd : s.OkDraws 0 1)
    (hr : (s.word s.src off).isSome = true) :
    (s.running (.sendChunk off (n + 2) :: as)).Reaches
      ((s.afterFrame s.src off).running (.sendChunk (off + 1) (n + 1) :: as)) := by
  obtain ⟨v, hv⟩ := Option.isSome_iff_exists.mp hr
  have hvalue : s.sourceValue s.src off = v := by rw [State.sourceValue, hv, Option.getD_some]
  have hstep : doAction (.sendChunk off (n + 2)) (s.running as) =
      State.send v (s.running (.sendChunk (off + 1) (n + 1) :: as)) := by
    have hv' : (s.running as).word (s.running as).src off = some v := hv
    change State.sendChunk off (n + 2) (s.running as) = _
    rw [State.sendChunk_succ, hv']
    rfl
  rw [State.afterFrame, hvalue]
  exact (State.reaches_action (by simp) hstep).trans (State.reaches_sent v _ hd)

/-- While the sequencer waits, the turn is the channel's. -/
theorem State.engineStep_waiting {source : Source} {k n : Nat} {as : List Action}
    (h : (s.waiting source k n as).dmaStep = some t) : (s.waiting source k n as).engineStep = t := by
  rw [State.engineStep, show (s.waiting source k n as).seqStep = none from rfl, h]

/-- A step of the channel whose read is admitted and whose draw is OK (42_bulk_transfer.md R186). -/
theorem State.dmaStep_frame {source : Source} {k n : Nat} (hdma : s.dma = .active source k (n + 1))
    (hr : (s.word source k).isSome = true) (hd : s.OkDraws 0 1) :
    s.dmaStep = some { s.afterFrame source k with dma := .active source (if source.isRep then k else k + 1) n } := by
  obtain ⟨v, hv⟩ := Option.isSome_iff_exists.mp hr
  have hdraw := State.drawXfer_ok (s := s.emit (.frame s.csN s.dc s.busWidth (frameValue s.busWidth v))) hd
  simp only [State.dmaStep, State.afterFrame, State.sourceValue, hdma, hv, hdraw]
  rfl

/-- A step of the channel whose read is not admitted. -/
theorem State.dmaStep_unreadable {source : Source} {k n : Nat} (hdma : s.dma = .active source k (n + 1))
    (hw : s.word source k = none) : s.dmaStep = some (s.faultedBy .busError) := by
  simp only [State.dmaStep, hdma, hw]
  rfl

/-- A source with a read that is not admitted lies in memory, so it is no fixed one. -/
theorem Source.isRep_of_word_none {source : Source} {j : Nat} (hw : s.word source j = none) :
    source.isRep = false := by
  cases source with
  | mem a => rfl
  | lit l => rfl
  | rep v => cases hw

/-- The first `k` frames of a blocking chunk that has more. -/
theorem State.reaches_blockingFrames (off k n : Nat) (as : List Action) (hd : s.OkDraws 0 k)
    (hr : ∀ j, j < k → (s.word s.src (off + j)).isSome = true) :
    (s.running (.sendChunk off (k + (n + 1)) :: as)).Reaches
      ((s.afterFrames s.src off k).running (.sendChunk (off + k) (n + 1) :: as)) := by
  induction k generalizing off s with
  | zero =>
    rw [State.afterFrames_zero, Nat.zero_add]
    exact State.Reaches.refl _
  | succ k ih =>
    have hrest : ∀ j, j < k → ((s.afterFrame s.src off).word s.src (off + 1 + j)).isSome = true := fun j hj => by
      rw [Nat.add_assoc, Nat.add_comm 1 j]
      exact hr (j + 1) (by omega)
    have hfirst := State.reaches_blockingFrame off (k + n) as (hd.mono le_rfl (by omega)) (hr 0 (by omega))
    have htail := ih (s := s.afterFrame s.src off) (off + 1) (State.afterFrame_okDraws _ _ hd) hrest
    rw [show k + 1 + (n + 1) = k + n + 2 by omega, State.afterFrames_succ, show off + (k + 1) = off + 1 + k by omega]
    exact hfirst.trans htail

/-- The first `k` frames of a DMA chunk that has more, from a source that advances. -/
theorem State.reaches_dmaFrames (source : Source) (off k n : Nat) (as : List Action) (hs : source.isRep = false)
    (hd : s.OkDraws 0 k) (hr : ∀ j, j < k → (s.word source (off + j)).isSome = true) :
    (s.waiting source off (k + n) as).Reaches ((s.afterFrames source off k).waiting source (off + k) n as) := by
  induction k generalizing off s with
  | zero =>
    rw [State.afterFrames_zero, Nat.zero_add]
    exact State.Reaches.refl _
  | succ k ih =>
    have hrest : ∀ j, j < k → ((s.afterFrame source off).word source (off + 1 + j)).isSome = true := fun j hj => by
      rw [Nat.add_assoc, Nat.add_comm 1 j]
      exact hr (j + 1) (by omega)
    have hfirst : (s.waiting source off (k + n + 1) as).engineStep =
        (s.afterFrame source off).waiting source (off + 1) (k + n) as := by
      have hstep := State.dmaStep_frame (s := s.waiting source off (k + n + 1) as) rfl (hr 0 (by omega))
        (hd.mono le_rfl (by omega))
      rw [hs] at hstep
      exact State.engineStep_waiting hstep
    have htail := ih (s := s.afterFrame source off) (off + 1) (State.afterFrame_okDraws _ _ hd) hrest
    rw [show k + 1 + n = k + n + 1 by omega, State.afterFrames_succ, show off + (k + 1) = off + 1 + k by omega]
    exact State.Reaches.head hfirst htail

/-- A frame of a blocking chunk whose read is not admitted. -/
theorem State.reaches_blockingFault (off n : Nat) (as : List Action) (hw : s.word s.src off = none) :
    (s.running (.sendChunk off (n + 1) :: as)).Reaches (s.faultedBy .busError) := by
  have hw' : (s.running as).word (s.running as).src off = none := hw
  have hstep : State.sendChunk off (n + 1) (s.running as) = s.faultedBy .busError := by
    rw [State.sendChunk_succ, hw']
    rfl
  exact State.reaches_action (by simp) hstep

/-- A frame of a DMA chunk whose read is not admitted. -/
theorem State.reaches_dmaFault (source : Source) (k n : Nat) (as : List Action) (hw : s.word source k = none) :
    (s.waiting source k (n + 1) as).Reaches (s.faultedBy .busError) :=
  State.Reaches.step (State.engineStep_waiting (State.dmaStep_unreadable rfl hw))

/-! ## The trace only grows (20_memory.md R79) -/

/-- A request adds nothing to the trace: its operation starts, or it is ignored, or it faults (60_exceptions.md R310). -/
theorem State.startRequest_trace (h : s.startRequest = .next t) : t.trace = s.trace := by
  unfold State.startRequest at h
  split at h
  · cases h; rfl
  · cases h; rfl
  · cases h; rfl
  · split at h
    · rw [exec_eq] at h; cases h; rfl
    · cases h; rfl

theorem State.writeReg_trace {off : Nat} {v : Word} (h : s.writeReg off v = .next t) : t.trace = s.trace := by
  unfold State.writeReg at h
  split at h
  · exact State.startRequest_trace (s := { s with op := v }) h
  all_goals (cases h; rfl)

theorem State.hostAccess_trace {a : HostAccess} (h : s.hostAccess a = .next t) : t.trace = s.trace := by
  cases a with
  | read off size =>
    simp only [State.hostAccess] at h
    split_ifs at h <;> cases h <;> rfl
  | write off size v =>
    simp only [State.hostAccess] at h
    split_ifs at h
    · exact State.writeReg_trace (s := { s with resp := .ack }) h
    · cases h; rfl

theorem State.hostMemWrite_trace {addr : Word} {b : Byte} (h : s.hostMemWrite addr b = .next t) :
    t.trace = s.trace := by
  unfold State.hostMemWrite at h
  split at h <;> cases h
  rfl

theorem State.waitPoll_trace (s : State) : ∃ es, s.waitPoll.trace = s.trace ++ es := by
  unfold State.waitPoll
  split
  · exact (kept_idleTurn _).trace
  · exact ⟨[], (List.append_nil _).symm⟩

/-- A reset appends exactly `Reset` (70_reset_and_hazards.md R351). -/
@[simp] theorem State.resetEngine_trace (s : State) : s.resetEngine.trace = s.trace ++ [.reset] := rfl

/-- One item of the plan: host accesses add nothing to the trace, a turn of the agents and a reset append to it. -/
theorem State.input_trace {i : Input} (h : s.input i = .next t) : ∃ es, t.trace = s.trace ++ es := by
  cases i with
  | host a => exact ⟨[], by rw [State.hostAccess_trace h, List.append_nil]⟩
  | memWrite addr b => exact ⟨[], by rw [State.hostMemWrite_trace h, List.append_nil]⟩
  | wait => cases h; exact s.waitPoll_trace
  | engine => cases h; exact (kept_engineStep s).trace
  | stall => cases h; exact ⟨[], (List.append_nil _).symm⟩
  | reset => cases h; exact ⟨[.reset], s.resetEngine_trace⟩

end Sys2Proof.Machine

namespace Sys2Proof

open Machine

/-- Settles O16: the frames before the read are sent in turn, and the turn of the frame that needs it raises BUS_ERROR. -/
theorem readNotAdmitted : Obligations.ReadNotAdmitted := by
  intro s source off n k as hk hr hw hd sent
  obtain ⟨m, rfl⟩ : ∃ m, n = k + (m + 1) := ⟨n - k - 1, by omega⟩
  have hw' : sent.word source (off + k) = none := (State.afterFrames_word source source off k (off + k) s).trans hw
  constructor
  · rintro rfl
    exact (State.reaches_blockingFrames off k m as hd hr).trans (State.reaches_blockingFault (s := sent) _ m as hw')
  · exact (State.reaches_dmaFrames source off k (m + 1) as (Source.isRep_of_word_none hw) hd hr).trans
      (State.reaches_dmaFault (s := sent) source _ m as hw')

/-- Settles O17: the plan's next item or the agents' turn appends to the trace, and a reset appends its event alone. -/
theorem traceAppendOnly : Obligations.TraceAppendOnly := by
  intro s t h
  unfold step at h
  split at h
  · next hi =>
    cases h
    exact (kept_idleTurn s).trace.imp fun _ he => ⟨he, by simp [hi]⟩
  · next i rest hi =>
    by_cases hreset : i = .reset
    · subst hreset
      cases h
      exact ⟨[.reset], State.resetEngine_trace _, fun _ => rfl⟩
    · obtain ⟨es, he⟩ := State.input_trace h
      exact ⟨es, he, by simp [hi, hreset]⟩

end Sys2Proof
end

section
/-! PROOFS. The family 30_encoding.md: which request words are legal (R102, R107, R108), what the bus answers to a host access (R100), and reserved operand fields (R109). -/

namespace Sys2Proof

/-! ## The legal request words (30_encoding.md R102, R107, R108) -/

/-- The request words of the opcode table (R107). -/
def opcodes : List Nat :=
  [0x01, 0x02, 0x10, 0x11, 0x12, 0x13, 0x20, 0x21, 0x30, 0x31, 0x32, 0x33, 0x34, 0x40]

theorem lt_of_mem_opcodes {n : Nat} (h : n ∈ opcodes) : n < 256 :=
  (by decide : ∀ n ∈ opcodes, n < 256) n h

theorem opcodeOf_toNat (v : Word) : (opcodeOf v).toNat = v.toNat % 256 := by
  simp [opcodeOf]

theorem highBitsOf_eq_zero_iff (v : Word) : highBitsOf v = 0 ↔ v.toNat < 256 := by
  have hv := v.isLt
  have hbits : (highBitsOf v).toNat = v.toNat / 256 := by
    rw [highBitsOf, BitVec.extractLsb'_toNat, Nat.shiftRight_eq_div_pow, Nat.mod_eq_of_lt (by omega)]
  rw [← BitVec.toNat_inj, hbits]
  change v.toNat / 256 = 0 ↔ _
  omega

/-- The opcode table has an operation for exactly the listed opcodes. -/
theorem decodeOpcode_isSome_iff (r : Request) :
    (decodeOpcode r).isSome = true ↔ (opcodeOf r.op).toNat ∈ opcodes := by
  unfold decodeOpcode
  split
  case h_15 => simp_all [opcodes]
  all_goals next h => simp [h, opcodes]

theorem decode_ok_iff (r : Request) :
    (∃ i, decode r = .ok i) ↔ highBitsOf r.op = 0 ∧ (decodeOpcode r).isSome = true := by
  unfold decode
  by_cases hhigh : highBitsOf r.op = 0
  · rw [if_neg (not_not.mpr hhigh)]
    cases decodeOpcode r <;> simp [hhigh]
  · rw [if_pos hhigh]
    exact iff_of_false (by simp) fun h => hhigh h.1

/-- A request is legal exactly when its word is one of the opcodes, whatever its operands (R108). -/
theorem decode_ok_iff_mem_opcodes (r : Request) : (∃ i, decode r = .ok i) ↔ r.op.toNat ∈ opcodes := by
  rw [decode_ok_iff, highBitsOf_eq_zero_iff, decodeOpcode_isSome_iff, opcodeOf_toNat]
  constructor
  · rintro ⟨hlt, hmem⟩
    rwa [Nat.mod_eq_of_lt hlt] at hmem
  · intro hmem
    have hlt := lt_of_mem_opcodes hmem
    exact ⟨hlt, by rwa [Nat.mod_eq_of_lt hlt]⟩

end Sys2Proof

namespace Sys2Proof.Machine

variable {s : State}

/-! ## Host accesses (30_encoding.md R100, R101; 60_exceptions.md R310) -/

/-- A step whose plan begins with a host access is that access. -/
theorem step_host {a : HostAccess} {rest : List Input} (h : s.inputs = .host a :: rest) :
    step s = State.hostAccess { s with inputs := rest } a := by
  simp only [step, h, State.input]

@[simp] theorem aligned_iff (off : Nat) (size : AccessSize) :
    aligned off size = true ↔ size = .word ∧ off % 4 = 0 := by
  simp [aligned]

theorem State.hostAccess_read {off : Nat} {size : AccessSize} (hoff : off < 0x40) :
    s.hostAccess (.read off size) = .next (if size = .word ∧ off % 4 = 0
      then { s with resp := .data (s.readReg off) } else { s with resp := .busError }) := by
  simp only [State.hostAccess, if_neg (Nat.not_le.mpr hoff), aligned_iff]
  split <;> rfl

theorem State.hostAccess_write_unaligned {off : Nat} {size : AccessSize} {v : Word} (hoff : off < 0x40)
    (h : ¬(size = .word ∧ off % 4 = 0)) : s.hostAccess (.write off size v) = .next { s with resp := .busError } := by
  simp only [State.hostAccess, if_neg (Nat.not_le.mpr hoff), aligned_iff, if_neg h]

theorem State.hostAccess_write_aligned {off : Nat} {v : Word} (hoff : off < 0x40) (h : off % 4 = 0) :
    s.hostAccess (.write off .word v) = State.writeReg { s with resp := .ack } off v := by
  simp only [State.hostAccess, if_neg (Nat.not_le.mpr hoff), aligned_iff, h, and_self, if_true]

/-- A request word that is no opcode makes an idle engine fault (R108). -/
theorem State.startRequest_illegal (hidle : s.fsm = .idle) (hop : s.op.toNat ∉ opcodes) :
    s.startRequest = .next (s.raiseAt .illegalOp (opcodeOf s.op)) := by
  have hreject : ¬∃ i, decode s.latch.latchedRequest = .ok i :=
    fun hok => hop ((decode_ok_iff_mem_opcodes _).mp hok)
  unfold State.startRequest
  rw [hidle]
  dsimp only
  cases hdecode : decode s.latch.latchedRequest with
  | ok i => exact absurd ⟨i, hdecode⟩ hreject
  | error e => rfl

/-- A request always leads to a next state, and the bus's answer stays. -/
theorem State.startRequest_answers (s : State) : ∃ t, s.startRequest = .next t ∧ t.resp = s.resp := by
  unfold State.startRequest
  split
  case h_4 =>
    split
    · exact ⟨_, exec_eq _ _, rfl⟩
    · exact ⟨_, rfl, rfl⟩
  all_goals exact ⟨_, rfl, rfl⟩

/-- A register write always leads to a next state, and the bus's answer stays. -/
theorem State.writeReg_answers (s : State) (off : Nat) (v : Word) :
    ∃ t, s.writeReg off v = .next t ∧ t.resp = s.resp := by
  unfold State.writeReg
  split
  case h_1 => exact State.startRequest_answers { s with op := v }
  all_goals exact ⟨_, rfl, rfl⟩

/-! ## Faults raised by the checks of an operation (30_encoding.md R109, 60_exceptions.md R315, R316) -/

theorem Plan.eq_faults_of_verdict {p : Plan} {f : ErrCode} (h : p.verdict = .faults f) : p = .faults f := by
  cases p <;> cases h
  rfl

/-- An operation whose checks come to a fault raises it in its first action. -/
theorem exec_faults {i : Instr} {f : ErrCode} (h : verdict s i = .faults f) :
    ∃ b, exec i s = .next b ∧ b.engineStep = s.faultedBy f := by
  have hplan := Plan.eq_faults_of_verdict ((opActions_verdict s i).trans h)
  refine ⟨_, exec_eq i s, ?_⟩
  rw [hplan]
  exact State.engineStep_running (.raise f) [] s (by simp)

/-- A reserved field that is not 0 is the first check that applies, except that SET_DMA_MODE looks for DMA before it. -/
theorem verdict_of_not_wellFormed {i : Instr} (hwf : i.wellFormed = false)
    (hdma : s.cfg.dmaEnabled = true ∨ ∀ w16 inc rsvd, i ≠ .setDmaMode w16 inc rsvd) :
    verdict s i = .faults .reservedOperand := by
  cases i with
  | writeData | transmit | setAddressWindow | init => cases hwf
  | setDmaMode w16 inc rsvd =>
    have henabled : s.cfg.dmaEnabled = true := hdma.resolve_right fun hne => hne w16 inc rsvd rfl
    have hrsvd : rsvd ≠ 0 := beq_eq_false_iff_ne.mp hwf
    simp only [verdict, henabled, Bool.true_eq_false, if_false, if_pos hrsvd]
  | _ =>
    exact if_pos (beq_eq_false_iff_ne.mp hwf)

end Sys2Proof.Machine

namespace Sys2Proof

open Machine

/-- Settles O3: a word that is no opcode does not decode, so the idle engine raises ILLEGAL_OP; an opcode decodes whatever the operands. -/
theorem illegalRequestWords : Obligations.IllegalRequestWords := by
  intro s v rest hidle hinputs
  constructor
  · intro hillegal
    rw [step_host hinputs, State.hostAccess_write_aligned (by decide) rfl]
    exact State.startRequest_illegal (s := { s with inputs := rest, resp := .ack, op := v }) hidle hillegal
  · exact fun hlegal a => (decode_ok_iff_mem_opcodes ⟨v, a.a0, a.a1, a.a2, a.a3⟩).mpr hlegal

/-- Settles O29: the reserved field is the first check that applies, and the operation raises its fault at once. -/
theorem reservedOperands : Obligations.ReservedOperands :=
  fun _ _ hwf hdma => exec_faults (verdict_of_not_wellFormed hwf hdma)

/-- Settles O9: the bus answers data or an acknowledge exactly to 32-bit accesses at a multiple of 4. -/
theorem busErrors : Obligations.BusErrors := by
  intro s off size v rest hoff
  constructor
  · intro hbad
    constructor <;> intro hinputs
    · rw [step_host hinputs, State.hostAccess_read hoff, if_neg hbad]
    · rw [step_host hinputs, State.hostAccess_write_unaligned hoff hbad]
  · rintro rfl halign
    constructor <;> intro hinputs
    · rw [step_host hinputs, State.hostAccess_read hoff, if_pos ⟨rfl, halign⟩]
      exact ⟨_, _, rfl, rfl⟩
    · rw [step_host hinputs, State.hostAccess_write_aligned hoff halign]
      exact State.writeReg_answers _ off v

end Sys2Proof
end

section
/-! PROOFS. The family 40_bus_mode.md: what SET_WORD_WIDTH and SET_DMA_MODE end in under each draw (R140, R141, R142), and that the second of two equal ones changes nothing (R143). -/

namespace Sys2Proof.Machine

variable {s t u b : State} {i : Instr} {d : ReconfigOutcome}

/-! ## The draw that ends a reconfiguration (40_bus_mode.md R141) -/

/-- A draw does not read the sequencer. -/
theorem State.drawReconfig_running (as : List Action) (hdraw : s.drawReconfig = (d, u)) :
    (s.running as).drawReconfig = (d, u.running as) := by
  rcases s.drawReconfig_cases with ⟨d', ds, hds, h⟩ | ⟨hnil, h⟩ <;> rw [h] at hdraw <;> cases hdraw
  · simp only [State.drawReconfig, State.running, hds]
  · simp only [State.drawReconfig, State.running, hnil]

theorem State.reaches_drawReconfig_ok (as : List Action) (hdraw : s.drawReconfig = (.ok, u)) :
    (s.running (.drawReconfig :: as)).Reaches (u.running as) :=
  State.reaches_action (by simp) ((State.reconfigOutcome_of_draw (State.drawReconfig_running as hdraw)).1 rfl)

theorem State.reaches_drawReconfig_fail (as : List Action) (hdraw : s.drawReconfig = (.fail, u)) :
    (s.running (.drawReconfig :: as)).Reaches (u.faultedBy .reconfigFault) :=
  State.reaches_action (by simp) ((State.reconfigOutcome_of_draw (State.drawReconfig_running as hdraw)).2 rfl)

/-- An operation with nothing but its draw and its end left to do ends as the draw says. -/
theorem runs_drawReconfig (hexec : exec i s = .next b) (hb : b.Reaches (t.running [.drawReconfig, .finish .ok]))
    (hdraw : t.drawReconfig = (d, u)) :
    (d = .ok → Runs i s (u.finished .ok)) ∧ (d = .fail → Runs i s (u.faultedBy .reconfigFault)) := by
  constructor <;> rintro rfl
  · exact ⟨b, hexec, (hb.trans (State.reaches_drawReconfig_ok _ hdraw)).trans (State.reaches_finish .ok [] u)⟩
  · exact ⟨b, hexec, hb.trans (State.reaches_drawReconfig_fail _ hdraw)⟩

/-- An operation whose checks come to a fault ends in it. -/
theorem runs_faulted {f : ErrCode} (h : verdict s i = .faults f) : Runs i s (s.faultedBy f) :=
  (exec_faults h).imp fun _ hb => ⟨hb.1, State.Reaches.step hb.2⟩

/-! ## SET_WORD_WIDTH (40_bus_mode.md R140) -/

theorem exec_setWordWidth (w16 : Bool) (s : State) :
    exec (.setWordWidth w16 0) s = .next (s.running [.setWidth (widthOf w16), .finish .ok]) := rfl

theorem State.widthSet_same {w : Width} (h : s.busWidth = w) : s.widthSet w = s := if_pos h

theorem State.widthSet_trace (w : Width) (s : State) :
    (s.widthSet w).trace = s.trace ∨ ∃ e, (s.widthSet w).trace = s.trace ++ [e] := by
  unfold State.widthSet
  split
  · exact .inl rfl
  · exact .inr ⟨_, rfl⟩

/-- The two turns before the draw: the register and the event. -/
theorem State.reaches_widthEvent {w : Width} (as : List Action) (hw : s.busWidth ≠ w) :
    (s.running (.setWidth w :: as)).Reaches
      (State.running (.drawReconfig :: as) { s with busWidth := w, trace := s.trace ++ [.spiWidth w] }) := by
  have hset : doAction (.setWidth w) (s.running as) =
      State.running (.emitWidth w :: .drawReconfig :: as) { s with busWidth := w } := if_neg hw
  exact (State.reaches_action (by simp) hset).trans (State.reaches_action (by simp) rfl)

/-- SET_WORD_WIDTH with a draw, where it needs one, that is OK. -/
theorem runs_setWordWidth (w16 : Bool) (h : s.busWidth ≠ widthOf w16 → s.OkDraws 1 0) :
    Runs (.setWordWidth w16 0) s ((s.widthSet (widthOf w16)).finished .ok) :=
  ⟨_, exec_setWordWidth w16 s, (State.reaches_setWidth _ _ h).trans (State.reaches_finish .ok [] _)⟩

theorem runs_setWordWidth_same {w16 : Bool} (h : s.busWidth = widthOf w16) :
    Runs (.setWordWidth w16 0) s (s.finished .ok) := by
  have hruns := runs_setWordWidth w16 fun hne => absurd h hne
  rwa [State.widthSet_same h] at hruns

/-! ## SET_DMA_MODE (40_bus_mode.md R142) -/

theorem exec_setDmaMode (w16 inc : Bool) (hdma : s.cfg.dmaEnabled = true) :
    exec (.setDmaMode w16 inc 0) s = .next (s.running [.setDmaMode inc (widthOf w16), .finish .ok]) := by
  have hplan : planSetDmaMode s.cfg w16 inc 0 = .runs [.setDmaMode inc (widthOf w16)] := by
    simp [planSetDmaMode, hdma]
  rw [exec_eq, opActions, hplan]
  rfl

theorem State.dmaModeSet_trace (inc : Bool) (w : Width) (s : State) :
    (s.dmaModeSet inc w).trace = s.trace ∨ ∃ e, (s.dmaModeSet inc w).trace = s.trace ++ [e] := by
  unfold State.dmaModeSet
  split
  · exact .inl rfl
  · exact .inr ⟨_, rfl⟩

/-- The three turns before the draw: each register and the event. -/
theorem State.reaches_dmaModeEvent {inc : Bool} {w : Width} (as : List Action) (hdma : s.cfg.dmaEnabled = true)
    (hm : ¬(s.dmaInc = inc ∧ s.dmaWidth = w)) :
    (s.running (.setDmaMode inc w :: as)).Reaches (State.running (.drawReconfig :: as)
      { s with dmaInc := inc, dmaWidth := w, trace := s.trace ++ [.dmaCfg inc w] }) := by
  have hset : doAction (.setDmaMode inc w) (s.running as) =
      State.running (.setDmaWidth w :: .emitDmaCfg inc w :: .drawReconfig :: as) { s with dmaInc := inc } := by
    rcases State.setDmaMode_cases inc w (s.running as) with ⟨hno, -⟩ | ⟨-, hsame, -⟩ | ⟨-, -, h⟩
    · exact absurd (hdma.symm.trans hno) (by simp)
    · exact absurd hsame hm
    · exact h
  -- Nothing guards the second register and the event: two more turns.
  exact (State.reaches_action (by simp) hset).trans ⟨2, rfl⟩

/-- SET_DMA_MODE with DMA and a draw, where it needs one, that is OK. -/
theorem runs_setDmaMode (w16 inc : Bool) (hdma : s.cfg.dmaEnabled = true)
    (h : ¬(s.dmaInc = inc ∧ s.dmaWidth = widthOf w16) → s.OkDraws 1 0) :
    Runs (.setDmaMode w16 inc 0) s ((s.dmaModeSet inc (widthOf w16)).finished .ok) :=
  ⟨_, exec_setDmaMode w16 inc hdma, (State.reaches_setDmaMode _ _ _ hdma h).trans (State.reaches_finish .ok [] _)⟩

theorem runs_setDmaMode_same {w16 inc : Bool} (hdma : s.cfg.dmaEnabled = true)
    (h : s.dmaInc = inc ∧ s.dmaWidth = widthOf w16) : Runs (.setDmaMode w16 inc 0) s (s.finished .ok) := by
  have hruns := runs_setDmaMode w16 inc hdma fun hne => absurd h hne
  rwa [State.dmaModeSet_same _ _ h] at hruns

end Sys2Proof.Machine

namespace Sys2Proof

open Machine

/-- Settles O32: the comparison, the turns up to the draw, the draw's two outcomes, and the check of the reserved field. -/
theorem setWordWidth : Obligations.SetWordWidth := by
  intro s w16 w
  refine ⟨runs_setWordWidth_same, fun hw d u hdraw => ?_, fun rsvd hrsvd => ?_⟩
  · exact runs_drawReconfig (exec_setWordWidth w16 s) (State.reaches_widthEvent _ hw) hdraw
  · exact runs_faulted (if_pos hrsvd)

/-- Settles O33: the check for DMA comes first; with DMA the operation is SET_WORD_WIDTH's with two registers. -/
theorem setDmaMode : Obligations.SetDmaMode := by
  intro s w16 inc w
  refine ⟨fun hno rsvd => runs_faulted (if_pos hno), fun hdma => ⟨runs_setDmaMode_same hdma, ?_, ?_⟩⟩
  · intro hm d u hdraw
    exact runs_drawReconfig (exec_setDmaMode w16 inc hdma) (State.reaches_dmaModeEvent _ hdma hm) hdraw
  · intro rsvd hrsvd
    exact runs_faulted (verdict_of_not_wellFormed (beq_eq_false_iff_ne.mpr hrsvd) (.inl hdma))

/-- Settles O35: the first run leaves the register as asked, so the second finds nothing to change and its end is the state it starts in. -/
theorem reconfigurationIsIdempotent : Obligations.ReconfigurationIsIdempotent := by
  intro s w16 inc hok
  constructor
  · exact ⟨_, runs_setWordWidth w16 fun _ => hok, rfl, rfl, s.widthSet_trace _,
      runs_setWordWidth_same (s.widthSet_busWidth _)⟩
  · intro hdma
    have hdma' : (s.dmaModeSet inc (widthOf w16)).cfg.dmaEnabled = true := by
      rw [(s.dmaModeSet_base inc (widthOf w16)).cfg, hdma]
    exact ⟨_, runs_setDmaMode w16 inc hdma fun _ => hok, rfl, rfl, s.dmaModeSet_trace _ _,
      runs_setDmaMode_same hdma' (s.dmaModeSet_mode _ _)⟩

end Sys2Proof
end

section
/-! PROOFS. The family 42_bulk_transfer.md: the wait for the DMA channel (R185), the steps of the channel (R186), and the chunks and frames of a whole transfer (R188). -/

namespace Sys2Proof.Machine

variable {s t u : State}

/-! ## The wait for the channel and the steps of the channel (42_bulk_transfer.md R185, R186) -/

theorem State.seqStep_waitDma_ready (hfsm : s.fsm = .waitDma) (hdma : s.dma = .ready) :
    s.seqStep = some { s with fsm := .run } := by
  simp only [State.seqStep, hfsm, hdma]

theorem State.seqStep_waitDma_busy (hfsm : s.fsm = .waitDma) (hdma : s.dma ≠ .ready) : s.seqStep = none := by
  cases h : s.dma with
  | ready => exact absurd h hdma
  | active | hung => simp only [State.seqStep, hfsm, h]

/-- A step of the channel that has sent every frame of its chunk. -/
theorem State.dmaStep_sent {source : Source} {k : Nat} (hdma : s.dma = .active source k 0) :
    s.dmaStep = some { s with dma := .ready } := by
  simp only [State.dmaStep, hdma]

/-- A step of the channel whose read is admitted, by the draw. -/
theorem State.dmaStep_of_draw {source : Source} {k n : Nat} {v : Half} {d : XferOutcome}
    (hdma : s.dma = .active source k (n + 1)) (hv : s.word source k = some v)
    (hdraw : (s.emit (.frame s.csN s.dc s.busWidth (frameValue s.busWidth v))).drawXfer = (d, u)) :
    (d = .ok → s.dmaStep = some { u with dma := .active source (if source.isRep then k else k + 1) n }) ∧
    (d = .fail → s.dmaStep = some (u.faultedBy .transferFault)) ∧
    (d = .hang → s.dmaStep = some { u with dma := .hung }) := by
  simp only [State.dmaStep, hdma, hv, hdraw]
  exact ⟨fun e => e ▸ rfl, fun e => e ▸ rfl, fun e => e ▸ rfl⟩

/-! ## The sizes of the chunks of a transfer (42_bulk_transfer.md R188) -/

theorem chunkSizes_length (n : Nat) : (chunkSizes n).length = (n + 65534) / 65535 := by
  rw [chunkSizes, List.length_append, List.length_replicate]
  split
  · rw [List.length_nil]; omega
  · rw [List.length_singleton]; omega

/-- Every chunk but the last is full. -/
theorem eq_of_mem_dropLast_chunkSizes {n k : Nat} (hk : k ∈ (chunkSizes n).dropLast) : k = 65535 := by
  unfold chunkSizes at hk
  split at hk
  · rw [List.append_nil] at hk
    exact List.eq_of_mem_replicate (List.mem_of_mem_dropLast hk)
  · rw [List.dropLast_concat] at hk
    exact List.eq_of_mem_replicate hk

/-- The last chunk is what the full ones before it leave. -/
theorem eq_of_getLast?_chunkSizes {n k : Nat} (hk : (chunkSizes n).getLast? = some k) :
    k = n - 65535 * ((n + 65534) / 65535 - 1) := by
  unfold chunkSizes at hk
  split at hk
  · rw [List.append_nil] at hk
    obtain ⟨hq, rfl⟩ := List.mem_replicate.mp (List.mem_of_getLast? hk)
    omega
  · rw [List.getLast?_concat, Option.some_inj] at hk
    omega

/-! ## The frames of consecutive chunks (42_bulk_transfer.md R182) -/

theorem State.framesFrom_add (source : Source) (off n m : Nat) (s : State) :
    s.framesFrom source off (n + m) = s.framesFrom source off n ++ s.framesFrom source (off + n) m := by
  unfold State.framesFrom
  rw [List.range_add, List.map_append, List.map_map]
  simp only [Function.comp_def, Nat.add_assoc]

/-- A chunk that starts where the last one stopped has the source's next frames, a fixed source included. -/
theorem State.framesFrom_advance_chunk (source : Source) (off n m : Nat) (s : State) :
    s.framesFrom source (advance source off n) m = s.framesFrom source (off + n) m := by
  cases source <;> rfl

theorem framesOf_framesFrom (source : Source) (off n : Nat) (s : State) :
    framesOf (s.framesFrom source off n) = s.framesFrom source off n := by
  unfold framesOf State.framesFrom
  simp

theorem chunksOf_framesFrom (source : Source) (off n : Nat) (s : State) :
    chunksOf (s.framesFrom source off n) = [] := by
  unfold chunksOf State.framesFrom
  simp

/-! ## The chunks and frames a transfer adds to the trace (42_bulk_transfer.md R188) -/

/-- From `s` to `t` the trace grows by events whose chunks have the sizes `ns` and whose frames are `fs`. -/
def Transfers (ns : List Nat) (fs : List Event) (s t : State) : Prop :=
  ∃ es, t.trace = s.trace ++ es ∧ chunksOf es = ns ∧ framesOf es = fs

theorem Transfers.refl (s : State) : Transfers [] [] s s := ⟨[], (List.append_nil _).symm, rfl, rfl⟩

theorem Transfers.trans {ns ms : List Nat} {fs gs : List Event} (h : Transfers ns fs s t)
    (h' : Transfers ms gs t u) : Transfers (ns ++ ms) (fs ++ gs) s u := by
  obtain ⟨es, htrace, rfl, rfl⟩ := h
  obtain ⟨es', htrace', rfl, rfl⟩ := h'
  refine ⟨es ++ es', by rw [htrace', htrace, List.append_assoc], ?_, ?_⟩
  · exact List.filterMap_append
  · exact List.filter_append ..

/-- Setting the DMA mode sends nothing. -/
theorem State.dmaModeSet_transfers (inc : Bool) (w : Width) (s : State) :
    Transfers [] [] s (s.dmaModeSet inc w) := by
  unfold State.dmaModeSet
  split
  · exact Transfers.refl s
  · exact ⟨[.dmaCfg inc w], rfl, rfl, rfl⟩

/-- A chunk is its size and then its frames, by either transport. -/
theorem State.chunkSent_transfers (source : Source) (off n : Nat) (s : State) :
    Transfers [n] (s.framesFrom source off n) s (s.chunkSent source off n) := by
  have hchunks (tr : Transport) : chunksOf (.chunk tr n :: s.framesFrom source off n) = [n] :=
    congrArg (n :: ·) (chunksOf_framesFrom source off n s)
  have hframes := framesOf_framesFrom source off n s
  unfold State.chunkSent
  split
  · exact (s.dmaModeSet_transfers _ _).trans ⟨_, rfl, hchunks .dma, hframes⟩
  · exact ⟨_, rfl, hchunks .blk, hframes⟩

/-- Chunks one after the other send the source's frames in order. -/
theorem State.chunksSent_transfers (source : Source) (ns : List Nat) (off : Nat) (s : State) :
    Transfers ns (s.framesFrom source off ns.sum) s (s.chunksSent source ns off) := by
  induction ns generalizing off s with
  | nil => exact Transfers.refl s
  | cons n ns ih =>
    obtain ⟨hcs, hdc, -, -, hwidth, -⟩ := s.chunkSent_lines source off n
    have hbase := s.chunkSent_base source off n
    have hrest := ih (advance source off n) (s.chunkSent source off n)
    rw [State.framesFrom_advance_chunk,
      State.framesFrom_congr (s := s) source _ _ hbase.cfg hbase.mem hwidth hcs hdc] at hrest
    rw [List.sum_cons, State.framesFrom_add]
    exact (s.chunkSent_transfers source off n).trans hrest

theorem State.transferred_transfers (source : Source) (len : Word) (s : State) :
    Transfers (chunkSizes len.toNat) (s.framesFrom source 0 len.toNat) s (s.transferred source len) := by
  have h := State.chunksSent_transfers source (chunkSizes len.toNat) 0 { s with src := source, rem := 0 }
  rw [chunkSizes_sum] at h
  exact h

theorem State.chunksSent_rem (source : Source) (ns : List Nat) (off : Nat) (s : State) :
    (s.chunksSent source ns off).rem = s.rem := by
  induction ns generalizing off s with
  | nil => rfl
  | cons n ns ih =>
    obtain ⟨-, -, -, hrem, -, -⟩ := s.chunkSent_lines source off n
    exact (ih _ _).trans hrem

theorem State.transferred_rem (source : Source) (len : Word) (s : State) : (s.transferred source len).rem = 0 :=
  State.chunksSent_rem source (chunkSizes len.toNat) 0 { s with src := source, rem := 0 }

end Sys2Proof.Machine

namespace Sys2Proof

open Machine

/-- Settles O20: the wait ends only at a ready channel, and a channel whose reads and draws are good gets ready with every frame sent. -/
theorem dmaWait : Obligations.DmaWait := by
  refine ⟨fun _ _ _ => rfl, fun s hfsm => ⟨State.seqStep_waitDma_busy hfsm, State.seqStep_waitDma_ready hfsm⟩, ?_⟩
  intro s source k n hdraws hreadable
  exact State.reaches_waiting source k n s.mseq hdraws hreadable

/-- Settles O21: by the state of the channel, then by the read of its next frame, then by the draw. -/
theorem dmaChannelStep : Obligations.DmaChannelStep := by
  intro s
  refine ⟨fun hready => ?_, fun hhung => ?_, fun source k n => ⟨State.dmaStep_sent, fun hactive => ⟨?_, ?_⟩⟩⟩
  · simp only [State.dmaStep, hready]
  · simp only [State.dmaStep, hhung]
  · exact State.dmaStep_unreadable hactive
  · exact fun v d u hv hdraw => State.dmaStep_of_draw hactive hv hdraw

/-- Settles O41: the transfer ends in the state its rule gives as a whole, whose chunks have the sizes of `chunkSizes` and whose frames are the source's from the first. -/
theorem chunkLaw : Obligations.ChunkLaw := by
  intro s source len as hdma hdraws hreadable
  obtain ⟨es, htrace, hchunks, hframes⟩ := s.transferred_transfers source len
  have hreaches := State.reaches_transfer source len as hdma (hdraws.mono (Nat.zero_le 1) le_rfl)
    (.inl (hdraws.mono le_rfl (Nat.zero_le _))) hreadable
  refine ⟨_, es, hreaches, rfl, rfl, s.transferred_rem source len, htrace, ?_⟩
  rw [hchunks, hframes]
  refine ⟨chunkSizes_length _, fun _ => eq_of_mem_dropLast_chunkSizes, fun _ => eq_of_getLast?_chunkSizes,
    chunkSizes_sum _, ?_⟩
  simp only [State.framesFrom, Nat.zero_add]

end Sys2Proof
end

section
/-! PROOFS. The family 43_addressing.md: what SET_ADDRESS_WINDOW leaves in the window registers and sends to the controller (R210, R211, R216). -/

namespace Sys2Proof.Machine

variable {s : State}

/-! ## The window registers after each effect -/

/-- The window registers, columns before rows. -/
def State.window (s : State) : Half × Half × Half × Half := (s.winXs, s.winXe, s.winYs, s.winYe)

@[simp] theorem State.widthSet_window (w : Width) (s : State) : (s.widthSet w).window = s.window := by
  unfold State.widthSet; split <;> rfl

@[simp] theorem State.dmaModeSet_window (inc : Bool) (w : Width) (s : State) :
    (s.dmaModeSet inc w).window = s.window := by
  unfold State.dmaModeSet; split <;> rfl

@[simp] theorem State.byteSent_window (d : Bool) (b : Byte) (s : State) : (s.byteSent d b).window = s.window :=
  s.widthSet_window .w8

@[simp] theorem State.chunkSent_window (source : Source) (off n : Nat) (s : State) :
    (s.chunkSent source off n).window = s.window := by
  unfold State.chunkSent
  split
  · exact s.dmaModeSet_window _ _
  · rfl

@[simp] theorem State.chunksSent_window (source : Source) (ns : List Nat) (off : Nat) (s : State) :
    (s.chunksSent source ns off).window = s.window := by
  induction ns generalizing off s with
  | nil => rfl
  | cons n ns ih => exact (ih _ _).trans (s.chunkSent_window source off n)

@[simp] theorem State.bytesWritten_window (l : List Byte) (s : State) : (s.bytesWritten l).window = s.window :=
  State.chunksSent_window (byteSource l) _ 0 _

/-- The window registers are written once, before the transactions, which leave them alone (R210). -/
theorem State.windowSet_window (x0 y0 x1 y1 : Half) (s : State) : (s.windowSet x0 y0 x1 y1).window =
    (x0 + s.cfg.geo.sx, x1 + s.cfg.geo.sx, y0 + s.cfg.geo.sy, y1 + s.cfg.geo.sy) := by
  simp only [State.windowSet, State.byteSent_window, State.bytesWritten_window]
  rfl

/-! ## SET_ADDRESS_WINDOW inside the panel (43_addressing.md R210) -/

theorem exec_setAddressWindow {x0 y0 x1 y1 : Half} (hrot : s.rotSet = true)
    (hvalid : windowValid s.cfg x0 y0 x1 y1 = true) :
    exec (.setAddressWindow x0 y0 x1 y1) s = .next (s.running (windowActions s.cfg x0 y0 x1 y1 ++ [.finish .ok])) := by
  have hplan : planSetAddressWindow s.cfg s.rotSet x0 y0 x1 y1 = .runs (windowActions s.cfg x0 y0 x1 y1) := by
    simp [planSetAddressWindow, planWindow, hrot, hvalid]
  rw [exec_eq, opActions, hplan]
  rfl

theorem runs_setAddressWindow {x0 y0 x1 y1 : Half} (hdma : s.dma = .ready) (hrot : s.rotSet = true)
    (hvalid : windowValid s.cfg x0 y0 x1 y1 = true) (hdraws : s.OkDraws 5 11) :
    Runs (.setAddressWindow x0 y0 x1 y1) s ((s.windowSet x0 y0 x1 y1).finished .ok) :=
  ⟨_, exec_setAddressWindow hrot hvalid,
    (State.reaches_windowActions x0 y0 x1 y1 _ hdma hdraws).trans (State.reaches_finish .ok [] _)⟩

end Sys2Proof.Machine

namespace Sys2Proof

open Machine

/-- Settles O44: the operation ends with the window set, whose registers and bound bytes are the shifted coordinates; a sum does not wrap, since the last column and row of the panel have room for the shift. -/
theorem shiftLaw : Obligations.ShiftLaw := by
  intro s x0 y0 x1 y1 hdma hrot hx hx1 hy hy1 hdraws sx sy
  have hvalid := (windowValid_iff s.cfg x0 y0 x1 y1).mpr ⟨hx, hx1, hy, hy1⟩
  have hxs : (x0 + s.cfg.geo.sx).toNat = x0.toNat + sx := add_shift_x s.cfg (hx.trans_lt hx1)
  have hxe : (x1 + s.cfg.geo.sx).toNat = x1.toNat + sx := add_shift_x s.cfg hx1
  have hys : (y0 + s.cfg.geo.sy).toNat = y0.toNat + sy := add_shift_y s.cfg (hy.trans_lt hy1)
  have hye : (y1 + s.cfg.geo.sy).toNat = y1.toNat + sy := add_shift_y s.cfg hy1
  have hctrl := (s.windowSet_sends x0 y0 x1 y1).ctrl
  rw [bounds_bigEndian, bounds_bigEndian, hxs, hxe, hys, hye] at hctrl
  have hwindow := s.windowSet_window x0 y0 x1 y1
  simp only [State.window, Prod.mk.injEq] at hwindow
  obtain ⟨hwxs, hwxe, hwys, hwye⟩ := hwindow
  exact ⟨_, runs_setAddressWindow hdma hrot hvalid hdraws, rfl, rfl, hctrl,
    (congrArg BitVec.toNat hwxs).trans hxs, (congrArg BitVec.toNat hwxe).trans hxe,
    (congrArg BitVec.toNat hwys).trans hys, (congrArg BitVec.toNat hwye).trans hye⟩

end Sys2Proof
end

section
/-! PROOFS. The family 44_pixel_stream.md: what a fill, a rectangle and a bitmap send to the controller (R243, R245, R251), and the result of a line that has ended (R247). -/

namespace Sys2Proof.Machine

variable {s t : State} {i : Instr}

/-! ## From the checks of an operation to the end of its run -/

/-- An operation whose checks pass ends OK once its actions have run. -/
theorem runs_of_reaches {as : List Action} (hplan : opActions s.cfg s.busWidth s.rotSet s.initDone i = .runs as)
    (h : (s.running (as ++ [.finish .ok])).Reaches (t.running [.finish .ok])) : Runs i s (t.finished .ok) := by
  refine ⟨_, exec_eq i s, ?_⟩
  rw [hplan]
  exact h.trans (State.reaches_finish .ok [] t)

theorem Plan.eq_ends_of_verdict {p : Plan} {r : ResultCode} (h : p.verdict = .rejects r) : p = .ends r := by
  cases p <;> cases h
  rfl

/-- An operation whose checks come to a rejection ends with it, and does nothing else. -/
theorem runs_rejected {r : ResultCode} (h : verdict s i = .rejects r) : Runs i s (s.finished r) := by
  refine ⟨_, exec_eq i s, ?_⟩
  rw [Plan.eq_ends_of_verdict ((opActions_verdict s i).trans h)]
  exact State.reaches_finish r [] s

/-! ## FILL_PIXELS, FILL_RECT and DRAW_IMAGE past their checks (44_pixel_stream.md R242, R244, R250) -/

theorem runs_fillPixels (count : Word) (color : Half) (hdma : s.dma = .ready) (hdraws : s.OkDraws 3 count.toNat) :
    Runs (.fillPixels count color 0) s ((s.pixelsFilled count.toNat color).finished .ok) :=
  runs_of_reaches (as := callFillPixels s.cfg count.toNat color) rfl
    (State.reaches_fillPixels count.toNat color _ count.isLt hdma hdraws)

theorem runs_fillRect {x0 y0 x1 y1 : Half} (color : Half) (hdma : s.dma = .ready) (hrot : s.rotSet = true)
    (hvalid : windowValid s.cfg x0 y0 x1 y1 = true) (hdraws : s.OkDraws 8 (11 + rectCount x0 y0 x1 y1)) :
    Runs (.fillRect x0 y0 x1 y1 color 0) s ((s.rectFilled x0 y0 x1 y1 color).finished .ok) := by
  refine runs_of_reaches ?_ (State.reaches_rect x0 y0 x1 y1 color _ hrot hvalid hdma hdraws)
  rw [opActions, hrot]
  exact planRect_runs s.cfg hvalid

/-- A bitmap that meets every check is drawn. -/
theorem planDrawImage_runs (c : Config) {x y bw bh : Half} {addr : Word} (hw : bw ≠ 0) (hh : bh ≠ 0)
    (hinside : imageInside c x y bw bh = true) (heven : addr.toNat % 2 = 0) :
    planDrawImage c true x y bw bh 16 addr 0 = .runs (imageActions c x y bw bh addr) := by
  have hodd : ¬isOdd addr = true := by rw [isOdd_iff]; omega
  have hpixels : ¬(bw = 0 ∨ bh = 0) := not_or.mpr ⟨hw, hh⟩
  simp only [planDrawImage, ne_eq, not_true_eq_false, if_false, Bool.true_eq_false, Bool.false_eq_true,
    hpixels, hinside, hodd]

theorem runs_drawImage {x y bw bh : Half} {addr : Word} (hdma : s.dma = .ready) (hrot : s.rotSet = true)
    (hw : bw ≠ 0) (hh : bh ≠ 0) (hinside : imageInside s.cfg x y bw bh = true) (heven : addr.toNat % 2 = 0)
    (hreadable : s.Readable .w16 (.mem addr) (bw.toNat * bh.toNat))
    (hdraws : s.OkDraws 8 (11 + bw.toNat * bh.toNat)) :
    Runs (.drawImage x y bw bh 16 addr 0) s ((s.imageDrawn x y bw bh addr).finished .ok) := by
  refine runs_of_reaches ?_ (State.reaches_image x y bw bh addr _ hrot hinside hw hh hdma hdraws hreadable)
  rw [opActions, hrot]
  exact planDrawImage_runs s.cfg hw hh hinside heven

/-! ## The data of a bitmap (44_pixel_stream.md R251) -/

theorem imagePixels_length (c : Config) (m : Memory) (addr : Word) (n : Nat) :
    (imagePixels c m addr n).length = n := by
  simp [imagePixels]

/-- The pixels of a bitmap at exact addresses. -/
theorem imagePixels_eq (c : Config) (m : Memory) (addr : Word) (n : Nat) : imagePixels c m addr n =
    (List.range n).map fun j => memRead c m (BitVec.ofNat 32 (addr.toNat + 2 * j)) .w16 := by
  simp only [imagePixels, BitVec.ofNat_add, BitVec.ofNat_toNat, BitVec.setWidth_eq]

/-! ## The bitmaps that are rejected (44_pixel_stream.md R250) -/

/-- A bitmap with pixels that leaves the panel or has another bit depth is rejected. -/
theorem verdict_drawImage_rejects {x y bw bh : Half} {bpp : Byte} {addr : Word} (hrot : s.rotSet = true)
    (hw : bw ≠ 0) (hh : bh ≠ 0) (h : s.cfg.geo.w.toNat ≤ x.toNat + bw.toNat - 1 ∨
      s.cfg.geo.h.toNat ≤ y.toNat + bh.toNat - 1 ∨ bpp ≠ 16) :
    ∃ r, (r = .rejectBounds ∨ r = .rejectFormat) ∧ verdict s (.drawImage x y bw bh bpp addr 0) = .rejects r := by
  have hpixels : ¬(bw = 0 ∨ bh = 0) := not_or.mpr ⟨hw, hh⟩
  simp only [verdict, ne_eq, not_true_eq_false, if_false, hrot, Bool.true_eq_false, hpixels]
  by_cases hout : s.cfg.geo.w.toNat ≤ x.toNat + bw.toNat - 1 ∨ s.cfg.geo.h.toNat ≤ y.toNat + bh.toNat - 1
  · exact ⟨.rejectBounds, .inl rfl, if_pos hout⟩
  · have hbpp : bpp.toNat ≠ 16 := fun he => (or_assoc.mpr h).elim hout fun hne => hne (BitVec.eq_of_toNat_eq he)
    exact ⟨.rejectFormat, .inr rfl, by rw [if_neg hout, if_pos hbpp]⟩

/-! ## The result an operation can end with (60_exceptions.md R312) -/

/-- The result code a micro-sequence may finish with meets `q`. -/
def finishesWith (q : ResultCode → Bool) : Action → Bool
  | .finish r => q r
  | _ => true

theorem closed_finishesWith (q : ResultCode → Bool) : Closed (finishesWith q) := by
  intro a b _ hspawn
  cases b with
  | finish r => cases a <;> cases hspawn
  | _ => rfl

theorem basic_finishesWith (q : ResultCode → Bool) : Basic (finishesWith q) :=
  ⟨fun _ => rfl, fun _ => rfl, fun _ => rfl, fun _ => rfl, fun _ _ => rfl, rfl, fun _ => rfl⟩

/-- No action but `finish` makes the sequencer idle. -/
theorem doAction_not_idle {a : Action} (ha : ∀ r, a ≠ .finish r) (hs : s.fsm ≠ .idle) :
    (doAction a s).fsm ≠ .idle := by
  cases a
  case finish r => exact absurd rfl (ha r)
  case raise | issueDma => exact Fsm.noConfusion
  case setWidth w =>
    change (s.setWidth w).fsm ≠ .idle
    rcases s.setWidth_cases w with ⟨-, h⟩ | ⟨-, h⟩ <;> rw [h] <;> exact hs
  case setDmaMode inc w =>
    change (s.setDmaMode inc w).fsm ≠ .idle
    rcases s.setDmaMode_cases inc w with ⟨-, h⟩ | ⟨-, -, h⟩ | ⟨-, -, h⟩ <;> rw [h]
    · exact Fsm.noConfusion
    · exact hs
    · exact hs
  case drawReconfig =>
    change s.reconfigOutcome.fsm ≠ .idle
    obtain ⟨rs, ix, h | h⟩ := s.reconfigOutcome_cases <;> rw [h]
    · exact hs
    · exact Fsm.noConfusion
  case drawXfer =>
    change s.frameOutcome.fsm ≠ .idle
    obtain ⟨xs, ix, h | h | h⟩ := s.frameOutcome_cases <;> rw [h]
    · exact hs
    · exact Fsm.noConfusion
    · exact hs
  case sendChunk off n =>
    change (s.sendChunk off n).fsm ≠ .idle
    rcases sendChunk_cases off n s with h | h | ⟨v, -, m, -, h⟩ <;> rw [h]
    · exact hs
    · exact Fsm.noConfusion
    · exact hs
  case checkReady =>
    unfold doAction
    dsimp only
    split
    · exact hs
    · exact Fsm.noConfusion
  all_goals exact hs

/-- A step of the channel makes no sequencer idle, and with an idle one it keeps the result. -/
theorem dmaStep_idle (h : s.dmaStep = some t) (hidle : t.fsm = .idle) : s.fsm = .idle ∧ t.result = s.result := by
  rcases dmaStep_cases h with ⟨_, _, -, rfl⟩ | ⟨_, _, _, -, ⟨-, rfl⟩ | ⟨_, _, _, -, rfl | rfl | rfl⟩⟩
  · exact ⟨hidle, rfl⟩
  · cases hidle
  · exact ⟨hidle, rfl⟩
  · cases hidle
  · exact ⟨hidle, rfl⟩

/-- A turn of the agents that leaves the sequencer idle found it so, or took the action `finish`. -/
theorem engineStep_idle (hidle : s.engineStep.fsm = .idle) :
    (s.fsm = .idle ∧ s.engineStep.result = s.result) ∨
    ∃ r rest, s.mseq = .finish r :: rest ∧ s.engineStep.result = r := by
  rcases engineStep_cases s with h | ⟨-, h⟩ | ⟨-, -, h⟩
  · rcases seqStep_cases h with ⟨-, -, e⟩ | ⟨hrun, a, rest, hmseq, -, e⟩ <;> rw [e] at hidle ⊢
    · cases hidle
    · by_cases ha : ∃ r, a = .finish r
      · obtain ⟨r, rfl⟩ := ha
        exact .inr ⟨r, rest, hmseq, rfl⟩
      · have hbusy : State.fsm { s with mseq := rest } ≠ .idle := by simp [hrun]
        exact absurd hidle (doAction_not_idle (not_exists.mp ha) hbusy)
  · exact .inl (dmaStep_idle h hidle)
  · rw [h] at hidle ⊢
    exact .inl ⟨hidle, rfl⟩

/-- A turn of the agents keeps the micro-sequence in a closed class. -/
theorem engineStep_all {p : Action → Bool} (hp : Closed p) (hs : s.mseq.all p = true) :
    s.engineStep.mseq.all p = true :=
  (engineRun_field p hp (fun _ => ()) (fun _ _ _ => rfl) (fun _ _ => rfl) (fun _ => rfl) (fun _ _ _ => rfl) 1 s hs).2

/-- A run that ends idle has one of the results its micro-sequence may finish with. -/
theorem engineRun_idle_result {q : ResultCode → Bool} (n : Nat) (s : State)
    (hs : s.mseq.all (finishesWith q) = true) (h : s.fsm = .idle → q s.result = true)
    (hidle : (s.engineRun n).fsm = .idle) : q (s.engineRun n).result = true := by
  induction n generalizing s with
  | zero => exact h hidle
  | succ n ih =>
    refine ih s.engineStep (engineStep_all (closed_finishesWith q) hs) (fun hstep => ?_) hidle
    rcases engineStep_idle hstep with ⟨hbefore, hresult⟩ | ⟨r, rest, hmseq, hresult⟩
    · exact hresult ▸ h hbefore
    · rw [hmseq, List.all_cons, Bool.and_eq_true] at hs
      exact hresult ▸ hs.1

/-! ## The results of DRAW_LINE (44_pixel_stream.md R246) -/

/-- A rectangle ends OK or REJECT_BOUNDS. -/
theorem planRect_finishesWith {q : ResultCode → Bool} (hok : q .ok = true) (hreject : q .rejectBounds = true)
    (c : Config) (x0 y0 x1 y1 color : Half) :
    (planRect c x0 y0 x1 y1 color).asRequest.all (finishesWith q) = true := by
  have hfill := all_fill (p := finishesWith q) (fun _ _ => rfl) (fun _ _ => rfl) rfl (fun _ => rfl)
  have hruns := (basic_finishesWith q).rect (fun _ => ⟨rfl, rfl, rfl, rfl⟩) hfill c x0 y0 x1 y1 color
  cases hplan : planRect c x0 y0 x1 y1 color with
  | faults f => rfl
  | ends r =>
    have hr := congrArg Plan.verdict hplan
    rw [planRect_verdict] at hr
    unfold rectVerdict at hr
    split_ifs at hr <;> cases hr
    simp [Plan.asRequest, finishesWith, hreject]
  | runs as => simp [Plan.asRequest, hruns as hplan, finishesWith, hok]

/-- The result of a line that has ended says whether both coordinates of its ends differ. -/
theorem planLine_finishesWith (c : Config) (x0 y0 x1 y1 color : Half) :
    (planLine c x0 y0 x1 y1 color).asRequest.all
      (finishesWith fun r => decide (r = .notHandled ↔ x0 ≠ x1 ∧ y0 ≠ y1)) = true := by
  unfold planLine
  split
  · next hy => exact planRect_finishesWith (by simp [hy]) (by simp [hy]) _ _ _ _ _ _
  · split
    · next hx => exact planRect_finishesWith (by simp [hx]) (by simp [hx]) _ _ _ _ _ _
    · next hy hx => simp [Plan.asRequest, finishesWith, hx, hy]

end Sys2Proof.Machine

namespace Sys2Proof

open Machine

/-- Settles O47: the fill ends in the state its rule gives as a whole, and what that adds to the wire is the pixels as data. -/
theorem fillLaw : Obligations.FillLaw := by
  intro s count color closed b ds hdma hdraws hopen
  exact ⟨_, runs_fillPixels count color hdma hdraws, rfl, rfl,
    (s.pixelsFilled_sends count.toNat color count.isLt).ctrl_data hopen, pixelStream_pixelData _⟩

/-- Settles O49: the rectangle ends in the state its rule gives as a whole, which sends the window and the pixels in three transactions. -/
theorem fillRectLaw : Obligations.FillRectLaw := by
  intro s x0 y0 x1 y1 color hdma hrot hx hx1 hy hy1 n hdraws
  have hvalid := (windowValid_iff s.cfg x0 y0 x1 y1).mpr ⟨hx, hx1, hy, hy1⟩
  have hctrl := (s.rectFilled_sends x0 y0 x1 y1 color (rectCount_le s.cfg hvalid).2).ctrl
  refine ⟨_, pixelData (List.replicate n color), runs_fillRect color hdma hrot hvalid hdraws, rfl, rfl, hctrl, ?_,
    pixelStream_pixelData _⟩
  rw [pixelData_length, List.length_replicate]

/-- Settles O51: whatever its micro-sequence may finish with is NOT_HANDLED exactly for a diagonal line, and only `finish` makes the sequencer idle. -/
theorem lineLaw : Obligations.LineLaw := by
  intro s b x0 y0 x1 y1 color n hrot hexec hidle
  rw [exec_eq, opActions, hrot] at hexec
  cases hexec
  have hfinishes := planLine_finishesWith s.cfg x0 y0 x1 y1 color
  exact of_decide_eq_true (engineRun_idle_result n _ hfinishes Fsm.noConfusion hidle)

/-- Settles O54: a bitmap that passes its checks sends its window, whose sums do not wrap, and its pixels in three transactions; a rejection is the whole of its operation. -/
theorem blitLaw : Obligations.BlitLaw := by
  intro s x y bw bh bpp addr
  constructor
  · rintro hdma hrot hw hh rfl hx hy heven hreadable hdraws
    have hinside := (imageInside_iff s.cfg x y bw bh).mpr ⟨hx, hy⟩
    have hcount := imageCount_lt s.cfg hinside hw hh
    obtain ⟨hxl, hxw, hyl, hyh⟩ := (windowValid_iff _ _ _ _ _).mp (imageWindow_valid s.cfg hinside hw hh)
    have hctrl := (s.imageDrawn_sends x y bw bh addr hcount hreadable).ctrl
    simp only [List.map_cons, List.map_nil, bounds_bigEndian, add_shift_x s.cfg (hxl.trans_lt hxw),
      add_shift_x s.cfg hxw, add_shift_y s.cfg (hyl.trans_lt hyh), add_shift_y s.cfg hyh,
      lastCoord_toNat hx s.cfg.geo.w.isLt.le, lastCoord_toNat hy s.cfg.geo.h.isLt.le] at hctrl
    refine ⟨_, _, runs_drawImage hdma hrot hw hh hinside heven hreadable hdraws, rfl, rfl, hctrl, ?_, ?_⟩
    · rw [pixelData_length, imagePixels_length]
    · rw [pixelStream_pixelData, imagePixels_eq]
  · intro hrot hw hh hbad
    obtain ⟨r, hr, hverdict⟩ := verdict_drawImage_rejects (addr := addr) hrot hw hh hbad
    exact ⟨_, runs_rejected hverdict, rfl, rfl, hr⟩

end Sys2Proof
end

section
/-! PROOFS. The family 45_init.md: the commands an INIT that ends OK sends, and the reset pulse before them (R294). -/

namespace Sys2Proof.Machine

variable {s : State}

/-! ## The draws of INIT (45_init.md R290) -/

/-- The reconfigurations INIT draws at most: two for each table entry, and 14. -/
theorem initReconfigs_eq (c : Config) :
    initReconfigs c = 14 + 2 * (c.initTableA.length + c.initTableB.length) := by
  unfold initReconfigs
  omega

/-- The frames INIT sends: those of both tables, a pixel each for the panel, and 17. -/
theorem initFrames_eq (c : Config) : initFrames c =
    17 + ((c.initTableA ++ c.initTableB).map fun e => 1 + e.2.length).sum + c.geo.w.toNat * c.geo.h.toNat := by
  unfold initFrames tableFrames
  rw [List.map_append, List.sum_append, rectCount_screen]
  omega

/-- INIT past its check ends OK in the state its rule gives as a whole. -/
theorem runs_init (hdma : s.dma = .ready) (hinit : s.initDone = false)
    (hdraws : s.OkDraws (initReconfigs s.cfg) (initFrames s.cfg)) : Runs .init s (s.initialized.finished .ok) := by
  refine runs_of_reaches ?_ (State.reaches_init _ hdma hdraws)
  rw [opActions, hinit]
  rfl

/-! ## What the controller receives (20_memory.md R83, 45_init.md R291, R294) -/

theorem keepsView_iff (e : Event) : keepsView e = true ↔ e ≠ .rstN false ∧ e ≠ .reset := by
  cases e with
  | rstN level => cases level <;> simp [keepsView]
  | _ => simp [keepsView]

/-- The pulse closes the open transaction and sends nothing. -/
@[simp] theorem State.pulsed_ctrl (s : State) : ctrl s.pulsed.trace = ctrl s.trace := by
  have hbefore : ctrl (s.trace ++ [.csN true]) = ctrl s.trace := by
    rw [ctrl_eq, viewFrom_append]
    rfl
  have hpulse := ctrl_close (s.trace ++ [.csN true]) [.delay 1, .rstN true, .delay 120] (.rstN false) rfl
  rw [List.append_assoc, hbefore] at hpulse
  exact hpulse.trans (List.append_nil _)

/-- The controller view after INIT: its transactions follow those from before the pulse. -/
theorem State.initialized_ctrl (s : State) :
    ctrl s.initialized.trace = ctrl s.trace ++ (initTxns s.cfg).map fun p => Txn.cmd p.1 p.2 := by
  rw [s.initialized_sends.ctrl, s.pulsed_ctrl]

/-- The transactions of INIT in their order, table by table. -/
theorem initTxns_map (c : Config) : (initTxns c).map (fun p => Txn.cmd p.1 p.2) =
    c.initTableA.map (fun e => .cmd e.1 e.2) ++ [.cmd c.cmdMadctl [c.rotPattern c.rotationCfg]] ++
      c.initTableB.map (fun e => .cmd e.1 e.2) ++
      [.cmd c.cmdInvon [], .cmd c.cmdSlpout [], .cmd c.cmdNoron [],
       .cmd c.cmdCaset (bounds c.geo.sx (c.geo.w - 1 + c.geo.sx)),
       .cmd c.cmdRaset (bounds c.geo.sy (c.geo.h - 1 + c.geo.sy)),
       .cmd c.cmdRamwr (pixelData (List.replicate (c.geo.w.toNat * c.geo.h.toNat) c.bgColor)),
       .cmd c.cmdDispon []] := by
  simp only [initTxns, List.map_append, List.map_cons, List.map_nil]

end Sys2Proof.Machine

namespace Sys2Proof

open Machine

/-- Settles O56: after the pulse INIT sends its transactions by events that close none, so no reset level is among them; the clear carries the panel's pixels as data. -/
theorem commandOrder : Obligations.CommandOrder := by
  intro s r x hdma hinit hr hx hdraws c
  rw [← initReconfigs_eq] at hr
  rw [← initFrames_eq] at hx
  obtain ⟨es, htrace, hkeeps, -⟩ := s.initialized_sends
  have hctrl := s.initialized_ctrl
  rw [initTxns_map] at hctrl
  simp only [← List.append_assoc] at hctrl
  refine ⟨_, es, _, runs_init hdma hinit (hdraws.mono hr hx), rfl, rfl, htrace,
    fun e he => (keepsView_iff e).mp (List.all_eq_true.mp hkeeps e he), hctrl, ?_, pixelStream_pixelData _⟩
  rw [pixelData_length, List.length_replicate]

end Sys2Proof
end

section
/-! PROOFS. The family 60_exceptions.md: what taking a fault writes (R315), and the fault state, which only a reset leaves (R317). -/

namespace Sys2Proof.Machine

variable {s t u : State}

/-! ## The STATUS bits of the sequencer state (30_encoding.md R104) -/

theorem State.statusWord_busy (s : State) : s.statusWord.getLsbD 0 = s.busy :=
  BitVec.getLsbD_append.trans (by simp)

theorem State.statusWord_isFaulted (s : State) : s.statusWord.getLsbD 1 = s.isFaulted :=
  BitVec.getLsbD_append.trans (BitVec.getLsbD_append.trans (by simp))

/-! ## A faulted engine has no step (60_exceptions.md R317) -/

theorem State.busy_of_faulted (hf : s.fsm = .faulted) : s.busy = false := by
  simp only [State.busy, hf]

theorem State.seqStep_faulted (hf : s.fsm = .faulted) : s.seqStep = none := by
  simp only [State.seqStep, hf]

theorem State.dmaStep_ready (hd : s.dma = .ready) : s.dmaStep = none := by
  simp only [State.dmaStep, hd]

theorem State.engineStep_stuck (hs : s.seqStep = none) (hd : s.dmaStep = none) : s.engineStep = s := by
  simp only [State.engineStep, hs, hd]

theorem State.idleTurn_stuck (hs : s.seqStep = none) (hd : s.dmaStep = none) : s.idleTurn = s := by
  simp only [State.idleTurn, hs, hd]

/-! ## Steps that touch only what the host and its bus own -/

/-- `t` differs from `s` at most in the request registers, memory, the plan and the bus's answer. -/
def State.HostChange (s t : State) : Prop :=
  ∃ op arg mem inputs resp, t = { s with op := op, arg := arg, mem := mem, inputs := inputs, resp := resp }

theorem State.HostChange.refl (s : State) : s.HostChange s :=
  ⟨s.op, s.arg, s.mem, s.inputs, s.resp, rfl⟩

theorem State.HostChange.trans (h : s.HostChange t) (h' : t.HostChange u) : s.HostChange u := by
  obtain ⟨op, arg, mem, inputs, resp, rfl⟩ := h
  obtain ⟨op', arg', mem', inputs', resp', rfl⟩ := h'
  exact ⟨op', arg', mem', inputs', resp', rfl⟩

theorem State.hostChange_op (s : State) (v : Word) : s.HostChange { s with op := v } :=
  ⟨v, s.arg, s.mem, s.inputs, s.resp, rfl⟩

theorem State.hostChange_arg (s : State) (a : Args) : s.HostChange { s with arg := a } :=
  ⟨s.op, a, s.mem, s.inputs, s.resp, rfl⟩

theorem State.hostChange_mem (s : State) (m : Memory) : s.HostChange { s with mem := m } :=
  ⟨s.op, s.arg, m, s.inputs, s.resp, rfl⟩

theorem State.hostChange_inputs (s : State) (is : List Input) : s.HostChange { s with inputs := is } :=
  ⟨s.op, s.arg, s.mem, is, s.resp, rfl⟩

theorem State.hostChange_resp (s : State) (r : HostResp) : s.HostChange { s with resp := r } :=
  ⟨s.op, s.arg, s.mem, s.inputs, r, rfl⟩

/-- A request to a faulted engine is ignored (R310, R317). -/
theorem State.startRequest_faulted (hf : s.fsm = .faulted) : s.startRequest = .next s := by
  simp only [State.startRequest, hf]

/-- A register write to a faulted engine stores the value at most. -/
theorem State.writeReg_faulted {off : Nat} {v : Word} (hf : s.fsm = .faulted) (h : s.writeReg off v = .next t) :
    s.HostChange t := by
  unfold State.writeReg at h
  split at h
  case h_1 =>
    rw [State.startRequest_faulted (s := { s with op := v }) hf] at h
    cases h
    exact s.hostChange_op v
  case h_6 => cases h; exact .refl s
  all_goals (cases h; exact s.hostChange_arg _)

theorem State.hostAccess_faulted {a : HostAccess} (hf : s.fsm = .faulted) (h : s.hostAccess a = .next t) :
    s.HostChange t := by
  cases a with
  | read off size =>
    simp only [State.hostAccess] at h
    split_ifs at h <;> cases h <;> exact s.hostChange_resp _
  | write off size v =>
    simp only [State.hostAccess] at h
    split_ifs at h
    · exact (s.hostChange_resp .ack).trans (State.writeReg_faulted hf h)
    · cases h; exact s.hostChange_resp _

theorem State.hostMemWrite_hostChange {addr : Word} {b : Byte} (h : s.hostMemWrite addr b = .next t) :
    s.HostChange t := by
  unfold State.hostMemWrite at h
  split at h <;> cases h
  exact s.hostChange_mem _

/-- WAIT ends at once on a faulted engine, for BUSY is 0 (30_encoding.md R113). -/
theorem State.waitPoll_faulted (hf : s.fsm = .faulted) : s.waitPoll = { s with resp := .data s.statusWord } := by
  simp [State.waitPoll, State.busy_of_faulted hf]

/-- One item of the plan but a reset, on a faulted engine. -/
theorem State.input_faulted {i : Input} (hf : s.fsm = .faulted) (hd : s.dma = .ready) (hi : i ≠ .reset)
    (h : s.input i = .next t) : s.HostChange t := by
  cases i with
  | host a => exact State.hostAccess_faulted hf h
  | memWrite addr b => exact State.hostMemWrite_hostChange h
  | wait =>
    cases h
    rw [State.waitPoll_faulted hf]
    exact s.hostChange_resp _
  | engine =>
    cases h
    rw [State.engineStep_stuck (State.seqStep_faulted hf) (State.dmaStep_ready hd)]
    exact .refl s
  | stall => cases h; exact .refl s
  | reset => exact absurd rfl hi

/-- Every step of a faulted engine but a reset: the agents have none, and the host's leaves the engine alone. -/
theorem step_faulted (hf : s.fsm = .faulted) (hd : s.dma = .ready) (hi : s.inputs.head? ≠ some .reset)
    (h : step s = .next t) : s.HostChange t := by
  unfold step at h
  split at h
  · cases h
    rw [State.idleTurn_stuck (State.seqStep_faulted hf) (State.dmaStep_ready hd)]
    exact .refl s
  · next i rest hinputs =>
    have hreset : i ≠ .reset := fun e => hi (by rw [hinputs, e]; rfl)
    exact (s.hostChange_inputs rest).trans (State.input_faulted hf hd hreset h)

/-- A step whose plan begins with a reset is that reset, in any state. -/
theorem step_reset {rest : List Input} (h : s.inputs = .reset :: rest) :
    step s = .next (State.resetEngine { s with inputs := rest }) := by
  simp only [step, h, State.input]

end Sys2Proof.Machine

namespace Sys2Proof

open Machine

/-- Settles O25: neither agent has a step in FAULTED and a request is ignored, so only a reset reaches the engine's own fields. -/
theorem faultIsSticky : Obligations.FaultIsSticky := by
  intro s t hf hd hstep
  refine ⟨fun hi => step_faulted hf hd hi hstep, fun hi => ?_⟩
  obtain ⟨rest, hinputs⟩ := List.head?_eq_some_iff.mp hi
  rw [step_reset hinputs] at hstep
  cases hstep
  exact ⟨rfl, rfl⟩

/-- Settles O24: the registers are those of `raiseAt`, and BUSY and FAULTED follow from its sequencer state. -/
theorem faultEntry : Obligations.FaultEntry := by
  intro s f o
  refine ⟨rfl, rfl, ?_, ?_⟩
  · rw [State.statusWord_busy, State.busy_of_faulted (s.raiseAt_fsm f o)]
  · rw [State.statusWord_isFaulted, State.isFaulted, State.raiseAt_fsm, decide_eq_true rfl]

end Sys2Proof
end

section
/-! PROOFS. The family 70_reset_and_hazards.md: the values of the reset table (R350), and what a reset does to the controller view (R352). -/

namespace Sys2Proof.Machine

/-! ## The values after reset (70_reset_and_hazards.md R350) -/

theorem State.statusWord_eq_zero {s : State} (hfsm : s.fsm = .idle) (hresult : s.result = .ok)
    (hrot : s.rotSet = false) (hinit : s.initDone = false) : s.statusWord = 0 := by
  rw [State.statusWord, State.isFaulted, State.busy, hfsm, hresult, hrot, hinit]
  rfl

theorem State.errWord_eq_zero {s : State} (hop : s.errOp = 0) (hcode : s.errCode = .none) : s.errWord = 0 := by
  rw [State.errWord, hop, hcode]
  rfl

/-- `MODE` with every field it shows at its reset value: the DMA fields read 0 without DMA (30_encoding.md R104, 10_state.md R41). -/
theorem State.modeWord_of_reset {s : State} (hrot : s.rot = 0) (hwidth : s.busWidth = .w8) (hinc : s.dmaInc = true)
    (hdma : s.dmaWidth = .w8) : s.modeWord = if s.cfg.dmaEnabled then 0x0A else 0 := by
  rw [State.modeWord, hrot, hwidth, hinc, hdma]
  cases s.cfg.dmaEnabled <;> rfl

/-- Every row of the table, whatever stands in the fields that reset does not set. -/
theorem atReset_resetWith (c : Config) (trace : List Event) (mem : Memory) (inputs : List Input)
    (reconfigs : List ReconfigOutcome) (xfers : List XferOutcome) (ix : Nat) (resp : HostResp) :
    ({ State.resetWith c with
      trace := trace, mem := mem, inputs := inputs, reconfigDraws := reconfigs, xferDraws := xfers, freeIx := ix,
      resp := resp } : State).AtReset where
  request := ⟨rfl, rfl⟩
  latched := ⟨rfl, rfl⟩
  status := State.statusWord_eq_zero rfl rfl rfl rfl
  err := State.errWord_eq_zero rfl rfl
  sequencer := ⟨rfl, rfl⟩
  width := rfl
  dmaMode := ⟨rfl, rfl⟩
  orientation := ⟨rfl, rfl⟩
  initDone := rfl
  lines := ⟨rfl, rfl, rfl⟩
  window := ⟨rfl, rfl, rfl, rfl⟩
  fill := ⟨fun i => Vector.getElem_replicate i.isLt, rfl⟩
  transfer := ⟨rfl, rfl, rfl⟩
  channel := rfl
  mode := State.modeWord_of_reset rfl rfl rfl rfl

/-! ## Events that put no byte on the wire, and events that begin a transaction (20_memory.md R82, R83) -/

theorem eventBytes_eq_nil {e : Event} (h : ∀ d w v, e ≠ .frame false d w v) : eventBytes e = [] := by
  cases e with
  | frame csN d w v =>
    cases csN with
    | false => exact absurd rfl (h d w v)
    | true => rfl
  | _ => rfl

/-- An event that closes nothing and puts no byte on the wire leaves the view as it is. -/
theorem View.event_silent (v : View) {e : Event} (hkeeps : keepsView e = true) (hbytes : eventBytes e = []) :
    v.event e = v := by
  rw [View.event_keeps v e hkeeps, hbytes, List.foldl_nil]

/-- An event that closes nothing and puts no byte on the wire makes no difference to the view. -/
theorem ctrl_silent (a b : List Event) {e : Event} (hkeeps : keepsView e = true) (hbytes : eventBytes e = []) :
    ctrl (a ++ e :: b) = ctrl (a ++ b) := by
  have hcons : ∀ v, viewFrom v (e :: b) = viewFrom v b := fun v =>
    congrArg (viewFrom · b) (v.event_silent hkeeps hbytes)
  rw [ctrl_eq, ctrl_eq, viewFrom_append, viewFrom_append, hcons]

/-- The next transaction, if any, begins with this event: it closes the one in progress, or carries a command. -/
def beginsTxn (e : Event) : Prop := e = .reset ∨ e = .rstN false ∨ ∃ w v, e = .frame false false w v

/-- To an event that begins a transaction it is all the same whether the one in progress is closed before it. -/
theorem View.close_event (v : View) {e : Event} (h : beginsTxn e) : v.close.event e = v.event e := by
  have hclosed : v.close.close = v.close := by simp [View.close]
  have hcmd : ∀ b, v.close.byte (false, b) = v.byte (false, b) := fun b => by
    simp [View.byte, View.close]
  obtain rfl | rfl | ⟨w, x, rfl⟩ := h
  · exact hclosed
  · exact hclosed
  · cases w <;> simp only [View.event, eventBytes, frameBytes, List.map_cons, List.foldl_cons, hcmd]

/-- What begins with such an event, or is empty, adds a view of its own to what came before. -/
theorem viewFrom_all_of_begins (v : View) {b : List Event} (h : ∀ e, b.head? = some e → beginsTxn e) :
    (viewFrom v b).all = v.all ++ ctrl b := by
  cases b with
  | nil => exact (List.append_nil _).symm
  | cons e b =>
    have hclose : viewFrom v (e :: b) = viewFrom v.close (e :: b) :=
      congrArg (viewFrom · b) (v.close_event (h e rfl)).symm
    rw [hclose]
    exact viewFrom_all_closed _ _

/-! ## Data with no command before it (20_memory.md R83) -/

theorem View.foldl_data_orphan (c : List Txn) (ds l : List Byte) :
    (l.map fun x => (true, x)).foldl View.byte ⟨c, some (.orphan ds)⟩ = ⟨c, some (.orphan (ds ++ l))⟩ := by
  induction l generalizing ds with
  | nil => simp
  | cons x l ih =>
    rw [List.map_cons, List.foldl_cons]
    exact (ih (ds ++ [x])).trans (by rw [List.append_assoc, List.singleton_append])

/-- Data where nothing is open become an orphan list. -/
theorem View.foldl_data_none (c : List Txn) {l : List Byte} (h : l ≠ []) :
    (l.map fun x => (true, x)).foldl View.byte ⟨c, none⟩ = ⟨c, some (.orphan l)⟩ := by
  cases l with
  | nil => exact absurd rfl h
  | cons x l => exact View.foldl_data_orphan c [x] l

/-- An event that is no command frame puts only data bytes on the wire. -/
theorem eventBytes_data {e : Event} (h : ∀ w v, e ≠ .frame false false w v) : ∀ p ∈ eventBytes e, p.1 = true := by
  cases e with
  | frame csN d w v =>
    cases csN with
    | true => simp [eventBytes]
    | false =>
      cases d with
      | false => exact absurd rfl (h w v)
      | true => simp [eventBytes]
  | _ => simp [eventBytes]

theorem wireBytes_data {es : List Event} (h : ∀ e ∈ es, ∀ w v, e ≠ .frame false false w v) :
    wireBytes es = ((wireBytes es).map Prod.snd).map fun x => (true, x) := by
  have hdata : ∀ p ∈ wireBytes es, p.1 = true := fun p hp => by
    obtain ⟨e, he, hp⟩ := List.mem_flatMap.mp hp
    exact eventBytes_data (h e he) p hp
  have hpair : ∀ p ∈ wireBytes es, (true, p.2) = p := fun p hp => Prod.ext (hdata p hp).symm rfl
  exact (List.map_map.trans ((List.map_congr_left hpair).trans (List.map_id _))).symm

/-- Events that put data alone on the wire, before the end or an event that begins a transaction, are an orphan list. -/
theorem ctrl_orphan {data b : List Event} {l : List Byte} (hkeeps : data.all keepsView = true)
    (hdata : wireBytes data = l.map fun x => (true, x)) (hb : ∀ e, b.head? = some e → beginsTxn e) (hne : l ≠ []) :
    ctrl (data ++ b) = .orphan l :: ctrl b := by
  have hview : viewFrom ⟨[], none⟩ data = ⟨[], some (.orphan l)⟩ := by
    rw [viewFrom_bytes _ _ hkeeps, hdata, View.foldl_data_none [] hne]
  rw [ctrl_eq, viewFrom_append, hview, viewFrom_all_of_begins _ hb]
  rfl

/-! ## Bytes sent as frames of 8 bits (20_memory.md R76) -/

@[simp] theorem frameBytes_w8 (b : Byte) : frameBytes .w8 (b.setWidth 16) = [b] := by
  rw [frameBytes, BitVec.extractLsb'_setWidth_of_le (by decide), BitVec.extractLsb'_eq_self]

/-- The frames of 8 bits that carry these data to a selected chip. -/
def dataFrames (ds : List Byte) : List Event := ds.map fun d => .frame false true .w8 (d.setWidth 16)

theorem wireBytes_dataFrames (ds : List Byte) : wireBytes (dataFrames ds) = ds.map fun d => (true, d) := by
  rw [wireBytes, dataFrames, List.flatMap_map, List.map_eq_flatMap]
  simp only [eventBytes, frameBytes_w8, List.map_cons, List.map_nil]

theorem dataFrames_keep (ds : List Byte) : (dataFrames ds).all keepsView = true := by
  simp [dataFrames, keepsView]

/-- A command frame and the data frames after it are one transaction. -/
theorem ctrl_command (b : Byte) (es : List Byte) :
    ctrl (.frame false false .w8 (b.setWidth 16) :: dataFrames es) = [.cmd b es] := by
  have hbytes : wireBytes (.frame false false .w8 (b.setWidth 16) :: dataFrames es) = txnBytes [(b, es)] := by
    change eventBytes _ ++ wireBytes (dataFrames es) = _
    rw [wireBytes_dataFrames]
    simp [eventBytes, txnBytes]
  have hkeeps : (.frame false false .w8 (b.setWidth 16) :: dataFrames es).all keepsView = true := dataFrames_keep es
  rw [ctrl_eq, viewFrom_bytes _ _ hkeeps, hbytes, View.all_txns]
  rfl

/-- Data frames before the end or an event that begins a transaction. -/
theorem ctrl_dataFrames {ds : List Byte} {b : List Event} (hne : ds ≠ [])
    (hb : ∀ e, b.head? = some e → beginsTxn e) : ctrl (dataFrames ds ++ b) = .orphan ds :: ctrl b :=
  ctrl_orphan (dataFrames_keep ds) (wireBytes_dataFrames ds) hb hne

end Sys2Proof.Machine

namespace Sys2Proof

open Machine

/-- Settles O26: a step whose plan begins with a reset is `resetEngine`, which builds the reset state anew around the configuration, the memory and the grown trace. -/
theorem resetValues : Obligations.ResetValues := by
  refine ⟨atReset_resetWith _ _ _ _ _ _ _ _, fun s rest hinputs => ?_⟩
  exact ⟨_, step_reset hinputs, atReset_resetWith _ _ _ _ _ _ _ _, rfl, rfl, rfl, rfl, rfl, rfl, rfl⟩

/-- Settles O18: a closing event starts a new view, which opens with an orphan list where data come before the next command. -/
theorem controllerViewAcrossReset : Obligations.ControllerViewAcrossReset := by
  refine ⟨fun a b => ⟨ctrl_close a b .reset rfl, ctrl_close a b (.rstN false) rfl⟩, ?_, ?_, ?_⟩
  · intro a b e hreset hrst hframe
    exact ctrl_silent a b ((keepsView_iff e).mpr ⟨hrst, hreset⟩) (eventBytes_eq_nil hframe)
  · intro a data b closing hclosing hdata hb hne
    have hkeeps : data.all keepsView = true := List.all_eq_true.mpr fun e he => by
      obtain ⟨hreset, hrst, -⟩ := hdata e he
      exact (keepsView_iff e).mpr ⟨hrst, hreset⟩
    have hframes : ∀ e ∈ data, ∀ w v, e ≠ .frame false false w v := fun e he => by
      obtain ⟨-, -, hframe⟩ := hdata e he
      exact hframe
    have horphan := ctrl_orphan hkeeps (wireBytes_data hframes) hb (mt List.map_eq_nil_iff.mp hne)
    have hcloses : keepsView closing = false := by obtain rfl | rfl := hclosing <;> rfl
    exact ⟨horphan, (ctrl_close a _ closing hcloses).trans (congrArg _ horphan)⟩
  · intro a ds es b hne frames
    have hend : ctrl (dataFrames ds) = [.orphan ds] := by
      have h := ctrl_dataFrames (b := []) hne (by simp)
      rwa [List.append_nil] at h
    have hcommand : ctrl (dataFrames ds ++ .frame false false .w8 (b.setWidth 16) :: dataFrames es) =
        [.orphan ds, .cmd b es] := by
      rw [ctrl_dataFrames hne (by simp [beginsTxn]), ctrl_command]
    have hreset : ∀ t, ctrl (a ++ .reset :: t) = ctrl a ++ ctrl t := fun t => ctrl_close a t .reset rfl
    exact ⟨(hreset _).trans (congrArg _ hend), (hreset _).trans (congrArg _ hcommand)⟩

end Sys2Proof
end

section
/-! PROOFS. The encoding of requests, 30_encoding.md: which requests decode to an operation, and that its encoding is one of them (R102, R103, R107). -/

namespace Sys2Proof

/-! ## Operand registers taken apart and packed again (30_encoding.md R103) -/

theorem extract_append_self {n m : Nat} (a : BitVec (n + m)) : a.extractLsb' m n ++ a.extractLsb' 0 m = a := by
  rw [BitVec.extractLsb'_append_extractLsb'_eq_extractLsb' (Nat.zero_add m).symm, BitVec.extractLsb'_eq_self]

@[simp] theorem pack_halves (a : Word) : packHalves (lowHalf a) (highHalf a) = a :=
  extract_append_self (n := 16) (m := 16) a

theorem pack_byte (a : Word) : a.extractLsb' 8 24 ++ a.extractLsb' 0 8 = a := extract_append_self (n := 24) (m := 8) a

theorem pack_mode (a : Word) : a.extractLsb' 2 30 ++ a.extractLsb' 0 2 = a := extract_append_self (n := 30) (m := 2) a

theorem ofBool_bitOf (a : Word) (i : Nat) : BitVec.ofBool (bitOf a i) = a.extractLsb' i 1 := by
  apply BitVec.eq_of_getLsbD_eq
  intro j hj
  obtain rfl : j = 0 := by omega
  simp [bitOf]

theorem pack_one_bit (a : Word) : a.extractLsb' 1 31 ++ BitVec.ofBool (bitOf a 0) = a := by
  rw [ofBool_bitOf]
  exact extract_append_self (n := 31) (m := 1) a

theorem pack_two_bits (a : Word) :
    a.extractLsb' 2 30 ++ (BitVec.ofBool (bitOf a 1) ++ BitVec.ofBool (bitOf a 0)) = a := by
  rw [ofBool_bitOf, ofBool_bitOf, BitVec.extractLsb'_append_extractLsb'_eq_extractLsb' (Nat.zero_add 1).symm]
  exact extract_append_self (n := 30) (m := 2) a

theorem requestWord_opcodeOf {v : Word} (h : highBitsOf v = 0) : requestWord (opcodeOf v) = v := by
  have hpack := extract_append_self (n := 24) (m := 8) v
  rwa [show v.extractLsb' 8 24 = 0 from h] at hpack

/-! The fields of each packing of 32 bits, in the width `decode` reads them from. -/

@[simp] theorem extract_byte (rsvd : BitVec 24) (b : Byte) : (rsvd ++ b : Word).extractLsb' 0 8 = b :=
  extract_low rsvd b

@[simp] theorem extract_byte_rsvd (rsvd : BitVec 24) (b : Byte) : (rsvd ++ b : Word).extractLsb' 8 24 = rsvd :=
  extract_high rsvd b

@[simp] theorem extract_mode (rsvd : BitVec 30) (m : BitVec 2) : (rsvd ++ m : Word).extractLsb' 0 2 = m :=
  extract_low rsvd m

@[simp] theorem extract_mode_rsvd (rsvd : BitVec 30) (m : BitVec 2) : (rsvd ++ m : Word).extractLsb' 2 30 = rsvd :=
  extract_high rsvd m

@[simp] theorem extract_bit_rsvd (rsvd : BitVec 31) (b : Bool) :
    (rsvd ++ BitVec.ofBool b : Word).extractLsb' 1 31 = rsvd :=
  extract_high rsvd (BitVec.ofBool b)

/-! ## Which requests decode to an operation (30_encoding.md R102, R103) -/

/-- The request word, and each operand register the format of `i` names, hold what the encoder writes there. -/
structure Request.Encodes (r : Request) (i : Instr) : Prop where
  op : r.op = requestWord i.opcode
  a0 : i.namesArg 0 = true → r.a0 = (encode i).a0
  a1 : i.namesArg 1 = true → r.a1 = (encode i).a1
  a2 : i.namesArg 2 = true → r.a2 = (encode i).a2
  a3 : i.namesArg 3 = true → r.a3 = (encode i).a3

theorem encode_op (i : Instr) : (encode i).op = requestWord i.opcode := by cases i <;> rfl

theorem encode_encodes (i : Instr) : (encode i).Encodes i :=
  ⟨encode_op i, fun _ => rfl, fun _ => rfl, fun _ => rfl, fun _ => rfl⟩

/-- The words of an operation, and whatever the operand registers its format does not name hold. -/
theorem Request.Encodes.decodeOpcode {r : Request} {i : Instr} (h : r.Encodes i) :
    Sys2Proof.decodeOpcode r = some i := by
  obtain ⟨op, a0, a1, a2, a3⟩ := r
  obtain ⟨hop, h0, h1, h2, h3⟩ := h
  dsimp only at hop h0 h1 h2 h3
  subst hop
  unfold Sys2Proof.decodeOpcode
  rw [opcode_requestWord]
  cases i with
  | init => rfl
  | setWordWidth w16 rsvd => rw [h0 rfl]; simp [Instr.opcode, encode, bit_one]
  | setDmaMode w16 inc rsvd =>
    rw [h0 rfl]
    change some (Instr.setDmaMode _ _ _) = _
    congr
    exacts [bit_two_low rsvd inc w16, bit_two_high rsvd inc w16, extract_mode_rsvd rsvd _]
  | writeCommand | writeSmallData | setRotation => rw [h0 rfl]; simp [Instr.opcode, encode]
  | writeData | transmit | setAddressWindow => rw [h0 rfl, h1 rfl]; simp [Instr.opcode, encode]
  | fillPixels | drawPixel => rw [h0 rfl, h2 rfl]; simp [Instr.opcode, encode]
  | fillRect | drawLine => rw [h0 rfl, h1 rfl, h2 rfl]; simp [Instr.opcode, encode]
  | drawImage => rw [h0 rfl, h1 rfl, h2 rfl, h3 rfl]; simp [Instr.opcode, encode]

/-- The formats of R103 read backwards: each operand register a format names is its fields packed again. -/
theorem encodes_of_decodeOpcode {r : Request} {i : Instr} (hhigh : highBitsOf r.op = 0) (h : decodeOpcode r = some i) :
    r.Encodes i := by
  have hword (b : Byte) (hb : (opcodeOf r.op).toNat = b.toNat) : r.op = requestWord b := by
    rw [← BitVec.eq_of_toNat_eq hb, requestWord_opcodeOf hhigh]
  unfold decodeOpcode at h
  split at h
  case h_1 hop => cases h; exact ⟨hword _ hop, fun _ => (pack_one_bit r.a0).symm, nofun, nofun, nofun⟩
  case h_2 hop => cases h; exact ⟨hword _ hop, fun _ => (pack_two_bits r.a0).symm, nofun, nofun, nofun⟩
  case h_3 hop | h_4 hop =>
    cases h; exact ⟨hword _ hop, fun _ => (pack_byte r.a0).symm, nofun, nofun, nofun⟩
  case h_5 hop | h_6 hop => cases h; exact ⟨hword _ hop, fun _ => rfl, fun _ => rfl, nofun, nofun⟩
  case h_7 hop =>
    cases h; exact ⟨hword _ hop, fun _ => (pack_halves r.a0).symm, fun _ => (pack_halves r.a1).symm, nofun, nofun⟩
  case h_8 hop => cases h; exact ⟨hword _ hop, fun _ => (pack_mode r.a0).symm, nofun, nofun, nofun⟩
  case h_9 hop => cases h; exact ⟨hword _ hop, fun _ => rfl, nofun, fun _ => (pack_halves r.a2).symm, nofun⟩
  case h_10 hop | h_11 hop =>
    cases h
    exact ⟨hword _ hop, fun _ => (pack_halves r.a0).symm, fun _ => (pack_halves r.a1).symm,
      fun _ => (pack_halves r.a2).symm, nofun⟩
  case h_12 hop =>
    cases h; exact ⟨hword _ hop, fun _ => (pack_halves r.a0).symm, nofun, fun _ => (pack_halves r.a2).symm, nofun⟩
  case h_13 hop =>
    cases h
    exact ⟨hword _ hop, fun _ => (pack_halves r.a0).symm, fun _ => (pack_halves r.a1).symm,
      fun _ => (pack_byte r.a2).symm, fun _ => rfl⟩
  case h_14 hop => cases h; exact ⟨hword _ hop, nofun, nofun, nofun, nofun⟩
  case h_15 => cases h

/-- The requests that decode to `i`: its words, whatever the operand registers its format does not name hold. -/
theorem decode_eq_ok_iff {r : Request} {i : Instr} : decode r = .ok i ↔ r.Encodes i := by
  constructor
  · intro h
    unfold decode at h
    split_ifs at h with hhigh
    split at h <;> cases h
    next hop => exact encodes_of_decodeOpcode (not_not.mp hhigh) hop
  · intro h
    have hhigh : highBitsOf r.op = 0 := by rw [h.op, highBits_requestWord]
    rw [decode, if_neg (not_not.mpr hhigh), h.decodeOpcode]

/-- Settles O1: the encoding of an operation is one of the requests that decode to it. -/
theorem decodeOfEncode : Obligations.DecodeOfEncode :=
  fun i => decode_eq_ok_iff.mpr (encode_encodes i)

/-- Settles O2: the requests that decode to an operation are fixed on its word and its named registers alone. -/
theorem encodeOfDecode : Obligations.EncodeOfDecode := by
  intro r i h
  obtain ⟨hop, h0, h1, h2, h3⟩ := decode_eq_ok_iff.mp h
  refine ⟨hop.trans (encode_op i).symm, h0, h1, h2, h3, fun r' hop' h0' h1' h2' h3' => decode_eq_ok_iff.mpr ?_⟩
  exact ⟨hop'.trans hop, fun hn => (h0' hn).trans (h0 hn), fun hn => (h1' hn).trans (h1 hn),
    fun hn => (h2' hn).trans (h2 hn), fun hn => (h3' hn).trans (h3 hn)⟩

/-- Settles O4: each word is closed, so its decoding is a computation. -/
theorem sampleWordsDecode : Obligations.SampleWordsDecode := by
  unfold Obligations.SampleWordsDecode
  decide

end Sys2Proof
end

section
/-! PROOFS. Host accesses and requests, 30_encoding.md and 60_exceptions.md: what each register reads, what each write does, and how a request starts (R100, R101, R104, R112, R310). -/

namespace Sys2Proof.Machine

variable {s t : State} {i : Instr}

/-! ## A request in each state of the sequencer (60_exceptions.md R310) -/

theorem State.busy_iff (s : State) : s.busy = true ↔ s.fsm = .run ∨ s.fsm = .waitDma := by
  cases h : s.fsm <;> simp [State.busy, h]

theorem State.startRequest_busy (h : s.busy = true) :
    s.startRequest = .next (s.raiseAt .reentrant (opcodeOf s.op)) := by
  rcases s.busy_iff.mp h with hf | hf <;> simp only [State.startRequest, hf]

/-- A legal request on an idle engine starts its operation on the latched request. -/
theorem State.startRequest_decoded (hidle : s.fsm = .idle) (h : decode s.latch.latchedRequest = .ok i) :
    s.startRequest = exec i s.latch := by
  simp only [State.startRequest, hidle, h]

/-- Everything a request can do: nothing, a fault, or the start of an operation. -/
theorem State.startRequest_cases (h : s.startRequest = .next t) :
    t = s ∨ (∃ f o, f ≠ .none ∧ t = s.raiseAt f o) ∨ (s.fsm = .idle ∧ ∃ i, exec i s.latch = .next t) := by
  unfold State.startRequest at h
  split at h
  · cases h; exact .inl rfl
  · cases h; exact .inr (.inl ⟨_, _, by decide, rfl⟩)
  · cases h; exact .inr (.inl ⟨_, _, by decide, rfl⟩)
  · next hidle =>
    split at h
    · exact .inr (.inr ⟨hidle, _, h⟩)
    · cases h; exact .inr (.inl ⟨_, _, by decide, rfl⟩)

/-- The micro-sequence of every operation ends with `finish` or `raise` (10_state.md R37). -/
theorem exec_ends (i : Instr) (s : State) : ∃ as : List Action, as.getLast?.map isEnd = some true ∧
    exec i s = .next { s with mseq := as, fsm := .run } :=
  ⟨_, (good_op s.cfg s.busWidth s.rotSet s.initDone i).sound.ends, exec_eq i s⟩

/-! ## Steps that are one host access (30_encoding.md R100, R101, R104) -/

theorem step_read {off : Nat} {rest : List Input} (hoff : off < 0x40) (halign : off % 4 = 0)
    (h : s.inputs = .host (.read off .word) :: rest) :
    step s = .next { s with inputs := rest, resp := .data (s.readReg off) } := by
  rw [step_host h, State.hostAccess_read hoff, if_pos ⟨rfl, halign⟩]
  rfl

theorem step_write {off : Nat} {v : Word} {rest : List Input} (hoff : off < 0x40) (halign : off % 4 = 0)
    (h : s.inputs = .host (.write off .word v) :: rest) :
    step s = State.writeReg { s with inputs := rest, resp := .ack } off v := by
  rw [step_host h, State.hostAccess_write_aligned hoff halign]

/-- A write to OP makes the request. -/
theorem step_request {v : Word} {rest : List Input} (h : s.inputs = .host (.write 0x00 .word v) :: rest) :
    step s = State.startRequest { s with inputs := rest, resp := .ack, op := v } :=
  step_write (by decide) rfl h

/-- A legal request on an idle engine starts its operation with the request word stored and the operands latched. -/
theorem step_request_decoded {v : Word} {rest : List Input} (hidle : s.fsm = .idle)
    (h : s.inputs = .host (.write 0x00 .word v) :: rest)
    (hdecode : decode ⟨v, s.arg.a0, s.arg.a1, s.arg.a2, s.arg.a3⟩ = .ok i) :
    step s = exec i { s with
      inputs := rest, resp := .ack, op := v, lOp := v.extractLsb' 0 8, lArg := s.arg } := by
  rw [step_request h]
  exact State.startRequest_decoded (s := { s with inputs := rest, resp := .ack, op := v }) hidle hdecode

/-- A host access at or above 0x40 is outside the engine (log 14). -/
theorem State.hostAccess_outside {off : Nat} {size : AccessSize} (hoff : 0x40 ≤ off) (v : Word) :
    s.hostAccess (.read off size) = .fault .outsideEngine ∧
    s.hostAccess (.write off size v) = .fault .outsideEngine := by
  simp only [State.hostAccess, if_pos hoff, and_self]

/-- Offsets past the operand registers take no write (R101). -/
theorem State.writeReg_ignored {off : Nat} (hoff : 0x10 < off) (v : Word) : s.writeReg off v = .next s := by
  unfold State.writeReg
  split
  case h_6 => rfl
  all_goals omega

/-! ## The register writes of a line of assembler (30_encoding.md R112) -/

theorem runSteps_one (s : State) : runSteps 1 s = step s := by
  cases h : step s <;> simp only [runSteps, h]

/-- A register write that a line makes if its format names the register. -/
def argWrite (named : Bool) (off : Nat) (v : Word) : List HostAccess := if named then [.write off .word v] else []

theorem assemble_eq (i : Instr) : assemble i =
    argWrite (i.namesArg 0) 0x04 (encode i).a0 ++ (argWrite (i.namesArg 1) 0x08 (encode i).a1 ++
    (argWrite (i.namesArg 2) 0x0C (encode i).a2 ++ (argWrite (i.namesArg 3) 0x10 (encode i).a3 ++
    [.write 0x00 .word (encode i).op]))) := by
  simp only [assemble, argWrite, List.append_assoc]

/-- A run through such a write goes on with the operand register updated, or as it was; the bus's answer is not said, for the next access overwrites it. -/
theorem runSteps_argWrite {named : Bool} {off : Nat} {v : Word} {as : List HostAccess} {rest : List Input}
    (update : Args → Args) (hoff : off < 0x40) (halign : off % 4 = 0)
    (hwrite : ∀ u : State, u.writeReg off v = .next { u with arg := update u.arg })
    (h : s.inputs = (argWrite named off v ++ as).map .host ++ rest) {o : Outcome}
    (hrest : ∀ resp, runSteps as.length { s with
      inputs := as.map .host ++ rest, resp := resp, arg := if named then update s.arg else s.arg } = o) :
    runSteps (argWrite named off v ++ as).length s = o := by
  cases named with
  | false =>
    have h' : s.inputs = as.map .host ++ rest := h
    have hsame := hrest s.resp
    rw [← h'] at hsame
    exact hsame
  | true =>
    have h' : s.inputs = .host (.write off .word v) :: (as.map .host ++ rest) := h
    rw [← hrest .ack]
    simp only [argWrite, if_true, List.singleton_append, List.length_cons, runSteps, step_write hoff halign h', hwrite]

end Sys2Proof.Machine

namespace Sys2Proof

open Machine

/-- Settles O5: a decoded request on an idle engine starts its operation, and `withFetchWord` leaves the engine idle with the request next in the plan. -/
theorem stepRunsDecodedRequest : Obligations.StepRunsDecodedRequest := by
  refine ⟨fun s v rest i hidle hinputs hdecode => step_request_decoded hidle hinputs hdecode, ?_⟩
  intro s nbits w i htable r
  have hdecode : decode r = .ok i := by
    unfold decodeTableWord at htable
    split at htable <;> cases htable
    assumption
  exact step_request_decoded (s := s.withFetchWord nbits w) rfl rfl hdecode

/-- Settles O6: by the state of the sequencer; an idle engine takes a legal request, whose operation starts with a micro-sequence of its own. -/
theorem requestStart : Obligations.RequestStart := by
  intro s v rest hinputs t request
  have hstep : step s = t.startRequest := step_request hinputs
  refine ⟨fun hf => ?_, fun hbusy => ?_, fun hidle hillegal => ?_, fun hidle i hdecode => ?_⟩
  · exact hstep.trans (State.startRequest_faulted (s := t) hf)
  · exact hstep.trans (State.startRequest_busy (s := t) hbusy)
  · have hop : t.op.toNat ∉ opcodes := fun hmem =>
      not_exists.mpr hillegal ((decode_ok_iff_mem_opcodes request).mpr hmem)
    exact hstep.trans (State.startRequest_illegal hidle hop)
  · obtain ⟨as, hends, hexec⟩ := exec_ends i { t with lOp := v.extractLsb' 0 8, lArg := s.arg }
    exact ⟨as, hends, (step_request_decoded hidle hinputs hdecode).trans hexec, State.statusWord_busy _⟩

/-- Settles O7: an aligned 32-bit read answers `readReg`, whose value at each offset is its definition. -/
theorem registerReads : Obligations.RegisterReads :=
  fun _ _ _ hinputs => ⟨fun hoff halign => step_read hoff halign hinputs,
    rfl, rfl, rfl, rfl, rfl, rfl, rfl, rfl, rfl, rfl, rfl, rfl, rfl, rfl, rfl, rfl⟩

/-- The read-only registers and the reserved offsets lie past the operand registers, at the offsets of 32-bit accesses (R101, R104). -/
theorem readOnly_offset : ∀ off ∈ [0x14, 0x18, 0x1C, 0x20, 0x24, 0x28, 0x2C, 0x30, 0x34, 0x38, 0x3C],
    0x10 < off ∧ off < 0x40 ∧ off % 4 = 0 := by decide

/-- Settles O10: past the operand registers a write is ignored, and at or above 0x40 every access is the platform's. -/
theorem ignoredWrites : Obligations.IgnoredWrites := by
  intro s off v rest
  constructor
  · intro hmem hinputs
    obtain ⟨hlow, hhigh, halign⟩ := readOnly_offset off hmem
    rw [step_write hhigh halign hinputs, State.writeReg_ignored hlow]
  · intro size hoff
    constructor <;> intro hinputs <;> rw [step_host hinputs]
    · exact (State.hostAccess_outside hoff v).2
    · exact (State.hostAccess_outside hoff v).1

/-- Settles O11: the step is the register write, which the state of the sequencer does not enter. -/
theorem argWrites : Obligations.ArgWrites :=
  fun _ _ _ => ⟨step_write (by decide) rfl, step_write (by decide) rfl, step_write (by decide) rfl,
    step_write (by decide) rfl⟩

/-- Settles O12: the writes to the operand registers one after the other, and then the request, which decodes to the operation of the line. -/
theorem assembledLine : Obligations.AssembledLine := by
  intro i s rest hidle hinputs r arg
  rw [assemble_eq] at hinputs ⊢
  refine runSteps_argWrite (fun a => { a with a0 := r.a0 }) (by decide) rfl (fun _ => rfl) hinputs fun _ => ?_
  refine runSteps_argWrite (fun a => { a with a1 := r.a1 }) (by decide) rfl (fun _ => rfl) rfl fun _ => ?_
  refine runSteps_argWrite (fun a => { a with a2 := r.a2 }) (by decide) rfl (fun _ => rfl) rfl fun _ => ?_
  refine runSteps_argWrite (fun a => { a with a3 := r.a3 }) (by decide) rfl (fun _ => rfl) rfl fun resp => ?_
  -- The operand registers are now `arg`, and the last write makes the request.
  have hrequest := step_request_decoded (i := i)
    (s := { s with inputs := .host (.write 0x00 .word r.op) :: rest, resp := resp, arg := arg }) hidle rfl
    (decode_eq_ok_iff.mpr ⟨encode_op i, fun h => if_pos h, fun h => if_pos h, fun h => if_pos h, fun h => if_pos h⟩)
  have hopcode : opcodeOf r.op = i.opcode := (congrArg opcodeOf (encode_op i)).trans (opcode_requestWord _)
  rw [← hopcode]
  refine (runSteps_one _).trans (Eq.trans (congrArg step ?_) hrequest)
  cases i <;> rfl
end Sys2Proof
end

section
/-! PROOFS. System memory, the configuration and the invariant of the engine: what each step keeps (20_memory.md R70 to R74, 00_scope.md R6, 41_protocol.md R169, 60_exceptions.md R317). -/

namespace Sys2Proof.Machine

variable {s t u : State}

/-! ## Everything a step can do (00_scope.md R12) -/

/-- Everything a register write can do: store an operand, make a request, or nothing. -/
theorem State.writeReg_cases {off : Nat} {v : Word} (h : s.writeReg off v = .next t) :
    (∃ a, t = { s with arg := a }) ∨ (off = 0x00 ∧ State.startRequest { s with op := v } = .next t) := by
  unfold State.writeReg at h
  split at h
  case h_1 => exact .inr ⟨rfl, h⟩
  all_goals cases h; exact .inl ⟨_, rfl⟩

/-- Everything a host access can do: answer, with at most an operand stored, or, as a write to OP, make a request. -/
theorem State.hostAccess_cases {a : HostAccess} (h : s.hostAccess a = .next t) :
    (∃ arg resp, t = { s with arg := arg, resp := resp }) ∨
    ∃ v, a = .write 0x00 .word v ∧ State.startRequest { s with op := v, resp := .ack } = .next t := by
  cases a with
  | read off size =>
    simp only [State.hostAccess] at h
    split_ifs at h <;> cases h <;> exact .inl ⟨s.arg, _, rfl⟩
  | write off size v =>
    simp only [State.hostAccess] at h
    split_ifs at h with _ halign
    · rcases State.writeReg_cases h with ⟨arg, rfl⟩ | ⟨rfl, h⟩
      · exact .inl ⟨arg, .ack, rfl⟩
      · obtain ⟨rfl, -⟩ := (aligned_iff _ _).mp halign
        exact .inr ⟨v, rfl, h⟩
    · cases h
      exact .inl ⟨s.arg, .busError, rfl⟩

/-- Everything a poll of WAIT can do: the agents' turn, the poll put back, or an answer. -/
theorem State.waitPoll_cases (s : State) :
    s.waitPoll = State.idleTurn { s with inputs := .wait :: s.inputs } ∨
    s.waitPoll = { s with resp := .data s.statusWord } := by
  unfold State.waitPoll
  split
  · exact .inl rfl
  · exact .inr rfl

/-- A step is the agents' turn, or the next item of the plan, taken off it. -/
theorem step_cases (h : step s = .next t) :
    (s.inputs = [] ∧ t = s.idleTurn) ∨
    ∃ i rest, s.inputs = i :: rest ∧ State.input { s with inputs := rest } i = .next t := by
  unfold step at h
  split at h
  · next hi => cases h; exact .inl ⟨hi, rfl⟩
  · next i rest hi => exact .inr ⟨i, rest, hi, h⟩

/-! ## The configuration and system memory (00_scope.md R6, 20_memory.md R70) -/

/-- A request writes neither the configuration nor memory. -/
theorem State.startRequest_cfg_mem (h : s.startRequest = .next t) : t.cfg = s.cfg ∧ t.mem = s.mem := by
  rcases State.startRequest_cases h with rfl | ⟨f, o, -, rfl⟩ | ⟨-, i, h⟩
  · exact ⟨rfl, rfl⟩
  · exact ⟨rfl, rfl⟩
  · rw [exec_eq] at h
    cases h
    exact ⟨rfl, rfl⟩

theorem State.hostAccess_cfg_mem {a : HostAccess} (h : s.hostAccess a = .next t) :
    t.cfg = s.cfg ∧ t.mem = s.mem := by
  rcases State.hostAccess_cases h with ⟨arg, resp, rfl⟩ | ⟨v, -, h⟩
  · exact ⟨rfl, rfl⟩
  · exact State.startRequest_cfg_mem (s := { s with op := v, resp := .ack }) h

theorem State.waitPoll_cfg_mem (s : State) : s.waitPoll.cfg = s.cfg ∧ s.waitPoll.mem = s.mem := by
  rcases s.waitPoll_cases with h | h <;> rw [h]
  · have hkept := kept_idleTurn { s with inputs := .wait :: s.inputs }
    exact ⟨hkept.cfg, hkept.mem⟩
  · exact ⟨rfl, rfl⟩

theorem State.hostMemWrite_idle {addr : Word} {b : Byte} (h : s.busy = false) :
    s.hostMemWrite addr b = .next { s with mem := s.mem.write addr.toNat b } := by
  simp [State.hostMemWrite, h]

/-- Everything a host write to memory can do. -/
theorem State.hostMemWrite_cases {addr : Word} {b : Byte} (h : s.hostMemWrite addr b = .next t) :
    s.busy = false ∧ t = { s with mem := s.mem.write addr.toNat b } := by
  unfold State.hostMemWrite at h
  split at h <;> cases h
  next hbusy => exact ⟨by simpa using hbusy, rfl⟩

/-- Every item of the plan keeps the configuration, and every one but a host write to memory keeps memory. -/
theorem State.input_cfg_mem {i : Input} (h : s.input i = .next t) :
    t.cfg = s.cfg ∧ ((∀ a b, i ≠ .memWrite a b) → t.mem = s.mem) := by
  cases i with
  | host a =>
    obtain ⟨hcfg, hmem⟩ := State.hostAccess_cfg_mem h
    exact ⟨hcfg, fun _ => hmem⟩
  | memWrite addr b =>
    obtain ⟨-, rfl⟩ := State.hostMemWrite_cases h
    exact ⟨rfl, fun hne => absurd rfl (hne addr b)⟩
  | wait =>
    cases h
    obtain ⟨hcfg, hmem⟩ := s.waitPoll_cfg_mem
    exact ⟨hcfg, fun _ => hmem⟩
  | engine => cases h; exact ⟨(kept_engineStep s).cfg, fun _ => (kept_engineStep s).mem⟩
  | stall | reset => cases h; exact ⟨rfl, fun _ => rfl⟩

/-! ## The invariant (41_protocol.md R169, 60_exceptions.md R317, 70_reset_and_hazards.md R365) -/

theorem inv_hostAccess {a : HostAccess} (h : s.Inv) (he : s.hostAccess a = .next t) : t.Inv := by
  rcases State.hostAccess_cases he with ⟨arg, resp, rfl⟩ | ⟨v, -, he⟩
  · exact h.irrelevant s.op arg s.lOp s.lArg s.inputs s.freeIx resp
  · exact inv_startRequest (h.irrelevant v s.arg s.lOp s.lArg s.inputs s.freeIx .ack) he

/-- A host write to memory keeps its canonical form, and reaches nothing else of the invariant. -/
theorem inv_hostMemWrite {addr : Word} {b : Byte} (h : s.Inv) (he : s.hostMemWrite addr b = .next t) : t.Inv := by
  obtain ⟨-, rfl⟩ := State.hostMemWrite_cases he
  exact { h with memory := Memory.write_wf h.memory addr b }

theorem inv_waitPoll (h : s.Inv) : s.waitPoll.Inv := by
  rcases s.waitPoll_cases with e | e <;> rw [e]
  · exact inv_idleTurn (h.irrelevant s.op s.arg s.lOp s.lArg (.wait :: s.inputs) s.freeIx s.resp)
  · exact h.irrelevant s.op s.arg s.lOp s.lArg s.inputs s.freeIx _

/-- Every item of the plan keeps the invariant. -/
theorem inv_input {i : Input} (h : s.Inv) (he : s.input i = .next t) : t.Inv := by
  cases i with
  | host a => exact inv_hostAccess h he
  | memWrite addr b => exact inv_hostMemWrite h he
  | wait => cases he; exact inv_waitPoll h
  | engine => cases he; exact inv_engineStep h
  | stall => cases he; exact h
  | reset => cases he; exact inv_reset s.cfg s.mem h.memory _ _ _ _ _ _

/-! ## What `MemRead` returns (20_memory.md R72) -/

theorem memRead_w8_toNat (c : Config) (m : Memory) (addr : Word) :
    (memRead c m addr .w8).toNat = (m.read addr.toNat).toNat := by
  simp only [memRead, BitVec.toNat_setWidth]
  omega

theorem append_toNat (hi lo : Byte) : (hi ++ lo : Half).toNat = hi.toNat * 256 + lo.toNat := by
  rw [BitVec.toNat_append, ← Nat.shiftLeft_add_eq_or_of_lt lo.isLt, Nat.shiftLeft_eq]

theorem succ_toNat (addr : Word) : (addr + 1).toNat = (addr.toNat + 1) % 2 ^ 32 := BitVec.toNat_add addr 1

theorem memRead_little {c : Config} (hc : c.memByteOrder = .little) (m : Memory) (addr : Word) :
    (memRead c m addr .w16).toNat =
      (m.read ((addr.toNat + 1) % 2 ^ 32)).toNat * 256 + (m.read addr.toNat).toNat := by
  simp only [memRead, hc]
  rw [append_toNat, succ_toNat]

theorem memRead_big {c : Config} (hc : c.memByteOrder = .big) (m : Memory) (addr : Word) :
    (memRead c m addr .w16).toNat =
      (m.read addr.toNat).toNat * 256 + (m.read ((addr.toNat + 1) % 2 ^ 32)).toNat := by
  simp only [memRead, hc]
  rw [append_toNat, succ_toNat]

/-- An admitted read of element `k` of a 16-bit buffer is the one at `base + 2k`. -/
theorem State.word_mem_w16 {base : Word} {k : Nat} (hw : s.busWidth = .w16)
    (hr : (s.word (.mem base) k).isSome = true) :
    s.word (.mem base) k = some (memRead s.cfg s.mem (BitVec.ofNat 32 (base.toNat + 2 * k)) .w16) := by
  have haddr : frameAddr base .w16 k = BitVec.ofNat 32 (base.toNat + 2 * k) := by
    rw [frameAddr, Width.bytes, Nat.mul_comm, BitVec.ofNat_add, BitVec.ofNat_toNat, BitVec.setWidth_eq]
  rw [State.word_mem] at hr ⊢
  split at hr
  · next hadmit => rw [if_pos hadmit, hw, haddr]
  · cases hr

theorem board_memByteOrder : Config.board.memByteOrder = .little := by
  unfold Config.board
  split <;> rfl

end Sys2Proof.Machine

namespace Sys2Proof

open Machine

/-- Settles O28: a step is the agents' turn or an item of the plan, and each of them keeps the invariant. -/
theorem stepKeepsInvariant : Obligations.StepKeepsInvariant := by
  intro s t hinv hstep
  rcases step_cases hstep with ⟨-, rfl⟩ | ⟨i, rest, -, h⟩
  · exact inv_idleTurn hinv
  · exact inv_input (hinv.irrelevant s.op s.arg s.lOp s.lArg rest s.freeIx s.resp) h

/-- Settles O27: reset gives the invariant with any canonical memory, and the memory of `State.reset` is empty. -/
theorem invariantAtReset : Obligations.InvariantAtReset := inv_reset Config.board [] rfl [.reset] [] [] [] 0 .none

/-- Settles O15: the agents keep the configuration and memory, and of the plan's items a host write to memory alone writes it. -/
theorem engineNeverWritesMemory : Obligations.EngineNeverWritesMemory := by
  intro s t hstep
  rcases step_cases hstep with ⟨-, rfl⟩ | ⟨i, rest, hinputs, h⟩
  · exact ⟨(kept_idleTurn s).cfg, fun _ _ => by rw [(kept_idleTurn s).mem]⟩
  · obtain ⟨hcfg, hmem⟩ := State.input_cfg_mem h
    refine ⟨hcfg, fun hne x => ?_⟩
    rw [hmem fun a b hi => hne a b (by rw [hinputs, hi]; rfl)]

/-- Settles O13: BUSY decides, and the write to an idle engine's memory is `Memory.write`, which keeps the canonical form. -/
theorem hostMemoryWrites : Obligations.HostMemoryWrites := by
  intro s addr b rest hinputs
  have hstep : step s = State.hostMemWrite { s with inputs := rest } addr b := by
    simp only [step, hinputs, State.input]
  rw [hstep]
  refine ⟨fun hbusy => if_pos hbusy, fun hidle hwf => ?_⟩
  exact ⟨_, State.hostMemWrite_idle hidle, Memory.write_wf hwf addr b,
    fun x => Memory.read_write hwf addr.toNat x b⟩

/-- Settles O14: by width and byte order; a frame's address wraps as the exact sum does. -/
theorem memoryReads : Obligations.MemoryReads :=
  ⟨fun c m addr =>
      ⟨memRead_w8_toNat c m addr, fun hc => memRead_little hc m addr, fun hc => memRead_big hc m addr⟩,
    fun _ _ _ => State.word_mem_w16, board_memByteOrder⟩

end Sys2Proof
end

section
/-! PROOFS. The words the host reads: their fields, bit by bit (30_encoding.md R104, 10_state.md R34, R35, R41), and the geometry of the source's panel (43_addressing.md R212, 45_init.md R296). -/

namespace Sys2Proof

/-! ## Fields of words put together with `++` -/

theorem extract_skip {n m : Nat} (a : BitVec n) (b : BitVec m) (i len : Nat) :
    (a ++ b).extractLsb' (m + i) len = a.extractLsb' i len := by
  rw [BitVec.extractLsb'_append_eq_of_le (Nat.le_add_right m i), Nat.add_sub_cancel_left]

theorem bit_last {n : Nat} (a : BitVec n) (b : Bool) : (a ++ BitVec.ofBool b).getLsbD 0 = b := by
  rw [BitVec.getLsbD_append, if_pos (by decide)]
  simp

theorem bit_skip {n : Nat} (a : BitVec n) (b : Bool) (i : Nat) :
    (a ++ BitVec.ofBool b).getLsbD (i + 1) = a.getLsbD i := by
  simp [BitVec.getLsbD_append]

/-- What stands above the four flags of a word. -/
theorem extract_above_flags {n : Nat} (a : BitVec n) (b3 b2 b1 b0 : Bool) (i len : Nat) :
    (a ++ BitVec.ofBool b3 ++ BitVec.ofBool b2 ++ BitVec.ofBool b1 ++ BitVec.ofBool b0).extractLsb' (4 + i) len =
      a.extractLsb' i len := by
  rw [show 4 + i = 1 + (1 + (1 + (1 + i))) by omega, extract_skip, extract_skip, extract_skip, extract_skip]

/-- The field between a word's high and low parts. -/
theorem extract_mid {n k m : Nat} (a : BitVec n) (f : BitVec k) (b : BitVec m) :
    (a ++ f ++ b).extractLsb' m k = f :=
  (extract_skip (a ++ f) b 0 k).trans (extract_low a f)

/-! ## The geometry of the source's panel (43_addressing.md R212) -/

/-- In a configuration the one row the source gives holds of every row of the table (log 9). -/
theorem Config.row_p135x240 (c : Config) :
    ∀ v ∈ c.geometry, v.variant = .p135x240 → v.r3 = ⟨240, 135, 40, 53⟩ := by
  have hvalid := c.ok
  unfold Params.valid Params.geometryOk at hvalid
  simp only [Bool.and_eq_true, List.all_eq_true] at hvalid
  obtain ⟨⟨⟨-, hgeometry⟩, -⟩, -⟩ := hvalid
  intro v hv hvariant
  obtain ⟨-, hrow⟩ := hgeometry v hv
  simpa [hvariant] using hrow

/-- The geometry of a configuration is the row of its variant and rotation. -/
theorem Config.geo_eq_row (c : Config) :
    ∃ v ∈ c.geometry, v.variant = c.panelVariant ∧ c.geo = v.row c.rotationCfg := by
  obtain ⟨hw, -⟩ := c.sizes
  have hgeo : c.geo = ((c.geometry.find? fun v => v.variant == c.panelVariant).map fun v => v.row c.rotationCfg).getD
    ⟨0, 0, 0, 0⟩ := rfl
  cases hfind : c.geometry.find? (fun v => v.variant == c.panelVariant) with
  | none =>
    -- Without a row the width would be 0, which R7 refuses.
    rw [hgeo, hfind] at hw
    exact absurd hw (by simp)
  | some v =>
    rw [hfind] at hgeo
    exact ⟨v, List.mem_of_find?_eq_some hfind, by simpa using List.find?_some hfind, hgeo⟩

theorem Config.geo_p135x240 (c : Config) (hvariant : c.panelVariant = .p135x240) (hrot : c.rotationCfg = 3) :
    c.geo = ⟨240, 135, 40, 53⟩ := by
  obtain ⟨v, hv, hv', hgeo⟩ := c.geo_eq_row
  rw [hgeo, hrot, ← c.row_p135x240 v hv (hv'.trans hvariant)]
  rfl

end Sys2Proof

namespace Sys2Proof.Machine

/-! ## STATUS, ERR, MODE and CONFIG (30_encoding.md R104) -/

theorem State.statusWord_rotSet (s : State) : s.statusWord.getLsbD 2 = s.rotSet :=
  (bit_skip _ _ 1).trans ((bit_skip _ _ 0).trans (bit_last _ _))

theorem State.statusWord_initDone (s : State) : s.statusWord.getLsbD 3 = s.initDone :=
  (bit_skip _ _ 2).trans ((bit_skip _ _ 1).trans ((bit_skip _ _ 0).trans (bit_last _ _)))

theorem State.statusWord_result (s : State) : s.statusWord.extractLsb' 4 4 = s.result.code :=
  (extract_above_flags (0#24 ++ s.result.code) _ _ _ _ 0 4).trans (extract_low _ _)

theorem State.statusWord_reserved (s : State) : s.statusWord.extractLsb' 8 24 = 0 :=
  (extract_above_flags (0#24 ++ s.result.code) _ _ _ _ 4 24).trans (extract_high _ _)

theorem State.modeWord_busWidth (s : State) : s.modeWord.getLsbD 0 = widthBit s.busWidth := bit_last _ _

theorem State.modeWord_dmaInc (s : State) : s.modeWord.getLsbD 1 = (s.cfg.dmaEnabled && s.dmaInc) :=
  (bit_skip _ _ 0).trans (bit_last _ _)

theorem State.modeWord_dmaWidth (s : State) : s.modeWord.getLsbD 2 = (s.cfg.dmaEnabled && widthBit s.dmaWidth) :=
  (bit_skip _ _ 1).trans ((bit_skip _ _ 0).trans (bit_last _ _))

theorem State.modeWord_dmaEnabled (s : State) : s.modeWord.getLsbD 3 = s.cfg.dmaEnabled :=
  (bit_skip _ _ 2).trans ((bit_skip _ _ 1).trans ((bit_skip _ _ 0).trans (bit_last _ _)))

theorem State.modeWord_rot (s : State) : s.modeWord.extractLsb' 4 2 = s.rot :=
  (extract_above_flags (0#26 ++ s.rot) _ _ _ _ 0 2).trans (extract_low _ _)

theorem State.modeWord_reserved (s : State) : s.modeWord.extractLsb' 6 26 = 0 :=
  (extract_above_flags (0#26 ++ s.rot) _ _ _ _ 2 26).trans (extract_high _ _)

/-- The threshold fits its field, for R7 bounds it (00_scope.md R7). -/
theorem State.configWord_dmaMinSize (s : State) : (s.configWord.extractLsb' 16 16).toNat = s.cfg.dmaMinSize := by
  obtain ⟨-, -, -, -, -, -, hmax⟩ := s.cfg.sizes
  have hfield : s.configWord.extractLsb' 16 16 = BitVec.ofNat 16 s.cfg.dmaMinSize :=
    (extract_skip _ _ 15 16).trans (extract_high _ _)
  rw [hfield, BitVec.toNat_ofNat]
  omega

theorem widthBit_iff (w : Width) : widthBit w = true ↔ w = .w16 := decide_eq_true_iff

end Sys2Proof.Machine

namespace Sys2Proof

open Machine

/-- Settles O8: -/
theorem readWordFields : Obligations.ReadWordFields := by
  refine ⟨fun s => ?_, rfl, rfl⟩
  refine ⟨?_, ?_, s.statusWord_rotSet, s.statusWord_initDone, s.statusWord_result, s.statusWord_reserved,
    extract_low _ _, extract_mid _ _ _, (extract_skip _ _ 8 16).trans (extract_high _ _), ?_, ?_, ?_,
    s.modeWord_dmaEnabled, s.modeWord_rot, s.modeWord_reserved, extract_low _ _, extract_high _ _,
    extract_low _ _, extract_high _ _, bit_last _ _, extract_mid _ _ _, s.configWord_dmaMinSize,
    extract_low _ _, extract_high _ _, extract_low _ _, extract_high _ _⟩
  · rw [State.statusWord_busy, State.busy_iff]
  · rw [State.statusWord_isFaulted, State.isFaulted, decide_eq_true_iff]
  · rw [State.modeWord_busWidth, widthBit_iff]
  · rw [State.modeWord_dmaInc, Bool.and_eq_true]
  · rw [State.modeWord_dmaWidth, Bool.and_eq_true, widthBit_iff]

/-- Settles O58: -/
theorem geometryReadBack : Obligations.GeometryReadBack := by
  intro s hvariant hrot
  have hgeo := Config.geo_p135x240 s.cfg hvariant hrot
  constructor
  · exact congrArg (fun g : Geometry => g.h ++ g.w) hgeo
  · exact congrArg (fun g : Geometry => g.sy ++ g.sx) hgeo

end Sys2Proof
end

section
/-! PROOFS. The sequencer step by step, 10_state.md, 40_bus_mode.md to 42_bulk_transfer.md: how it advances (R37), a blocking frame and its draw (R166), a reconfiguration (R140 to R142), the choice of transport (R184), and a hung DMA channel (R187). -/

namespace Sys2Proof.Machine

variable {s t u : State}

/-! ## Steps of the sequencer (10_state.md R37) -/

theorem State.seqStep_idle (hf : s.fsm = .idle) : s.seqStep = none := by
  simp only [State.seqStep, hf]

/-- In RUN the sequencer executes the first action that is left; after a HANG there is none (log 7). -/
theorem State.seqStep_run {a : Action} {rest : List Action} (hf : s.fsm = .run) (hm : s.mseq = a :: rest)
    (ha : a ≠ .hung) : s.seqStep = some (doAction a { s with mseq := rest }) := by
  cases a with
  | hung => exact absurd rfl ha
  | _ => simp only [State.seqStep, hf, hm]

theorem State.engineStep_of_seqStep (h : s.seqStep = some t) : s.engineStep = t := by
  simp only [State.engineStep, h]

/-- With no item in the plan a sequencer that has a step takes it. -/
theorem step_of_seqStep (hi : s.inputs = []) (h : s.seqStep = some t) : step s = .next t := by
  simp only [step, hi, State.idleTurn, h]

theorem step_engine {rest : List Input} (h : s.inputs = .engine :: rest) :
    step s = .next (State.engineStep { s with inputs := rest }) := by
  simp only [step, h, State.input]

/-! ## Engines with no step -/

theorem State.engineRun_stuck (hs : s.seqStep = none) (hd : s.dmaStep = none) (n : Nat) : s.engineRun n = s := by
  induction n with
  | zero => rfl
  | succ n ih => rw [State.engineRun, State.engineStep_stuck hs hd, ih]

/-- After a HANG of a blocking frame the sequencer has no step (41_protocol.md R166; log 7). -/
theorem State.seqStep_hung {rest : List Action} (hf : s.fsm = .run) (hm : s.mseq = .hung :: rest) :
    s.seqStep = none := by
  simp only [State.seqStep, hf, hm]

theorem State.dmaStep_hung (hd : s.dma = .hung) : s.dmaStep = none := by
  simp only [State.dmaStep, hd]

/-! ## A blocking frame and its draw (41_protocol.md R166, 42_bulk_transfer.md R183) -/

/-- A draw leaves the sequencer and the channel alone. -/
theorem State.drawXfer_flow {d : XferOutcome} (h : s.drawXfer = (d, u)) :
    u.fsm = s.fsm ∧ u.mseq = s.mseq ∧ u.dma = s.dma := by
  obtain ⟨d', xs, ix, h'⟩ := s.drawXfer_eq
  rw [h'] at h
  cases h
  exact ⟨rfl, rfl, rfl⟩

/-- The frame of `send_blocking(v)`, with its draw and `rest` to come. -/
def State.frameSent (v : Half) (rest : List Action) (s : State) : State :=
  { s with
    mseq := .drawXfer :: rest
    trace := s.trace ++ [.frame s.csN s.dc s.busWidth (frameValue s.busWidth v)] }

theorem State.seqStep_sendByte {b : Byte} {rest : List Action} (hf : s.fsm = .run)
    (hm : s.mseq = .sendByte b :: rest) : s.seqStep = some (s.frameSent (b.setWidth 16) rest) :=
  State.seqStep_run hf hm (by simp)

/-- A frame of a blocking chunk whose read is admitted: the other frames come after its draw. -/
theorem State.seqStep_sendChunk {off n : Nat} {as : List Action} {v : Half} (hf : s.fsm = .run)
    (hm : s.mseq = .sendChunk off (n + 1) :: as) (hw : s.word s.src off = some v) :
    s.seqStep = some (s.frameSent v (if n = 0 then as else .sendChunk (off + 1) n :: as)) := by
  have hw' : State.word { s with mseq := as } s.src off = some v := hw
  have hsend : State.sendChunk off (n + 1) { s with mseq := as } =
      s.frameSent v (if n = 0 then as else .sendChunk (off + 1) n :: as) := by
    rw [State.sendChunk_succ, hw']
    by_cases hn : n = 0 <;> simp only [hn, if_true, if_false] <;> rfl
  exact (State.seqStep_run hf hm (by simp)).trans (congrArg some hsend)

/-- A frame of a blocking chunk whose read is not admitted. -/
theorem State.seqStep_sendChunk_unreadable {off n : Nat} {as : List Action} (hf : s.fsm = .run)
    (hm : s.mseq = .sendChunk off (n + 1) :: as) (hw : s.word s.src off = none) :
    s.seqStep = some (s.faultedBy .busError) := by
  have hw' : State.word { s with mseq := as } s.src off = none := hw
  have hfault : State.sendChunk off (n + 1) { s with mseq := as } = s.faultedBy .busError := by
    rw [State.sendChunk_succ, hw']
    rfl
  exact (State.seqStep_run hf hm (by simp)).trans (congrArg some hfault)

/-- The step after a blocking frame is its draw. -/
theorem State.seqStep_drawXfer {rest : List Action} {d : XferOutcome} (hf : s.fsm = .run)
    (hm : s.mseq = .drawXfer :: rest) (hdraw : State.drawXfer { s with mseq := rest } = (d, u)) :
    (d = .ok → s.seqStep = some u) ∧ (d = .fail → s.seqStep = some (u.faultedBy .transferFault)) ∧
    (d = .hang → s.seqStep = some { u with mseq := .hung :: rest }) := by
  have hstep : s.seqStep = some (State.frameOutcome { s with mseq := rest }) := State.seqStep_run hf hm (by simp)
  obtain ⟨hok, hfail, hhang⟩ := State.frameOutcome_of_draw hdraw
  obtain ⟨-, hmseq, -⟩ := State.drawXfer_flow hdraw
  refine ⟨fun hd => hstep.trans (congrArg some (hok hd)), fun hd => hstep.trans (congrArg some (hfail hd)),
    fun hd => ?_⟩
  have hpush : u.pushActions [.hung] = { u with mseq := .hung :: rest } := by
    rw [State.pushActions, hmseq]
    rfl
  rw [hstep, hhang hd, hpush]

/-! ## The draw of a reconfiguration (40_bus_mode.md R141) -/

theorem State.seqStep_drawReconfig {rest : List Action} {d : ReconfigOutcome} (hf : s.fsm = .run)
    (hm : s.mseq = .drawReconfig :: rest) (hdraw : State.drawReconfig { s with mseq := rest } = (d, u)) :
    (d = .ok → s.seqStep = some u) ∧ (d = .fail → s.seqStep = some (u.faultedBy .reconfigFault)) := by
  have hstep : s.seqStep = some (State.reconfigOutcome { s with mseq := rest }) := State.seqStep_run hf hm (by simp)
  obtain ⟨hok, hfail⟩ := State.reconfigOutcome_of_draw hdraw
  exact ⟨fun hd => hstep.trans (congrArg some (hok hd)), fun hd => hstep.trans (congrArg some (hfail hd))⟩

/-! ## A hung DMA channel (42_bulk_transfer.md R187) -/

/-- A host access that makes no request reaches only what the host and its bus own. -/
theorem State.hostAccess_hostChange {a : HostAccess} (ha : ∀ v, a ≠ .write 0x00 .word v)
    (h : s.hostAccess a = .next t) : s.HostChange t := by
  rcases State.hostAccess_cases h with ⟨arg, resp, rfl⟩ | ⟨v, rfl, -⟩
  · exact (s.hostChange_arg arg).trans (State.hostChange_resp _ resp)
  · exact absurd rfl (ha v)

/-- While the channel hangs neither agent has a step. -/
theorem State.stuck_of_dmaHung (hf : s.fsm = .waitDma) (hd : s.dma = .hung) : s.seqStep = none ∧ s.dmaStep = none :=
  ⟨State.seqStep_waitDma_busy hf (by simp [hd]), State.dmaStep_hung hd⟩

/-- A poll of WAIT goes back to the plan. -/
theorem State.waitPoll_dmaHung (hf : s.fsm = .waitDma) (hd : s.dma = .hung) : s.HostChange s.waitPoll := by
  obtain ⟨hseq, hchannel⟩ := State.stuck_of_dmaHung (s := { s with inputs := .wait :: s.inputs }) hf hd
  rcases s.waitPoll_cases with h | h <;> rw [h]
  · rw [State.idleTurn_stuck hseq hchannel]
    exact s.hostChange_inputs _
  · exact s.hostChange_resp _

/-- One item of the plan, but a reset or a request. -/
theorem State.input_dmaHung {i : Input} (hf : s.fsm = .waitDma) (hd : s.dma = .hung) (hreset : i ≠ .reset)
    (hrequest : ∀ v, i ≠ .host (.write 0x00 .word v)) (h : s.input i = .next t) : s.HostChange t := by
  obtain ⟨hseq, hchannel⟩ := State.stuck_of_dmaHung hf hd
  cases i with
  | host a => exact State.hostAccess_hostChange (fun v ha => hrequest v (congrArg Input.host ha)) h
  | memWrite addr b => exact State.hostMemWrite_hostChange h
  | wait => cases h; exact State.waitPoll_dmaHung hf hd
  | engine => cases h; rw [State.engineStep_stuck hseq hchannel]; exact .refl s
  | stall => cases h; exact .refl s
  | reset => exact absurd rfl hreset

/-- Every step, but a reset or a request. -/
theorem step_dmaHung (hf : s.fsm = .waitDma) (hd : s.dma = .hung) (hreset : s.inputs.head? ≠ some .reset)
    (hrequest : ∀ v, s.inputs.head? ≠ some (.host (.write 0x00 .word v))) (h : step s = .next t) :
    s.HostChange t := by
  rcases step_cases h with ⟨-, rfl⟩ | ⟨i, rest, hinputs, h⟩
  · obtain ⟨hseq, hchannel⟩ := State.stuck_of_dmaHung hf hd
    rw [State.idleTurn_stuck hseq hchannel]
    exact .refl s
  · rw [hinputs] at hreset hrequest
    have hi := State.input_dmaHung (s := { s with inputs := rest }) hf hd (fun e => hreset (congrArg some e))
      (fun v e => hrequest v (congrArg some e)) h
    exact (s.hostChange_inputs rest).trans hi

/-! ## Two steps of a plan that begins with a turn of the agents -/

theorem runSteps_two_engine {rest : List Input} (h : s.inputs = .engine :: rest)
    (hseq : State.seqStep { s with inputs := rest } = some t) : runSteps 2 s = step t := by
  rw [runSteps, step_engine h, State.engineStep_of_seqStep hseq]
  exact runSteps_one t

/-- The first step of SET_DMA_MODE that has something to change (40_bus_mode.md R142). -/
theorem State.seqStep_setDmaMode {inc : Bool} {w : Width} {as : List Action} (hf : s.fsm = .run)
    (hm : s.mseq = .setDmaMode inc w :: as) (hdma : s.cfg.dmaEnabled = true)
    (hmode : ¬(s.dmaInc = inc ∧ s.dmaWidth = w)) : s.seqStep = some { s with
      dmaInc := inc, mseq := .setDmaWidth w :: .emitDmaCfg inc w :: .drawReconfig :: as } := by
  rw [State.seqStep_run hf hm (by simp)]
  rcases State.setDmaMode_cases inc w { s with mseq := as } with ⟨hno, -⟩ | ⟨-, hsame, -⟩ | ⟨-, -, h⟩
  · exact absurd (hdma.symm.trans hno) (by simp)
  · exact absurd hsame hmode
  · exact congrArg some h

/-! ## The start and the end of a chunk (42_bulk_transfer.md R182, R183, R184) -/

theorem goesByDma_iff (c : Config) (n : Nat) :
    goesByDma c n = true ↔ c.dmaEnabled = true ∧ c.dmaMinSize ≤ n := by
  simp [goesByDma]

theorem State.startChunk_dma (off : Nat) (h : goesByDma s.cfg (chunkSize s.rem) = true) :
    s.startChunk off = { s with
      chunk := BitVec.ofNat 16 (chunkSize s.rem)
      mseq := [.setDmaMode (!s.src.isRep) s.busWidth, .emitChunk .dma (chunkSize s.rem),
        .issueDma off (chunkSize s.rem), .endChunk off] ++ s.mseq } := by
  simp only [State.startChunk, State.pushActions, h, if_true]

theorem State.startChunk_blocking (off : Nat) (h : goesByDma s.cfg (chunkSize s.rem) = false) :
    s.startChunk off = { s with
      chunk := BitVec.ofNat 16 (chunkSize s.rem)
      mseq := [.emitChunk .blk (chunkSize s.rem), .sendChunk off (chunkSize s.rem), .endChunk off] ++ s.mseq } := by
  simp only [State.startChunk, State.pushActions, h, Bool.false_eq_true, if_false]

/-- The last chunk of a transfer: nothing is put back. -/
theorem State.endChunk_last (off : Nat) (h : s.rem - BitVec.ofNat 32 s.chunk.toNat = 0) :
    s.endChunk off = { s with rem := 0 } := by
  simp only [State.endChunk, State.pushActions, h, if_true, List.nil_append]

theorem State.endChunk_more (off : Nat) (h : s.rem - BitVec.ofNat 32 s.chunk.toNat ≠ 0) :
    s.endChunk off = { s with
      rem := s.rem - BitVec.ofNat 32 s.chunk.toNat
      mseq := .startChunk (if s.src.isRep = true then off else off + s.chunk.toNat) :: s.mseq } := by
  simp only [State.endChunk, State.pushActions, h, if_false, List.singleton_append, advance]

end Sys2Proof.Machine

namespace Sys2Proof

open Machine

/-- Settles O19: state by state; an operation starts with a micro-sequence that ends in `finish` or `raise`. -/
theorem sequencerAdvances : Obligations.SequencerAdvances := by
  intro s
  refine ⟨State.seqStep_idle, State.seqStep_faulted, fun hf _ _ hm ha => State.seqStep_run hf hm ha,
    State.seqStep_waitDma_busy, State.seqStep_waitDma_ready, fun _ => rfl, fun _ => rfl, fun _ _ => rfl,
    fun _ => step_engine, fun rest hi => ?_,
    fun t h => ⟨State.engineStep_of_seqStep h, fun hi => step_of_seqStep hi h⟩, fun i => ?_⟩
  · simp only [step, hi, State.input]
  · obtain ⟨as, hends, hexec⟩ := exec_ends i s
    exact ⟨_, hexec, rfl, hends⟩

/-- Settles O22: the frame and its draw are the first actions of two steps, and `hung` has no step of its own. -/
theorem blockingFrame : Obligations.BlockingFrame := by
  intro s a as rest v hf hm
  constructor
  · rintro off n rfl hw
    exact State.seqStep_sendChunk_unreadable hf hm hw
  · intro hframe sent
    have hsent : s.seqStep = some sent := by
      rcases hframe with ⟨b, rfl, rfl, rfl⟩ | ⟨off, n, rfl, hw, rfl⟩
      · exact State.seqStep_sendByte hf hm
      · exact State.seqStep_sendChunk hf hm hw
    refine ⟨hsent, fun d u hdraw => ?_⟩
    obtain ⟨hok, hfail, hhang⟩ := State.seqStep_drawXfer (s := sent) hf rfl hdraw
    obtain ⟨hfsm, -, hdma⟩ := State.drawXfer_flow hdraw
    have hrun : u.fsm = .run := hfsm.trans hf
    refine ⟨hok, hfail, fun hd => ⟨hhang hd, (State.busy_iff _).mpr (.inl hrun), fun hready => ?_⟩⟩
    exact State.engineRun_stuck (State.seqStep_hung hrun rfl) (State.dmaStep_ready (hdma.trans hready))

/-- Settles O23: neither agent has a step, so what is left to the plan reaches only what the host and its bus own. -/
theorem dmaHang : Obligations.DmaHang := by
  intro s hf hd
  obtain ⟨hseq, hchannel⟩ := State.stuck_of_dmaHung hf hd
  have hbusy : s.busy = true := s.busy_iff.mpr (.inr hf)
  refine ⟨State.engineRun_stuck hseq hchannel, hbusy, fun t hstep hreset hrequest => ?_⟩
  obtain ⟨op, arg, mem, inputs, resp, rfl⟩ := step_dmaHung hf hd hreset hrequest hstep
  exact ⟨hf, hd, hbusy, rfl, rfl⟩

/-- Settles O34: each primitive is an action of its own, so after the first step the plan's next item meets one register written, and no event. -/
theorem reconfigurationSteps : Obligations.ReconfigurationSteps := by
  intro s w inc as hf
  constructor
  · intro hm hw written emitted
    refine ⟨?_, State.seqStep_run (s := written) hf rfl (by simp),
      fun d u => State.seqStep_drawReconfig (s := emitted) hf rfl⟩
    exact (State.seqStep_run hf hm (by simp)).trans (congrArg some (if_neg hw))
  · intro hm hdma hmode first written emitted
    refine ⟨State.seqStep_setDmaMode hf hm hdma hmode, State.seqStep_run (s := first) hf rfl (by simp),
      State.seqStep_run (s := written) hf rfl (by simp), fun d u => State.seqStep_drawReconfig (s := emitted) hf rfl,
      fun is v => ?_⟩
    have htwo (i : Input) (hi : s.inputs = .engine :: i :: is) :
        runSteps 2 s = step { first with inputs := i :: is } :=
      runSteps_two_engine hi (State.seqStep_setDmaMode (s := { s with inputs := i :: is }) hf hm hdma hmode)
    refine ⟨fun hi => ?_, fun hi => ?_, fun hi => ?_⟩ <;> rw [htwo _ hi]
    · let u : State := { first with inputs := .host (.read 0x1C .word) :: is }
      have hinc : u.modeWord.getLsbD 1 = inc := by rw [u.modeWord_dmaInc, show u.cfg.dmaEnabled = true from hdma]; rfl
      have hwidth : u.modeWord.getLsbD 2 = true ↔ s.dmaWidth = .w16 := by
        rw [u.modeWord_dmaWidth, show u.cfg.dmaEnabled = true from hdma, Bool.true_and, widthBit_iff]
      exact ⟨_, u.modeWord, step_read (s := u) (by decide) rfl rfl, rfl, hinc, hwidth, rfl⟩
    · have hbusy : State.busy { first with inputs := is, resp := .ack, op := v } = true :=
        (State.busy_iff _).mpr (.inl hf)
      exact ⟨_, (step_request rfl).trans (State.startRequest_busy hbusy), rfl, rfl, rfl, rfl, rfl⟩
    · exact ⟨_, step_reset rfl, atReset_resetWith _ _ _ _ _ _ _ _, rfl⟩

/-- Settles O40: by the choice of transport at the start of a chunk, and by what is left at its end. -/
theorem transportChoice : Obligations.TransportChoice := by
  intro s off n left
  have hdma : goesByDma s.cfg n = true ↔ s.cfg.dmaEnabled = true ∧ s.cfg.dmaMinSize ≤ n := goesByDma_iff s.cfg n
  refine ⟨fun henabled hmin => ?_, fun hno => ?_, fun h0 => ?_, fun h0 => ?_⟩
  · exact State.startChunk_dma off (hdma.mpr ⟨henabled, hmin⟩)
  · exact State.startChunk_blocking off (Bool.eq_false_iff.mpr (mt hdma.mp hno))
  · exact State.endChunk_last off h0
  · exact State.endChunk_more off h0

end Sys2Proof
end

section
/-! PROOFS. What every operation reports and leaves unchanged: the first check that applies (60_exceptions.md R316), and the registers its rule does not list, in every run of the agents (10_state.md, 41_protocol.md to 45_init.md). -/

namespace Sys2Proof.Machine

variable {s t u : State} {i : Instr}

/-! ## What the checks of an operation lead to (60_exceptions.md R316) -/

theorem Plan.exists_runs_of_verdict {p : Plan} (h : p.verdict = .passes) : ∃ as, p = .runs as := by
  cases p with
  | runs as => exact ⟨as, rfl⟩
  | faults | ends => cases h

/-- An operation whose checks come to a rejection ends with it in its first action. -/
theorem exec_rejects {r : ResultCode} (h : verdict s i = .rejects r) :
    ∃ b, exec i s = .next b ∧ b.engineStep = s.finished r := by
  refine ⟨_, exec_eq i s, ?_⟩
  rw [Plan.eq_ends_of_verdict ((opActions_verdict s i).trans h)]
  exact State.engineStep_running (.finish r) [] s (by simp)

/-- An operation whose checks pass is to end OK, and has sent nothing yet. -/
theorem exec_passes (h : verdict s i = .passes) :
    ∃ b, exec i s = .next b ∧ b.mseq.getLast? = some (.finish .ok) ∧ b.trace = s.trace := by
  obtain ⟨as, has⟩ := Plan.exists_runs_of_verdict ((opActions_verdict s i).trans h)
  refine ⟨_, exec_eq i s, ?_, rfl⟩
  rw [has]
  exact List.getLast?_concat

/-! ## What a turn of the agents does to the sequencer, the channel, RESULT and ERR -/

/-- The sequencer state, the channel, RESULT and ERR are the same. -/
structure SameFlow (s t : State) : Prop where
  fsm : t.fsm = s.fsm
  dma : t.dma = s.dma
  result : t.result = s.result
  errCode : t.errCode = s.errCode
  errOp : t.errOp = s.errOp

/-- Everything an action can do to them: a fault, `finish`, `issue_dma`, or nothing. -/
theorem doAction_flow (a : Action) (s : State) :
    ((doAction a s).fsm = .faulted ∧ (doAction a s).dma = .ready) ∨ (∃ r, a = .finish r) ∨
    (∃ off n, a = .issueDma off n) ∨ SameFlow s (doAction a s) := by
  cases a
  case finish r => exact .inr (.inl ⟨r, rfl⟩)
  case issueDma off n => exact .inr (.inr (.inl ⟨off, n, rfl⟩))
  case raise => exact .inl ⟨rfl, rfl⟩
  case setWidth w =>
    refine .inr (.inr (.inr ?_))
    change SameFlow s (s.setWidth w)
    rcases s.setWidth_cases w with ⟨-, h⟩ | ⟨-, h⟩ <;> rw [h] <;> exact ⟨rfl, rfl, rfl, rfl, rfl⟩
  case setDmaMode inc w =>
    change ((s.setDmaMode inc w).fsm = _ ∧ (s.setDmaMode inc w).dma = _) ∨ _ ∨ _ ∨
      SameFlow s (s.setDmaMode inc w)
    rcases s.setDmaMode_cases inc w with ⟨-, h⟩ | ⟨-, -, h⟩ | ⟨-, -, h⟩ <;> rw [h]
    · exact .inl ⟨rfl, rfl⟩
    · exact .inr (.inr (.inr ⟨rfl, rfl, rfl, rfl, rfl⟩))
    · exact .inr (.inr (.inr ⟨rfl, rfl, rfl, rfl, rfl⟩))
  case drawReconfig =>
    change (s.reconfigOutcome.fsm = _ ∧ s.reconfigOutcome.dma = _) ∨ _ ∨ _ ∨ SameFlow s s.reconfigOutcome
    obtain ⟨rs, ix, h | h⟩ := s.reconfigOutcome_cases <;> rw [h]
    · exact .inr (.inr (.inr ⟨rfl, rfl, rfl, rfl, rfl⟩))
    · exact .inl ⟨rfl, rfl⟩
  case drawXfer =>
    change (s.frameOutcome.fsm = _ ∧ s.frameOutcome.dma = _) ∨ _ ∨ _ ∨ SameFlow s s.frameOutcome
    obtain ⟨xs, ix, h | h | h⟩ := s.frameOutcome_cases <;> rw [h]
    · exact .inr (.inr (.inr ⟨rfl, rfl, rfl, rfl, rfl⟩))
    · exact .inl ⟨rfl, rfl⟩
    · exact .inr (.inr (.inr ⟨rfl, rfl, rfl, rfl, rfl⟩))
  case sendChunk off n =>
    change ((s.sendChunk off n).fsm = _ ∧ (s.sendChunk off n).dma = _) ∨ _ ∨ _ ∨ SameFlow s (s.sendChunk off n)
    rcases sendChunk_cases off n s with h | h | ⟨v, -, m, -, h⟩ <;> rw [h]
    · exact .inr (.inr (.inr ⟨rfl, rfl, rfl, rfl, rfl⟩))
    · exact .inl ⟨rfl, rfl⟩
    · exact .inr (.inr (.inr ⟨rfl, rfl, rfl, rfl, rfl⟩))
  case checkReady =>
    unfold doAction
    dsimp only
    split
    · exact .inr (.inr (.inr ⟨rfl, rfl, rfl, rfl, rfl⟩))
    · exact .inl ⟨rfl, rfl⟩
  all_goals exact .inr (.inr (.inr ⟨rfl, rfl, rfl, rfl, rfl⟩))

/-- What may happen to RESULT and ERR without a fault: ERR stays, and RESULT changes only as the operation ends. -/
def Undecided (s t : State) : Prop :=
  t.errCode = s.errCode ∧ t.errOp = s.errOp ∧ (t.fsm = .idle ∨ t.result = s.result)

theorem SameFlow.undecided (h : SameFlow s t) : Undecided s t := ⟨h.errCode, h.errOp, .inr h.result⟩

/-- A step of the channel faults, or leaves the sequencer, RESULT and ERR alone. -/
theorem dmaStep_flow (h : s.dmaStep = some t) : t.fsm = .faulted ∨ (t.fsm = s.fsm ∧ Undecided s t) := by
  rcases dmaStep_cases h with ⟨_, _, -, rfl⟩ | ⟨_, _, _, -, ⟨-, rfl⟩ | ⟨_, _, _, -, rfl | rfl | rfl⟩⟩
  · exact .inr ⟨rfl, rfl, rfl, .inr rfl⟩
  · exact .inl rfl
  · exact .inr ⟨rfl, rfl, rfl, .inr rfl⟩
  · exact .inl rfl
  · exact .inr ⟨rfl, rfl, rfl, .inr rfl⟩

theorem seqStep_flow (h : s.seqStep = some t) : t.fsm = .faulted ∨ Undecided s t := by
  rcases seqStep_cases h with ⟨-, -, rfl⟩ | ⟨-, a, rest, -, -, rfl⟩
  · exact .inr ⟨rfl, rfl, .inr rfl⟩
  · rcases doAction_flow a { s with mseq := rest } with ⟨hf, -⟩ | ⟨r, rfl⟩ | ⟨off, n, rfl⟩ | hsame
    · exact .inl hf
    · exact .inr ⟨rfl, rfl, .inl rfl⟩
    · exact .inr ⟨rfl, rfl, .inr rfl⟩
    · exact .inr hsame.undecided

theorem engineStep_flow (s : State) : s.engineStep.fsm = .faulted ∨ Undecided s s.engineStep := by
  rcases engineStep_cases s with h | ⟨-, h⟩ | ⟨-, -, h⟩
  · exact seqStep_flow h
  · exact (dmaStep_flow h).imp_right And.right
  · rw [h]
    exact .inr ⟨rfl, rfl, .inr rfl⟩

/-- With no operation running the sequencer has no step, so it stays as it is or faults. -/
theorem engineStep_of_not_busy (h : s.busy = false) : s.engineStep.fsm = .faulted ∨ s.engineStep.fsm = s.fsm := by
  rcases engineStep_cases s with hseq | ⟨-, hdma⟩ | ⟨-, -, he⟩
  · rcases seqStep_cases hseq with ⟨hf, -⟩ | ⟨hf, -⟩ <;> simp [State.busy, hf] at h
  · exact (dmaStep_flow hdma).imp_right And.left
  · exact .inr (congrArg State.fsm he)

/-! ## What a run of the agents does to RESULT and ERR -/

theorem engineRun_faulted (n : Nat) (h : s.fsm = .faulted) : (s.engineRun n).fsm = .faulted := by
  induction n generalizing s with
  | zero => exact h
  | succ n ih => exact ih ((engineStep_of_not_busy (State.busy_of_faulted h)).elim id fun he => he.trans h)

theorem engineRun_not_busy (n : Nat) (h : s.busy = false) : (s.engineRun n).busy = false := by
  induction n generalizing s with
  | zero => exact h
  | succ n ih =>
    refine ih ?_
    rcases engineStep_of_not_busy h with hf | hf
    · exact State.busy_of_faulted hf
    · rw [State.busy, hf]
      exact h

/-- ERR changes only with a fault. -/
theorem engineRun_err (n : Nat) (h : (s.engineRun n).fsm ≠ .faulted) :
    (s.engineRun n).errCode = s.errCode ∧ (s.engineRun n).errOp = s.errOp := by
  induction n generalizing s with
  | zero => exact ⟨rfl, rfl⟩
  | succ n ih =>
    obtain ⟨hcode, hop⟩ := ih h
    rcases engineStep_flow s with hf | ⟨hcode', hop', -⟩
    · exact absurd (engineRun_faulted n hf) h
    · exact ⟨hcode.trans hcode', hop.trans hop'⟩

/-- RESULT changes only when the operation ends. -/
theorem engineRun_result (n : Nat) (h : (s.engineRun n).busy = true) : (s.engineRun n).result = s.result := by
  induction n generalizing s with
  | zero => rfl
  | succ n ih =>
    have hbusy : s.engineStep.busy = true := by
      by_contra hnot
      rw [show (s.engineRun (n + 1)).busy = false from engineRun_not_busy n (Bool.eq_false_iff.mpr hnot)] at h
      cases h
    have hrun := s.engineStep.busy_iff.mp hbusy
    rcases engineStep_flow s with hf | ⟨-, -, hf | hresult⟩
    · simp [hf] at hrun
    · simp [hf] at hrun
    · exact (ih h).trans hresult

/-- The channel stays ready while no action of the micro-sequence issues a chunk. -/
theorem engineRun_ready (n : Nat) (hs : s.mseq.all keepsTransfer = true) (h : s.dma = .ready) :
    (s.engineRun n).dma = .ready := by
  induction n generalizing s with
  | zero => exact h
  | succ n ih =>
    refine ih (engineStep_all closed_transfer hs) ?_
    rcases engineStep_cases s with hseq | ⟨-, hdma⟩ | ⟨-, -, he⟩
    · rcases seqStep_cases hseq with ⟨-, -, e⟩ | ⟨-, a, rest, hm, -, e⟩ <;> rw [e]
      · exact h
      · rcases doAction_flow a { s with mseq := rest } with ⟨-, hd⟩ | ⟨r, rfl⟩ | ⟨off, k, rfl⟩ | hsame
        · exact hd
        · exact h
        · simp [hm, keepsTransfer] at hs
        · exact hsame.dma.trans h
    · rw [State.dmaStep_ready h] at hdma
      cases hdma
    · rw [he]
      exact h

/-! ## Registers an operation does not write -/

/-- Starting an operation sets the micro-sequence and the sequencer state, and nothing else. -/
theorem exec_running (hexec : exec i s = .next t) : ∃ as, t = s.running as := by
  rw [exec_eq] at hexec
  cases hexec
  exact ⟨_, rfl⟩

/-- The micro-sequence of an operation is in a class its actions are in. -/
theorem exec_mseq_all {p : Action → Bool} (hfin : ∀ r, p (.finish r) = true) (hraise : ∀ f, p (.raise f) = true)
    (hruns : ∀ as, opActions s.cfg s.busWidth s.rotSet s.initDone i = .runs as → as.all p = true)
    (hexec : exec i s = .next t) : t.mseq.all p = true := by
  rw [exec_eq] at hexec
  cases hexec
  exact Plan.asRequest_all hfin hraise hruns

/-- A register that no action of the operation writes has its old value at every point of the run. -/
theorem Insensitive.operation {α : Type} {f : State → α} (hf : Insensitive f) {p : Action → Bool} (hp : Closed p)
    (hact : ∀ a (s : State), p a = true → f (doAction a s) = f s) (hfin : ∀ r, p (.finish r) = true)
    (hraise : ∀ f, p (.raise f) = true)
    (hruns : ∀ as, opActions s.cfg s.busWidth s.rotSet s.initDone i = .runs as → as.all p = true)
    (hexec : exec i s = .next t) (n : Nat) : f (t.engineRun n) = f s := by
  rw [hf.engineRun hp hact n t (exec_mseq_all hfin hraise hruns hexec)]
  obtain ⟨as, rfl⟩ := exec_running hexec
  exact hf.flow s s.result s.errCode s.errOp .run s.dma as

end Sys2Proof.Machine

namespace Sys2Proof

open Machine

/-- Settles O30: by what the checks come to, which is the plan the operation starts with. -/
theorem checkOrder : Obligations.CheckOrder := by
  intro i s
  cases hverdict : verdict s i with
  | faults f => exact exec_faults hverdict
  | rejects r => exact exec_rejects hverdict
  | passes => exact exec_passes hverdict

/-- Settles O31: what every action keeps; then one class of actions for each group of registers, to which the actions of the operation belong; then RESULT and ERR turn by turn. -/
theorem operationFrame : Obligations.OperationFrame := by
  intro i s b n hexec u
  obtain ⟨as, rfl⟩ := exec_running hexec
  have hbegin : Kept s (s.running as) := ⟨rfl, rfl, rfl, rfl, rfl, rfl, rfl, rfl, [], (List.append_nil _).symm⟩
  have hkept : Kept s u := hbegin.trans (kept_engineRun n _)
  refine ⟨hkept.cfg, hkept.op, hkept.arg, hkept.lOp, hkept.lArg, fun x => by rw [hkept.mem], hkept.inputs, hkept.resp,
    hkept.trace, fun hi => ?_, fun hi => ?_, fun hi => ?_, fun hi => ?_, fun hi => ?_, fun hi => ?_, fun hi => ?_,
    fun hi => ?_, fun hf => ?_, fun hbusy => ?_⟩
  · exact ins_width.operation closed_width act_width (fun _ => rfl) (fun _ => rfl)
      (runs_keepsWidth _ _ _ _ i hi) hexec n
  · exact Prod.mk.inj (ins_dmaMode.operation closed_dmaMode act_dmaMode (fun _ => rfl) (fun _ => rfl)
      (runs_keepsDmaMode _ _ _ _ i hi) hexec n)
  · exact Prod.mk.inj (ins_rotation.operation closed_rotation act_rotation (fun _ => rfl) (fun _ => rfl)
      (runs_keepsRotation _ _ _ _ i hi) hexec n)
  · exact Prod.mk.inj (ins_init.operation closed_init act_init (fun _ => rfl) (fun _ => rfl)
      (runs_keepsInit _ _ _ _ i hi) hexec n)
  · exact Prod.mk.inj (ins_lines.operation closed_lines act_lines (fun _ => rfl) (fun _ => rfl)
      (runs_keepsLines _ _ _ _ i hi) hexec n)
  · have hwindow := ins_window.operation closed_window act_window (fun _ => rfl) (fun _ => rfl)
      (runs_keepsWindow _ _ _ _ i hi) hexec n
    simpa only [Prod.mk.injEq] using hwindow
  · exact Prod.mk.inj (ins_fill.operation closed_fill act_fill (fun _ => rfl) (fun _ => rfl)
      (runs_keepsFill _ _ _ _ i hi) hexec n)
  · have hruns := runs_keepsTransfer s.cfg s.busWidth s.rotSet s.initDone i hi
    have htransfer := ins_transfer.operation closed_transfer act_transfer (fun _ => rfl) (fun _ => rfl) hruns hexec n
    simp only [Prod.mk.injEq] at htransfer
    obtain ⟨hsrc, hrem, hchunk⟩ := htransfer
    exact ⟨hsrc, hrem, hchunk, engineRun_ready n (exec_mseq_all (fun _ => rfl) (fun _ => rfl) hruns hexec)⟩
  · exact engineRun_err n hf
  · exact engineRun_result n hbusy

end Sys2Proof
end

section
/-! PROOFS. Whole operations with draws that are OK, 41_protocol.md to 45_init.md: each run ends in the state its rule gives as a whole (R160, R162, R164, R183, R210, R214, R242, R244, R246, R248, R250, R290), and the frames of a transfer do not depend on the transport (R189). -/

namespace Sys2Proof.Machine

variable {s t : State} {i : Instr}

/-! ## WRITE_COMMAND and WRITE_SMALL_DATA (41_protocol.md R160, R162) -/

/-- SET_WORD_WIDTH field by field: its event and its draw only where the width changes. -/
theorem State.widthSet_eq (w : Width) (s : State) : s.widthSet w = { s with
    busWidth := w
    trace := s.trace ++ (if s.busWidth = w then [] else [.spiWidth w])
    reconfigDraws := if s.busWidth = w then s.reconfigDraws else s.reconfigDraws.drop 1 } := by
  by_cases hw : s.busWidth = w
  · subst hw
    rw [State.widthSet_same rfl, if_pos rfl, if_pos rfl, List.append_nil]
  · rw [State.widthSet, if_neg hw, if_neg hw, if_neg hw]

/-- A framed byte field by field. -/
theorem State.byteSent_eq (d : Bool) (b : Byte) (s : State) : s.byteSent d b = { s with
    busWidth := .w8
    csN := true
    dc := d
    trace := s.trace ++ (if s.busWidth = .w8 then [] else [.spiWidth .w8]) ++
      [.csN false, .dc d, .frame false d .w8 (b.setWidth 16), .csN true]
    reconfigDraws := if s.busWidth = .w8 then s.reconfigDraws else s.reconfigDraws.drop 1
    xferDraws := s.xferDraws.drop 1 } := by
  rw [State.byteSent, State.widthSet_eq]

theorem runs_byte (d : Bool) (b : Byte) (hdraws : s.OkDraws (if s.busWidth = .w8 then 0 else 1) 1)
    (hplan : opActions s.cfg s.busWidth s.rotSet s.initDone i =
      .runs [.setWidth .w8, .driveCs false, .driveDc d, .sendByte b, .driveCs true]) :
    Runs i s ((s.byteSent d b).finished .ok) := by
  refine runs_of_reaches hplan (State.reaches_byte d b _ (fun hw => ?_) (hdraws.mono (Nat.zero_le _) le_rfl))
  rw [if_neg hw] at hdraws
  exact hdraws.mono le_rfl (Nat.zero_le 1)

/-! ## WRITE_DATA and TRANSMIT (41_protocol.md R164, 42_bulk_transfer.md R183) -/

/-- The draws of a transfer: its frames and at most one reconfiguration. -/
theorem ModeReady.of_okDraws {n x : Nat} (source : Source) (h : s.OkDraws 1 x) : ModeReady source n s :=
  .inl (h.mono le_rfl (Nat.zero_le x))

/-- A transfer of no frames loads its source. -/
theorem State.transferred_zero (source : Source) (s : State) :
    s.transferred source 0 = { s with src := source, rem := 0 } :=
  rfl

/-- WRITE_DATA of no frames is three line events. -/
theorem State.dataWritten_zero (source : Source) (s : State) : s.dataWritten source 0 = { s with
    src := source
    rem := 0
    csN := true
    dc := true
    trace := s.trace ++ [.csN false, .dc true, .csN true] } := by
  simp only [State.dataWritten, State.transferred_zero, List.append_assoc, List.cons_append, List.nil_append]

/-! ## The frames of a transfer by either transport (42_bulk_transfer.md R189) -/

theorem State.framesFrom_length (source : Source) (off n : Nat) (s : State) :
    (s.framesFrom source off n).length = n := by
  simp [State.framesFrom]

/-- The frames depend on the lines, the width and the values of the source alone. -/
theorem State.framesFrom_eq_of_word {source : Source} {n : Nat} (hw : t.busWidth = s.busWidth) (hcs : t.csN = s.csN)
    (hdc : t.dc = s.dc) (hword : ∀ j, j < n → t.word source j = s.word source j) :
    t.framesFrom source 0 n = s.framesFrom source 0 n := by
  unfold State.framesFrom State.sourceValue
  refine List.map_congr_left fun j hj => ?_
  rw [Nat.zero_add, hcs, hdc, hw, hword j (List.mem_range.mp hj)]

/-! ## DRAW_LINE (44_pixel_stream.md R246) -/

/-- A line that is a rectangle inside the panel is filled as that rectangle. -/
theorem runs_straightLine {x0 y0 x1 y1 a b c d : Half} (color : Half) (hdma : s.dma = .ready) (hrot : s.rotSet = true)
    (hline : planLine s.cfg x0 y0 x1 y1 color = planRect s.cfg a b c d color)
    (hvalid : windowValid s.cfg a b c d = true) (hdraws : s.OkDraws 8 (11 + rectCount a b c d)) :
    Runs (.drawLine x0 y0 x1 y1 color 0) s ((s.rectFilled a b c d color).finished .ok) := by
  refine runs_of_reaches ?_ (State.reaches_rect a b c d color _ hrot hvalid hdma hdraws)
  rw [opActions, hrot]
  exact hline.trans (planRect_runs s.cfg hvalid)

theorem planLine_horizontal (c : Config) (x0 x1 y color : Half) :
    planLine c x0 y x1 y color = planRect c (minHalf x0 x1) y (maxHalf x0 x1) y color := if_pos rfl

theorem planLine_vertical (c : Config) {y0 y1 : Half} (x color : Half) (hy : y0 ≠ y1) :
    planLine c x y0 x y1 color = planRect c x (minHalf y0 y1) x (maxHalf y0 y1) color :=
  (if_neg hy).trans (if_pos rfl)

/-- A horizontal line between two points of the panel, in either order, as a window. -/
theorem horizontalWindow_valid {c : Config} {x0 x1 y : Half} (h0 : pointInside c x0 y = true)
    (h1 : pointInside c x1 y = true) : windowValid c (minHalf x0 x1) y (maxHalf x0 x1) y = true := by
  rw [pointInside_iff] at h0 h1
  rw [windowValid_iff, minHalf_toNat, maxHalf_toNat]
  omega

theorem verticalWindow_valid {c : Config} {x y0 y1 : Half} (h0 : pointInside c x y0 = true)
    (h1 : pointInside c x y1 = true) : windowValid c x (minHalf y0 y1) x (maxHalf y0 y1) = true := by
  rw [pointInside_iff] at h0 h1
  rw [windowValid_iff, minHalf_toNat, maxHalf_toNat]
  omega

theorem rectCount_horizontal (x0 x1 y : Half) : rectCount (minHalf x0 x1) y (maxHalf x0 x1) y =
    max x0.toNat x1.toNat - min x0.toNat x1.toNat + 1 := by
  rw [rectCount, minHalf_toNat, maxHalf_toNat, Nat.sub_self, Nat.mul_one]

theorem rectCount_vertical (x y0 y1 : Half) : rectCount x (minHalf y0 y1) x (maxHalf y0 y1) =
    max y0.toNat y1.toNat - min y0.toNat y1.toNat + 1 := by
  rw [rectCount, minHalf_toNat, maxHalf_toNat, Nat.sub_self, Nat.one_mul]

theorem verdict_diagonal {x0 y0 x1 y1 : Half} (color : Half) (hrot : s.rotSet = true) (hx : x0 ≠ x1)
    (hy : y0 ≠ y1) : verdict s (.drawLine x0 y0 x1 y1 color 0) = .rejects .notHandled := by
  simp [verdict, hrot, hx, hy]

end Sys2Proof.Machine

namespace Sys2Proof

open Machine

/-- Settles O36: the framed byte, with the mode line at command. -/
theorem writeCommand : Obligations.WriteCommand := by
  intro s b hdraws
  have hruns := runs_byte (i := .writeCommand b 0) false b hdraws rfl
  rw [State.byteSent_eq] at hruns
  exact hruns

/-- Settles O37: the framed byte, with the mode line at data. -/
theorem writeSmallData : Obligations.WriteSmallData := by
  intro s b hdraws
  have hruns := runs_byte (i := .writeSmallData b 0) true b hdraws rfl
  rw [State.byteSent_eq] at hruns
  exact hruns

/-- Settles O38: past its check the operation is the called WRITE_DATA; with no frames nothing stands between the line events. -/
theorem writeData : Obligations.WriteData := by
  intro s addr len hdma haligned hdraws hreadable
  have hplan : planWriteData s.busWidth addr len = .runs (callWriteData (.mem addr) len) :=
    if_neg (mt (bufferMisaligned_iff _ _ _).mp haligned)
  refine ⟨runs_of_reaches hplan ?_, ?_⟩
  · exact State.reaches_writeData (.mem addr) len _ hdma (hdraws.mono (Nat.zero_le 1) le_rfl) (.of_okDraws _ hdraws)
      hreadable
  · rintro rfl
    exact s.dataWritten_zero (.mem addr)

/-- Settles O39: past its check the operation is one transfer, which drives no line. -/
theorem transmit : Obligations.Transmit := by
  intro s addr len hdma haligned hdraws hreadable
  have hplan : planTransmit s.busWidth addr len = .runs [.loadTransfer (.mem addr) len] :=
    if_neg (mt (bufferMisaligned_iff _ _ _).mp haligned)
  obtain ⟨hcs, hdc, -⟩ := s.transferred_lines (.mem addr) len
  refine ⟨runs_of_reaches hplan ?_, hcs, hdc, ?_⟩
  · exact State.reaches_transfer (.mem addr) len _ hdma (hdraws.mono (Nat.zero_le 1) le_rfl) (.of_okDraws _ hdraws)
      hreadable
  · rintro rfl
    exact s.transferred_zero (.mem addr)

/-- Settles O42: both transfers send the source's frames in order, and those depend on the lines, the width and the values alone. -/
theorem transportIndependence : Obligations.TransportIndependence := by
  intro s s' source len as as' hdma hdma' hdraws hdraws' hsource hwidth hcs hdc
  have hreadable : ∀ j, j < len.toNat → (s.word source j).isSome = true := fun j hj => (hsource j hj).1
  have hword : ∀ j, j < len.toNat → s'.word source j = s.word source j := fun j hj => (hsource j hj).2
  have hreadable' : ∀ j, j < len.toNat → (s'.word source j).isSome = true := fun j hj => by
    rw [hword j hj]
    exact hreadable j hj
  have hreaches := State.reaches_transfer source len as hdma (hdraws.mono (Nat.zero_le 1) le_rfl)
    (.of_okDraws _ hdraws) hreadable
  have hreaches' := State.reaches_transfer source len as' hdma' (hdraws'.mono (Nat.zero_le 1) le_rfl)
    (.of_okDraws _ hdraws') hreadable'
  obtain ⟨es, htrace, -, hframes⟩ := s.transferred_transfers source len
  obtain ⟨es', htrace', -, hframes'⟩ := s'.transferred_transfers source len
  refine ⟨_, _, es, es', hreaches, rfl, s.transferred_rem source len, hreaches', rfl, s'.transferred_rem source len,
    htrace, htrace', ?_, ?_⟩
  · rw [hframes, State.framesFrom_length]
  · rw [hframes, hframes', State.framesFrom_eq_of_word hwidth hcs hdc hword]

/-- Settles O43: a window inside the panel passes the check, and the last byte sent leaves the width at 8. -/
theorem setAddressWindow : Obligations.SetAddressWindow := by
  intro s x0 y0 x1 y1 hdma hrot hx hx1 hy hy1 hdraws
  exact ⟨runs_setAddressWindow hdma hrot ((windowValid_iff s.cfg x0 y0 x1 y1).mpr ⟨hx, hx1, hy, hy1⟩) hdraws,
    s.windowSet_busWidth x0 y0 x1 y1⟩

/-- Settles O45: past its checks the operation is a command and its data byte, and then the two registers. -/
theorem setRotation : Obligations.SetRotation := by
  intro s hdraws
  have hplan : planSetRotation s.cfg s.cfg.rotationCfg 0 = .runs (rotationActions s.cfg s.cfg.rotationCfg) := by
    simp [planSetRotation, planRotation]
  exact ⟨runs_of_reaches hplan (State.reaches_rotation s.cfg.rotationCfg _ hdraws), rfl, rfl,
    (s.rotationSet_sends s.cfg.rotationCfg).ctrl⟩

/-- Settles O46: past its check the operation is the called fill, on either path. -/
theorem fillPixels : Obligations.FillPixels :=
  fun _ count color hdma hdraws => runs_fillPixels count color hdma hdraws

/-- Settles O48: corners in order and inside the panel are a valid window, and past the checks come the window and the fill. -/
theorem fillRect : Obligations.FillRect := by
  intro s x0 y0 x1 y1 color hdma hrot hx hx1 hy hy1 hdraws
  exact runs_fillRect color hdma hrot ((windowValid_iff s.cfg x0 y0 x1 y1).mpr ⟨hx, hx1, hy, hy1⟩) hdraws

/-- Settles O50: a straight line is the rectangle of its ordered ends, which is a valid window whatever their order; a diagonal is rejected. -/
theorem drawLine : Obligations.DrawLine := by
  intro s x0 y0 x1 y1 color hdma hrot x xm
  refine ⟨?_, ?_, fun hx hy => runs_rejected (verdict_diagonal color hrot hx hy)⟩
  · rintro rfl hx0 hx1 hy hdraws
    have hvalid := horizontalWindow_valid ((pointInside_iff s.cfg x0 y0).mpr ⟨hx0, hy⟩)
      ((pointInside_iff s.cfg x1 y0).mpr ⟨hx1, hy⟩)
    rw [← rectCount_horizontal x0 x1 y0] at hdraws
    exact runs_straightLine color hdma hrot (planLine_horizontal s.cfg x0 x1 y0 color) hvalid hdraws
  · rintro rfl hy hx hy0 hy1 hdraws
    have hvalid := verticalWindow_valid ((pointInside_iff s.cfg x0 y0).mpr ⟨hx, hy0⟩)
      ((pointInside_iff s.cfg x0 y1).mpr ⟨hx, hy1⟩)
    rw [← rectCount_vertical x0 y0 y1] at hdraws
    exact runs_straightLine color hdma hrot (planLine_vertical s.cfg x0 color hy) hvalid hdraws

/-- Settles O52: past its checks the operation is a window of one pixel and the pixel's two bytes as data. -/
theorem drawPixel : Obligations.DrawPixel := by
  intro s x y color hdma hrot hx hy hdraws
  have hinside := (pointInside_iff s.cfg x y).mpr ⟨hx, hy⟩
  have hplan : opActions s.cfg s.busWidth s.rotSet s.initDone (.drawPixel x y color 0) =
      .runs (callWindow s.cfg x y x y ++ callWriteBytes (pixelBytes color)) := by
    simp [opActions, planDrawPixel, hrot, hinside]
  exact ⟨runs_of_reaches hplan (State.reaches_pixel x y color _ hrot hinside hdma hdraws),
    (s.pixelDrawn_sends x y color).ctrl⟩

/-- Settles O53: a bitmap that meets every check is drawn. -/
theorem drawImage : Obligations.DrawImage := by
  intro s x y bw bh addr hdma hrot hw hh hx hy heven hreadable hdraws
  exact runs_drawImage hdma hrot hw hh ((imageInside_iff s.cfg x y bw bh).mpr ⟨hx, hy⟩) heven hreadable hdraws

/-- Settles O55: past its check the operation is the sequence of R290, which leaves the registers it is to set. -/
theorem init : Obligations.Init := by
  intro s r x hdma hinit hr hx hdraws
  rw [← initReconfigs_eq] at hr
  rw [← initFrames_eq] at hx
  obtain ⟨hset, hrot, hdone⟩ := s.initialized_rotation
  exact ⟨runs_init hdma hinit (hdraws.mono hr hx), hdone, hset, hrot⟩

end Sys2Proof
end
